-- ==== Sys2Proof/Word.lean ====
section
/-! DEFINITION. The bit-vector types of PEK-CORE: bytes, bus and command words, 256-bit data values. -/

namespace Sys2Proof

/-- A byte: an AES state byte or a byte of the key schedule (00_scope R12, 10_state R40). -/
abbrev Byte := BitVec 8

/-- A 32-bit word: a bus word or a command word (20_memory R79, 30_encoding R100). -/
abbrev Word := BitVec 32

/-- The content of a data register (10_state R31). -/
abbrev Data := BitVec 256

end Sys2Proof
end

