-- ==== Sys2Proof/Syntax.lean ====
section
/-! DEFINITION. The commands of PEK-CORE, one constructor per row of the opcode map (30_encoding R104).
Operands stand in the assembler's order: D, A, B, then K (30_encoding R125). -/

namespace Sys2Proof

/-- The index of a data register, R0 to R15 (10_state R31; operand kind R of 30_encoding R102). -/
abbrev DReg := Fin 16

/-- The index of a point register, P0 to P7 (10_state R34; operand kind P of 30_encoding R102). -/
abbrev PReg := Fin 8

/-- The 4-bit immediate K (30_encoding R103); only 0 to 14 are well-formed (WellFormed.lean). -/
abbrev Imm4 := Fin 16

/-- A command. -/
inductive Instr where
  /-- 45_data_system R303 -/
  | nop
  /-- 41_field R145 -/
  | fadd (d a b : DReg)
  /-- 41_field R146 -/
  | fsub (d a b : DReg)
  /-- 41_field R147 -/
  | fmul (d a b : DReg)
  /-- 41_field R150 -/
  | fpow (d a b : DReg)
  /-- 41_field R152 -/
  | finv (d a : DReg)
  /-- 41_field R154 -/
  | fdiv (d a b : DReg)
  /-- 41_field R156 -/
  | fsqrt (d a : DReg)
  /-- 42_curve R183 -/
  | pset (d : PReg) (a b : DReg)
  /-- 42_curve R184 -/
  | pinf (d : PReg)
  /-- 42_curve R185 -/
  | pgen (d : PReg)
  /-- 42_curve R186 -/
  | pmov (d a : PReg)
  /-- 42_curve R187 -/
  | px (d : DReg) (a : PReg)
  /-- 42_curve R188 -/
  | py (d : DReg) (a : PReg)
  /-- 42_curve R191 -/
  | pneg (d a : PReg)
  /-- 42_curve R194 -/
  | padd (d a b : PReg)
  /-- 42_curve R195 -/
  | peq (a b : PReg)
  /-- 42_curve R196 -/
  | pisinf (a : PReg)
  /-- 42_curve R197 -/
  | pdec (d : PReg) (a : DReg)
  /-- 43_scalar R221 -/
  | pmul (d : PReg) (a : DReg) (b : PReg)
  /-- 44_aes R250 -/
  | kexp (a : DReg)
  /-- 44_aes R270 -/
  | aese (d a : DReg)
  /-- 44_aes R271 -/
  | aesd (d a : DReg)
  /-- 44_aes R272 -/
  | asub (d a : DReg)
  /-- 44_aes R273 -/
  | aisub (d a : DReg)
  /-- 44_aes R274 -/
  | ashr (d a : DReg)
  /-- 44_aes R275 -/
  | aishr (d a : DReg)
  /-- 44_aes R276 -/
  | amix (d a : DReg)
  /-- 44_aes R277 -/
  | aimix (d a : DReg)
  /-- 44_aes R278 -/
  | aark (d a : DReg) (k : Imm4)
  /-- 45_data_system R304 -/
  | mov (d a : DReg)
  /-- 45_data_system R305 -/
  | xor (d a b : DReg)
  deriving DecidableEq, Repr

end Sys2Proof
end

