-- ==== Sys2Proof/WellFormed.lean ====
section
/-! DEFINITION. Which commands the hardware has: register indexes are bounded by their types; the one further
check is the round number of AARK (30_encoding R103, R107 item 5). -/

namespace Sys2Proof

/-- AARK's K is at most 14; every other command is well-formed as it stands. -/
def Instr.wellFormed : Instr → Bool
  | .aark _ _ k => decide (k.val ≤ 14)
  | .nop | .fadd _ _ _ | .fsub _ _ _ | .fmul _ _ _ | .fpow _ _ _ | .finv _ _ | .fdiv _ _ _ | .fsqrt _ _ => true
  | .pset _ _ _ | .pinf _ | .pgen _ | .pmov _ _ | .px _ _ | .py _ _ | .pneg _ _ | .padd _ _ _ => true
  | .peq _ _ | .pisinf _ | .pdec _ _ | .pmul _ _ _ | .kexp _ | .aese _ _ | .aesd _ _ => true
  | .asub _ _ | .aisub _ _ | .ashr _ _ | .aishr _ _ | .amix _ _ | .aimix _ _ => true
  | .mov _ _ | .xor _ _ _ => true

end Sys2Proof
end

