-- ==== Sys2Proof/Decode.lean ====
section
/-! DEFINITION. Decoding of command words (30_encoding R100 to R107), total on all 2^32 words, and the encoder. -/

namespace Sys2Proof

/-- Why a word is ILLEGAL: the three refusals of 30_encoding R106. -/
inductive DecodeError where
  /-- OP is not in the opcode map (R107 item 1). -/
  | unassignedOp
  /-- A bit that must be 0 is 1: in Z, in an unused field, or bit 3 of a point field (R107 items 2 to 4). -/
  | nonzeroReserved
  /-- AARK with K = 15 (R107 item 5). -/
  | roundNumber
  deriving DecidableEq, Repr

/-! ### Fields (30_encoding R101, R103) -/

/-- OP, bits 31:24. -/
def fieldOp (w : Word) : BitVec 8 := w.extractLsb' 24 8

/-- D, A, B and K as four-bit fields: 23:20, 19:16, 15:12, 11:8. -/
def fieldD (w : Word) : BitVec 4 := w.extractLsb' 20 4
def fieldA (w : Word) : BitVec 4 := w.extractLsb' 16 4
def fieldB (w : Word) : BitVec 4 := w.extractLsb' 12 4
def fieldK (w : Word) : BitVec 4 := w.extractLsb' 8 4

/-- A field of kind R: the whole four bits (R102). -/
def asDReg (f : BitVec 4) : DReg := ⟨f.toNat, f.isLt⟩

/-- A field of kind P: bits 2:0 (R102, R103). -/
def asPReg (f : BitVec 4) : PReg := ⟨(f.extractLsb' 0 3).toNat, (f.extractLsb' 0 3).isLt⟩

/-- A field of kind K: the zero-extended four bits (R103). -/
def asImm4 (f : BitVec 4) : Imm4 := ⟨f.toNat, f.isLt⟩

/-- One row of the opcode map: `pattern` is the row's match word, and `build` reads the operands. -/
structure OpRow where
  pattern : Word
  mask : Word
  build : Word → Instr

/-- Rows whose three operands are data registers. -/
def OpRow.ddd (c : DReg → DReg → DReg → Instr) (pattern : Word) : OpRow :=
  ⟨pattern, 0xFF000FFF, fun w => c (asDReg (fieldD w)) (asDReg (fieldA w)) (asDReg (fieldB w))⟩

/-- Rows whose two operands, D and A, are data registers. -/
def OpRow.dd (c : DReg → DReg → Instr) (pattern : Word) : OpRow :=
  ⟨pattern, 0xFF00FFFF, fun w => c (asDReg (fieldD w)) (asDReg (fieldA w))⟩

def systemRows : List OpRow := [⟨0x00000000, 0xFFFFFFFF, fun _ => .nop⟩]

def fieldRows : List OpRow :=
  [.ddd .fadd 0x10000000, .ddd .fsub 0x11000000, .ddd .fmul 0x12000000, .ddd .fpow 0x13000000,
   .dd .finv 0x14000000, .ddd .fdiv 0x15000000, .dd .fsqrt 0x16000000]

def pointRows : List OpRow :=
  [⟨0x20000000, 0xFF800FFF, fun w => .pset (asPReg (fieldD w)) (asDReg (fieldA w)) (asDReg (fieldB w))⟩,
   ⟨0x21000000, 0xFF8FFFFF, fun w => .pinf (asPReg (fieldD w))⟩,
   ⟨0x22000000, 0xFF8FFFFF, fun w => .pgen (asPReg (fieldD w))⟩,
   ⟨0x23000000, 0xFF88FFFF, fun w => .pmov (asPReg (fieldD w)) (asPReg (fieldA w))⟩,
   ⟨0x24000000, 0xFF08FFFF, fun w => .px (asDReg (fieldD w)) (asPReg (fieldA w))⟩,
   ⟨0x25000000, 0xFF08FFFF, fun w => .py (asDReg (fieldD w)) (asPReg (fieldA w))⟩,
   ⟨0x26000000, 0xFF88FFFF, fun w => .pneg (asPReg (fieldD w)) (asPReg (fieldA w))⟩,
   ⟨0x27000000, 0xFF888FFF, fun w => .padd (asPReg (fieldD w)) (asPReg (fieldA w)) (asPReg (fieldB w))⟩,
   ⟨0x28000000, 0xFFF88FFF, fun w => .peq (asPReg (fieldA w)) (asPReg (fieldB w))⟩,
   ⟨0x29000000, 0xFFF8FFFF, fun w => .pisinf (asPReg (fieldA w))⟩,
   ⟨0x2A000000, 0xFF80FFFF, fun w => .pdec (asPReg (fieldD w)) (asDReg (fieldA w))⟩]

def scalarRows : List OpRow :=
  [⟨0x30000000, 0xFF808FFF, fun w => .pmul (asPReg (fieldD w)) (asDReg (fieldA w)) (asPReg (fieldB w))⟩]

def aesRows : List OpRow :=
  [⟨0x40000000, 0xFFF0FFFF, fun w => .kexp (asDReg (fieldA w))⟩,
   .dd .aese 0x41000000, .dd .aesd 0x42000000, .dd .asub 0x43000000, .dd .aisub 0x44000000, .dd .ashr 0x45000000,
   .dd .aishr 0x46000000, .dd .amix 0x47000000, .dd .aimix 0x48000000,
   ⟨0x49000000, 0xFF00F0FF, fun w => .aark (asDReg (fieldD w)) (asDReg (fieldA w)) (asImm4 (fieldK w))⟩]

def moveRows : List OpRow := [.dd .mov 0x50000000, .ddd .xor 0x51000000]

/-- The opcode map of 30_encoding R104, in its order. -/
def opRows : List OpRow := systemRows ++ fieldRows ++ pointRows ++ scalarRows ++ aesRows ++ moveRows

/-- 30_encoding R106: find the row by OP, check the bits that must be 0, then AARK's K. -/
def decode (w : Word) : Except DecodeError Instr :=
  match opRows.find? (fun row => fieldOp row.pattern == fieldOp w) with
  | none => .error .unassignedOp
  | some row =>
    if w &&& row.mask ≠ row.pattern then .error .nonzeroReserved
    else if fieldOp w = 0x49 ∧ fieldK w = 15 then .error .roundNumber
    else .ok (row.build w)

/-! ### The encoder -/

/-- The word with the given OP, D, A, B and K, and Z = 0 (30_encoding R101). -/
def commandWord (op d a b k : Nat) : Word :=
  BitVec.ofNat 8 op ++ BitVec.ofNat 4 d ++ BitVec.ofNat 4 a ++ BitVec.ofNat 4 b ++ BitVec.ofNat 4 k ++ (0 : BitVec 8)

/-- The word of a well-formed command (30_encoding R104). -/
def encode : Instr → Word
  | .nop => commandWord 0x00 0 0 0 0
  | .fadd d a b => commandWord 0x10 d a b 0
  | .fsub d a b => commandWord 0x11 d a b 0
  | .fmul d a b => commandWord 0x12 d a b 0
  | .fpow d a b => commandWord 0x13 d a b 0
  | .finv d a => commandWord 0x14 d a 0 0
  | .fdiv d a b => commandWord 0x15 d a b 0
  | .fsqrt d a => commandWord 0x16 d a 0 0
  | .pset d a b => commandWord 0x20 d a b 0
  | .pinf d => commandWord 0x21 d 0 0 0
  | .pgen d => commandWord 0x22 d 0 0 0
  | .pmov d a => commandWord 0x23 d a 0 0
  | .px d a => commandWord 0x24 d a 0 0
  | .py d a => commandWord 0x25 d a 0 0
  | .pneg d a => commandWord 0x26 d a 0 0
  | .padd d a b => commandWord 0x27 d a b 0
  | .peq a b => commandWord 0x28 0 a b 0
  | .pisinf a => commandWord 0x29 0 a 0 0
  | .pdec d a => commandWord 0x2A d a 0 0
  | .pmul d a b => commandWord 0x30 d a b 0
  | .kexp a => commandWord 0x40 0 a 0 0
  | .aese d a => commandWord 0x41 d a 0 0
  | .aesd d a => commandWord 0x42 d a 0 0
  | .asub d a => commandWord 0x43 d a 0 0
  | .aisub d a => commandWord 0x44 d a 0 0
  | .ashr d a => commandWord 0x45 d a 0 0
  | .aishr d a => commandWord 0x46 d a 0 0
  | .amix d a => commandWord 0x47 d a 0 0
  | .aimix d a => commandWord 0x48 d a 0 0
  | .aark d a k => commandWord 0x49 d a 0 k
  | .mov d a => commandWord 0x50 d a 0 0
  | .xor d a b => commandWord 0x51 d a b 0

/-- The command read from an instruction whose bits are `w`, numbered as spec/opcode_table.json numbers them. A
command is one 32-bit word written in one access, so no byte order applies to it (30_encoding R100, 20_memory R78). -/
def decodeTableWord (nbits w : Nat) : Option Instr :=
  if nbits ≤ 32 then (decode (BitVec.ofNat 32 (w % 2 ^ nbits))).toOption else none

end Sys2Proof
end

