-- ==== Sys2Proof/Machine/Constants.lean ====
section
/-! DEFINITION. The fixed constants of PEK-CORE, held in read-only storage (10_state R47). Log entry 23. -/

namespace Sys2Proof.Machine

/-- The field modulus p = 2^256 − 2^32 − 977, in the hex form of 41_field R140. -/
def fieldPrime : Nat := 0xFFFFFFFFFFFFFFFFFFFFFFFFFFFFFFFFFFFFFFFFFFFFFFFFFFFFFFFEFFFFFC2F

theorem fieldPrime_pos : 0 < fieldPrime := by decide

/-- A field element: an integer v with 0 ≤ v < p (41_field R141). -/
abbrev FieldElem := Fin fieldPrime

/-- The order N of the curve (42_curve R181). -/
def groupOrder : Nat := 0xFFFFFFFFFFFFFFFFFFFFFFFFFFFFFFFEBAAEDCE6AF48A03BBFD25E8CD0364141

/-- The coordinates of the generator G (42_curve R181). -/
def generatorX : FieldElem := ⟨0x79BE667EF9DCBBAC55A06295CE870B07029BFCDB2DCE28D959F2815B16F81798, by decide⟩
def generatorY : FieldElem := ⟨0x483ADA7726A3C4655DA4FBFC0E1108A8FD17B448A68554199C47D08FFB10D4B8, by decide⟩

/-- The curve coefficients a = 0 and b = 7 (42_curve R180). -/
def curveA : Nat := 0
def curveB : Nat := 7

/-- The content of the ID register (10_state R41). -/
def idValue : Word := 0x50454B01

/-- The S-box of 44_aes R243, one 128-bit number a table row, column x0 the most significant byte. -/
def sboxRows : List (BitVec 128) :=
  [
   0x637C777BF26B6FC53001672BFED7AB76, 0xCA82C97DFA5947F0ADD4A2AF9CA472C0,
   0xB7FD9326363FF7CC34A5E5F171D83115, 0x04C723C31896059A071280E2EB27B275,
   0x09832C1A1B6E5AA0523BD6B329E32F84, 0x53D100ED20FCB15B6ACBBE394A4C58CF,
   0xD0EFAAFB434D338545F9027F503C9FA8, 0x51A3408F929D38F5BCB6DA2110FFF3D2,
   0xCD0C13EC5F974417C4A77E3D645D1973, 0x60814FDC222A908846EEB814DE5E0BDB,
   0xE0323A0A4906245CC2D3AC629195E479, 0xE7C8376D8DD54EA96C56F4EA657AAE08,
   0xBA78252E1CA6B4C6E8DD741F4BBD8B8A, 0x703EB5664803F60E613557B986C11D9E,
   0xE1F8981169D98E949B1E87E9CE5528DF, 0x8CA1890DBFE6426841992D0FB054BB16]

/-- The inverse S-box of 44_aes R244, laid out as `sboxRows`. -/
def isboxRows : List (BitVec 128) :=
  [
   0x52096AD53036A538BF40A39E81F3D7FB, 0x7CE339829B2FFF87348E4344C4DEE9CB,
   0x547B9432A6C2233DEE4C950B42FAC34E, 0x082EA16628D924B2765BA2496D8BD125,
   0x72F8F66486689816D4A45CCC5D65B692, 0x6C704850FDEDB9DA5E154657A78D9D84,
   0x90D8AB008CBCD30AF7E45805B8B34506, 0xD02C1E8FCA3F0F02C1AFBD0301138A6B,
   0x3A9111414F67DCEA97F2CFCEF0B4E673, 0x96AC7422E7AD3585E2F937E81C75DF6E,
   0x47F11A711D29C5896FB7620EAA18BE1B, 0xFC563E4BC6D279209ADBC0FE78CD5AF4,
   0x1FDDA8338807C731B11210592780EC5F, 0x60517FA919B54A0D2DE57A9F93C99CEF,
   0xA0E03B4DAE2AF5B0C8EBBB3C83539961, 0x172B047EBA77D626E169146355210C7D]

/-- Entry x of a table laid out in rows of sixteen: row x[7:4], column x[3:0]. -/
def tableEntry (rows : List (BitVec 128)) (x : Byte) : Byte :=
  (rows.getD (x.toNat / 16) 0).extractLsb' (8 * (15 - x.toNat % 16)) 8

/-- SBOX[x] (44_aes R243). -/
def sbox (x : Byte) : Byte := tableEntry sboxRows x

/-- ISBOX[x] (44_aes R244). -/
def isbox (x : Byte) : Byte := tableEntry isboxRows x

/-- RCON[1..7] (44_aes R245); the spec has no other index and none is read. -/
def rcon (i : Nat) : Byte := [0x01, 0x02, 0x04, 0x08, 0x10, 0x20, 0x40].getD (i - 1) 0

end Sys2Proof.Machine
end

