-- ==== Sys2Proof/Machine/AesMath.lean ====
section
/-! DEFINITION. AES-256 on one 16-byte lane: GF(2^8), the round transforms, key expansion, block encryption and
decryption (44_aes R240 to R259), and the byte view of a data register. -/

namespace Sys2Proof.Machine

/-- One 16-byte lane: byte r + 4c is row r, column c of the state (44_aes R242). -/
abbrev Lane := Vector Byte 16

/-- The 240 bytes of a key schedule (10_state R40). -/
abbrev Schedule := Vector Byte 240

/-- The lane whose byte i is f i. -/
def Lane.build (f : Fin 16 → Byte) : Lane :=
  #v[f 0, f 1, f 2, f 3, f 4, f 5, f 6, f 7, f 8, f 9, f 10, f 11, f 12, f 13, f 14, f 15]

/-! ### Bytes of a data register (00_scope R12) -/

/-- bytes(v)[i]: byte 0 is the most significant. -/
def byteOf (v : Data) (i : Nat) : Byte := v.extractLsb' (8 * (31 - i)) 8


/-- int(b), the sum of b[j]·256^(n−1−j) over a string of n bytes. -/
def intOfBytes : List Byte → Nat
  | [] => 0
  | b :: rest => b.toNat * 256 ^ rest.length + intOfBytes rest

/-- The two lanes, bytes 0 to 15 and 16 to 31 (44_aes R241). -/
def lane0 (v : Data) : Lane := .build fun i => byteOf v i.val
def lane1 (v : Data) : Lane := .build fun i => byteOf v (16 + i.val)

/-- a ‖ b as a data register value (00_scope R13). -/
def joinLanes (a b : Lane) : Data := BitVec.ofNat 256 (intOfBytes (a.toList ++ b.toList))

/-- A lane transform applied to each lane independently (44_aes R241). -/
def onLanes (f : Lane → Lane) (v : Data) : Data := joinLanes (f (lane0 v)) (f (lane1 v))

/-! ### GF(2^8) (44_aes R247) -/

/-- Multiplication by x: the bit 7 tested is that of the byte before the shift (90_conflicts C5). -/
def xtime (b : Byte) : Byte := (b <<< 1) ^^^ (if b.getLsbD 7 then 0x1B else 0)

/-- xtime applied i times. -/
def xtimeN : Nat → Byte → Byte
  | 0, b => b
  | i + 1, b => xtime (xtimeN i b)

/-- The exclusive-or of xtime^i(a) over the bits i of m that are 1. -/
def gmul (a m : Byte) : Byte :=
  (List.range 8).foldl (fun acc i => if m.getLsbD i then acc ^^^ xtimeN i a else acc) 0

/-! ### Round transforms -/

/-- 44_aes R251. -/
def subBytes (s : Lane) : Lane := .build fun i => sbox s[i]

/-- 44_aes R252. -/
def invSubBytes (s : Lane) : Lane := .build fun i => isbox s[i]

/-- 44_aes R253: o[r + 4c] = s[r + 4((c + r) mod 4)]; index i is row i mod 4, column i / 4. -/
def shiftRows (s : Lane) : Lane :=
  .build fun i => s[i.val % 4 + 4 * ((i.val / 4 + i.val % 4) % 4)]

/-- 44_aes R254: o[r + 4c] = s[r + 4((c − r) mod 4)]. -/
def invShiftRows (s : Lane) : Lane :=
  .build fun i => s[i.val % 4 + 4 * ((i.val / 4 + 4 - i.val % 4) % 4)]

/-- Byte r of MixColumns on the column a0..a3 (44_aes R255). -/
def mixByte (a0 a1 a2 a3 : Byte) : Nat → Byte
  | 0 => gmul a0 2 ^^^ gmul a1 3 ^^^ a2 ^^^ a3
  | 1 => a0 ^^^ gmul a1 2 ^^^ gmul a2 3 ^^^ a3
  | 2 => a0 ^^^ a1 ^^^ gmul a2 2 ^^^ gmul a3 3
  | _ => gmul a0 3 ^^^ a1 ^^^ a2 ^^^ gmul a3 2

/-- Byte r of InvMixColumns on the column a0..a3 (44_aes R256). -/
def invMixByte (a0 a1 a2 a3 : Byte) : Nat → Byte
  | 0 => gmul a0 14 ^^^ gmul a1 11 ^^^ gmul a2 13 ^^^ gmul a3 9
  | 1 => gmul a0 9 ^^^ gmul a1 14 ^^^ gmul a2 11 ^^^ gmul a3 13
  | 2 => gmul a0 13 ^^^ gmul a1 9 ^^^ gmul a2 14 ^^^ gmul a3 11
  | _ => gmul a0 11 ^^^ gmul a1 13 ^^^ gmul a2 9 ^^^ gmul a3 14

/-- A column function applied to each of the four columns of a lane (44_aes R242). -/
def onColumns (f : Byte → Byte → Byte → Byte → Nat → Byte) (s : Lane) : Lane :=
  .build fun i =>
    let c := i.val / 4
    f s[4 * c] s[4 * c + 1] s[4 * c + 2] s[4 * c + 3] (i.val % 4)

/-- 44_aes R255. -/
def mixColumns (s : Lane) : Lane := onColumns mixByte s

/-- 44_aes R256. -/
def invMixColumns (s : Lane) : Lane := onColumns invMixByte s

/-- RK(k) = KS[16k .. 16k+15] (44_aes R248). -/
def roundKey (ks : Schedule) (k : Fin 15) : Lane := .build fun i => ks[16 * k.val + i.val]

/-- AddRoundKey with round k (44_aes R259). -/
def addRoundKey (ks : Schedule) (k : Fin 15) (s : Lane) : Lane :=
  .build fun i => s[i.val] ^^^ (roundKey ks k)[i.val]

/-! ### Key expansion (44_aes R249) -/

/-- A 4-byte group t[0..3]. -/
structure Quad where
  t0 : Byte
  t1 : Byte
  t2 : Byte
  t3 : Byte
  deriving DecidableEq, Repr

/-- Rotate left by one byte. -/
def Quad.rotate (t : Quad) : Quad := ⟨t.t1, t.t2, t.t3, t.t0⟩

/-- Each byte through the S-box. -/
def Quad.sub (t : Quad) : Quad := ⟨sbox t.t0, sbox t.t1, sbox t.t2, sbox t.t3⟩

/-- Bytewise exclusive-or. -/
def Quad.xor (s t : Quad) : Quad := ⟨s.t0 ^^^ t.t0, s.t1 ^^^ t.t1, s.t2 ^^^ t.t2, s.t3 ^^^ t.t3⟩

def Quad.toList (t : Quad) : List Byte := [t.t0, t.t1, t.t2, t.t3]

/-- What the group at byte offset i XORs with the group 32 bytes earlier: the last group, transformed at a 32-byte
boundary (with round constant i / 32, since the index starts at 1 and steps at each boundary) and at the 16-byte
sub-boundary. -/
def scheduleCore (i : Nat) (t : Quad) : Quad :=
  if i % 32 = 0 then (t.rotate.sub).xor ⟨rcon (i / 32), 0, 0, 0⟩
  else if i % 32 = 16 then t.sub
  else t

/-- Add n groups, the first at byte offset i, to the groups so far, newest first: the head is the last group and
the group 32 bytes earlier is the eighth. -/
def expandGroups : Nat → Nat → List Quad → List Quad
  | 0, _, gs => gs
  | n + 1, i, gs =>
    let fresh := (gs.getD 7 ⟨0, 0, 0, 0⟩).xor (scheduleCore i (gs.headD ⟨0, 0, 0, 0⟩))
    expandGroups n (i + 4) (fresh :: gs)

theorem expandGroups_length (n i : Nat) (gs : List Quad) :
    (expandGroups n i gs).length = n + gs.length := by
  induction n generalizing i gs with
  | zero => simp [expandGroups]
  | succ n ih => simp [expandGroups, ih]; omega

/-- The group of key bytes 4j .. 4j+3. -/
def keyGroup (key : Data) (j : Nat) : Quad :=
  ⟨byteOf key (4 * j), byteOf key (4 * j + 1), byteOf key (4 * j + 2), byteOf key (4 * j + 3)⟩

/-- The eight groups of a key, newest (last) first. -/
def keyGroups (key : Data) : List Quad := [7, 6, 5, 4, 3, 2, 1, 0].map (keyGroup key)

theorem flatMap_quad_length (gs : List Quad) : (gs.flatMap Quad.toList).length = 4 * gs.length := by
  induction gs with
  | nil => rfl
  | cons g gs ih => simp [Quad.toList, ih]; omega

/-- expand(bytes(key)) (44_aes R249): the 8 groups of the key and 52 more, for i = 32, 36, ..., 236. -/
def expandKey (key : Data) : Schedule :=
  ⟨((expandGroups 52 32 (keyGroups key)).reverse.flatMap Quad.toList).toArray, by
    rw [List.size_toArray, flatMap_quad_length, List.length_reverse, expandGroups_length]; rfl⟩

/-! ### Blocks -/

/-- Round k of EncryptBlock for 1 ≤ k ≤ 13. -/
def encryptRound (ks : Schedule) (s : Lane) (k : Fin 15) : Lane :=
  addRoundKey ks k (mixColumns (shiftRows (subBytes s)))

/-- EncryptBlock (44_aes R257). -/
def encryptBlock (ks : Schedule) (s : Lane) : Lane :=
  let s := addRoundKey ks 0 s
  let s := ([1, 2, 3, 4, 5, 6, 7, 8, 9, 10, 11, 12, 13] : List (Fin 15)).foldl (encryptRound ks) s
  addRoundKey ks 14 (shiftRows (subBytes s))

/-- Round k of DecryptBlock for 13 ≥ k ≥ 1. -/
def decryptRound (ks : Schedule) (s : Lane) (k : Fin 15) : Lane :=
  invSubBytes (invShiftRows (invMixColumns (addRoundKey ks k s)))

/-- DecryptBlock (44_aes R258). -/
def decryptBlock (ks : Schedule) (s : Lane) : Lane :=
  let s := addRoundKey ks 14 s
  let s := invSubBytes (invShiftRows s)
  let s := ([13, 12, 11, 10, 9, 8, 7, 6, 5, 4, 3, 2, 1] : List (Fin 15)).foldl (decryptRound ks) s
  addRoundKey ks 0 s

end Sys2Proof.Machine
end

