-- ==== Sys2Proof/Config.lean ====
section
/-! DEFINITION. The parameters of PEK-CORE that the spec leaves open (00_scope R10) and the free values.
An opaque constant has no body a proof can use: a statement about it holds for every value. -/

namespace Sys2Proof

/-- BASE / 4096, open (20_memory R70: BASE is "a multiple of 4096" that the platform fixes; U16). -/
opaque Config.basePage : Nat

/-- BASE, the bus address of the register window (20_memory R70). -/
def Config.base : Nat := 4096 * Config.basePage

/-- IRQ_LINE, the platform interrupt that the IRQ output drives, open (00_scope R10, U17). -/
opaque Config.irqLine : Nat

/-- The value that the n-th undefined host read returns (20_memory R73, R74: "any 32-bit value", drawn freely,
two such reads need not agree; U7 to U9). Log entry 6. -/
opaque Config.freeWord : Nat → Word

/-- What PADD gives for operands (x, y1), (x, y2) that meet none of the cases of 42_curve R194; no register that
holds a curve point reaches it. Log entry 12. -/
opaque Config.paddUncovered : Nat → Nat → Nat → Nat × Nat

/-- ZERO_POW_ZERO, the FPOW result for base 0 and exponent 0, value 1 (41_field R151, 00_scope R10, U18).
Log entry 11. -/
def Config.zeroPowZero : Nat := 1

end Sys2Proof
end

