-- ==== Sys2Proof/Machine/FieldMath.lean ====
section
/-! DEFINITION. Arithmetic in GF(p) (41_field): the values the field unit and the point engine compute. Sums,
differences and products are formed on unbounded integers and reduced once (00_scope R13, 41_field R149). -/

namespace Sys2Proof.Machine

/-- z mod p, the least non-negative residue (00_scope R13). -/
def residue (z : Int) : FieldElem :=
  ⟨(z % (fieldPrime : Int)).toNat, by
    have hp : (0 : Int) < (fieldPrime : Int) := by exact_mod_cast fieldPrime_pos
    have := Int.emod_lt_of_pos z hp
    have := Int.emod_nonneg z hp.ne'
    omega⟩

/-- `powMod m n b e` is b^e mod m for e < 2^n, by squaring, least significant exponent bit first. The equation with
b^e mod m is `powMod_eq` (Laws/Prime.lean). Log entry 18. -/
def powMod (m : Nat) : Nat → Nat → Nat → Nat
  | 0, _, _ => 1 % m
  | n + 1, b, e =>
    let rest := powMod m n (b * b % m) (e / 2)
    if e % 2 = 1 then b * rest % m else rest

/-- 41_field R145. -/
def feAdd (x y : FieldElem) : FieldElem := residue (x.val + y.val)

/-- 41_field R146. -/
def feSub (x y : FieldElem) : FieldElem := residue (x.val - y.val)

/-- 41_field R147. -/
def feMul (x y : FieldElem) : FieldElem := residue (x.val * y.val)

/-- x^e mod p for e < 2^256 (41_field R150), the exponents of the inverse and of the square root among them. -/
def fePow (x : FieldElem) (e : Nat) : FieldElem := residue (powMod fieldPrime 256 x.val e)

/-- The value FPOW writes: as `fePow`, with 0^0 the parameter ZERO_POW_ZERO (41_field R150, R151). -/
def fePowParam (x : FieldElem) (e : Nat) : FieldElem :=
  if x.val = 0 ∧ e = 0 then residue Config.zeroPowZero else fePow x e

/-- finv: a^(p−2) mod p (41_field R152, 00_scope R19). -/
def feInv (x : FieldElem) : FieldElem := fePow x (fieldPrime - 2)

/-- 41_field R154. -/
def feDiv (x y : FieldElem) : FieldElem := feMul x (feInv y)

/-- fsqrt: a^((p+1)/4) mod p (41_field R156, 00_scope R19). -/
def feSqrt (x : FieldElem) : FieldElem := fePow x ((fieldPrime + 1) / 4)

/-- The 32 bytes of a field element, most significant first, as a data register value (41_field R141). -/
def FieldElem.toData (x : FieldElem) : Data := BitVec.ofNat 256 x.val

end Sys2Proof.Machine
end

