-- ==== Sys2Proof/Machine/State.lean ====
section
/-! DEFINITION. The architectural state of PEK-CORE (10_state), the inputs from outside, the reasons a run stops,
and the state after reset. -/

namespace Sys2Proof.Machine

/-- The value of a point register: the point at infinity or an affine pair (10_state R34). -/
inductive Point where
  | inf
  | affine (x y : FieldElem)
  deriving DecidableEq, Repr

/-- The error codes of STATUS.ECODE (60_exceptions R320). Codes 8 to 15 are never produced, so they have no name. -/
inductive ErrCode where
  | none
  | illegal
  | uninit
  | range
  | div0
  | curve
  | inf
  | nokey
  deriving DecidableEq, Repr

/-- One access of the host to the register window: the offset from BASE, the width in bytes, and for a write the
word written (00_scope R18, 20_memory R70). Widths other than 4 and offsets that are no multiple of 4 can be
attempted; the machine refuses them (20_memory R79). -/
inductive HostAccess where
  | read (offset width : Nat)
  | write (offset width : Nat) (value : Word)
  deriving DecidableEq, Repr

/-- One move of the system: the host performs an access, the command engine has its turn, or the reset input is
released (20_memory R83: every execution is an interleaving of host accesses and completions; 70_reset R360).
Log entry 4. -/
inductive Event where
  | host (a : HostAccess)
  | engine
  | resetInput
  deriving DecidableEq, Repr

/-- The state. BUSY is not a field: it is `inflight ≠ none` (60_exceptions R330, R331; log entry 16). -/
structure State where
  /-- R0 to R15 (10_state R31). -/
  r : Vector Data 16
  /-- The word-valid bits V[i][j] (10_state R31). -/
  v : Vector (Vector Bool 8) 16
  /-- P0 to P7 (10_state R34). -/
  p : Vector Point 8
  /-- The point-valid bits PV[i] (10_state R34). -/
  pv : Vector Bool 8
  /-- The key schedule KS[0..239] (10_state R40). -/
  ks : Vector Byte 240
  /-- STATUS.KSV (10_state R39). -/
  ksv : Bool
  /-- STATUS.EQ (10_state R38). -/
  eqFlag : Bool
  /-- CTRL.IRQEN (10_state R42). -/
  irqen : Bool
  /-- STATUS.DONE (10_state R43). -/
  done : Bool
  /-- STATUS.ERR (10_state R43). -/
  err : Bool
  /-- STATUS.OVR (10_state R43). -/
  ovr : Bool
  /-- STATUS.ECODE (10_state R43, 60_exceptions R320). -/
  ecode : ErrCode
  /-- CMD_LAST (10_state R44). -/
  cmdLast : Word
  /-- CMDCNT (10_state R45). -/
  cmdCnt : Word
  /-- The command in flight (10_state R46). -/
  inflight : Option Word
  /-- The model's own: the moves still to come, the first one next (log entry 4). -/
  input : List Event
  /-- The model's own: the words that host reads have returned, newest first (log entry 7). -/
  replies : List Word
  /-- The model's own: how many free values have been drawn (log entry 6). -/
  freeCount : Nat
  deriving DecidableEq, Repr

/-- Why the machine stops with a fault. -/
inductive Fault where
  /-- A host access at an offset of 4096 or more: outside the one address space the spec gives (20_memory R70).
  Raised by a host access, never by a command. Safe: the run stops (log entry 9). -/
  | outsideWindow (offset : Nat)
  deriving DecidableEq, Repr

/-- Why the machine has no meaning for what it is asked to do. -/
inductive Refusal where
  /-- A command the model has no meaning for. Safe. Raised by no arm of `exec`: every command has its meaning. -/
  | notModelled (mnemonic : String)
  /-- A host access that is not an aligned 32-bit access: "A model refuses such an access" (20_memory R79, U11).
  Raised by a host access, never by a command. Safe: the run stops (log entry 10). -/
  | badAccess (offset width : Nat)
  deriving DecidableEq, Repr

/-- The state after reset (10_state R48, 70_reset R362). Register contents, which the spec leaves unspecified,
are zero or INF: DESIGN CHOICE (log entries 1 to 3). -/
def State.reset : State where
  r := Vector.replicate 16 0
  v := Vector.replicate 16 (Vector.replicate 8 false)
  p := Vector.replicate 8 .inf
  pv := Vector.replicate 8 false
  ks := Vector.replicate 240 0
  ksv := false
  eqFlag := false
  irqen := false
  done := false
  err := false
  ovr := false
  ecode := .none
  cmdLast := 0
  cmdCnt := 0
  inflight := none
  input := []
  replies := []
  freeCount := 0

end Sys2Proof.Machine
end

