-- ==== Sys2Proof/Machine/Ops.lean ====
section
/-! DEFINITION. The named operations on the state: register words, result writes, acceptance, completion, error
recording, drops, reset, and the replies to host reads. -/

namespace Sys2Proof.Machine

/-- What one step answers. -/
abbrev Out := Host.Outcome State Fault Refusal

/-! ### Words of a data register (10_state R32) -/

/-- Word j of a 256-bit value: word 0 is the most significant. -/
def wordOf (d : Data) (j : Nat) : Word := d.extractLsb' (32 * (7 - j)) 32

/-- The value with word j replaced by w. -/
def setWord (d : Data) (j : Nat) (w : Word) : Data :=
  (d &&& ~~~((0xFFFFFFFF : Data) <<< (32 * (7 - j)))) ||| (w.setWidth 256 <<< (32 * (7 - j)))

/-- The eight word-valid bits of a register that is valid (10_state R31). -/
def allValid : Vector Bool 8 := Vector.replicate 8 true

namespace State

/-- STATUS.BUSY: 1 from the acceptance of a command to its completion (10_state R43, 60_exceptions R330, R331). -/
def busy (s : State) : Bool := s.inflight.isSome

/-- valid(R[i]): all eight words have been written since reset (00_scope R16). -/
def dataValid (s : State) (i : DReg) : Bool := s.v[i] == allValid

/-! ### Results of commands (45_data_system R301) -/

/-- R[d] <- x: all 256 bits, and all eight V[d][j] become 1. -/
def writeData (s : State) (d : DReg) (x : Data) : State := { s with r := s.r.set d x, v := s.v.set d allValid }

/-- P[d] <- q, and PV[d] becomes 1. -/
def writePoint (s : State) (d : PReg) (q : Point) : State := { s with p := s.p.set d q, pv := s.pv.set d true }

/-- KS[0..239] <- k and KSV <- 1 (44_aes R250). -/
def writeSchedule (s : State) (k : Schedule) : State := { s with ks := k, ksv := true }

/-! ### Acceptance, completion, errors (60_exceptions) -/

/-- R330: what the acceptance of the command word w changes. -/
def accept (s : State) (w : Word) : State :=
  { s with cmdLast := w, cmdCnt := s.cmdCnt + 1, done := false, inflight := some w }

/-- R331: the bookkeeping of every completion. -/
def complete (s : State) : State := { s with inflight := none, done := true }

/-- R324, R331: recording the error c of a command that fails. -/
def recordError (s : State) (c : ErrCode) : State := { s with err := true, ecode := c }

/-- R332: a host write is dropped. -/
def dropWrite (s : State) : State := { s with ovr := true }

/-- Taking an error, PEK-CORE's one form of exception (60_exceptions R324, R334): the error is recorded, the command
completes, and nothing else changes. -/
def failCommand (s : State) (c : ErrCode) : State := (s.recordError c).complete

/-- R337: the host clears the error, the return from it. -/
def clearError (s : State) : State := { s with err := false, ecode := .none }

/-- 70_reset R360: a reset, hard or soft. The model's own fields are no state of the unit. Log entry 21. -/
def resetUnit (s : State) : State :=
  { State.reset with input := s.input, replies := s.replies, freeCount := s.freeCount }

/-! ### Replies to host reads -/

/-- The host read returns w. -/
def reply (s : State) (w : Word) : State := { s with replies := w :: s.replies }

/-- The host read returns any value (20_memory R73, R74): the next free value. -/
def replyAny (s : State) : State :=
  { s with replies := Config.freeWord s.freeCount :: s.replies, freeCount := s.freeCount + 1 }

end State

/-- The end of a command (60_exceptions R331): `exec(w, S)` is Ok, here the state with the results written, or
Error(code). -/
def retire (s : State) : Except ErrCode State → Out
  | .ok t => .next t.complete
  | .error c => .next (s.failCommand c)

end Sys2Proof.Machine
end

