-- ==== Sys2Proof/Machine/Operands.lean ====
section
/-! DEFINITION. Reading the operands of a command and the checks on them, in the order of 60_exceptions R322:
UNINIT (A before B), NOKEY, RANGE (A before B). -/

namespace Sys2Proof.Machine

/-- need(R[a]) and its value (00_scope R16). -/
def needData (s : State) (a : DReg) : Except ErrCode Data :=
  if s.dataValid a then .ok s.r[a] else .error .uninit

/-- need(P[a]) and its value (00_scope R16). -/
def needPoint (s : State) (a : PReg) : Except ErrCode Point :=
  if s.pv[a] then .ok s.p[a] else .error .uninit

/-- need_canon: the value as a field element (00_scope R19, 41_field R142). -/
def needCanon (v : Data) : Except ErrCode FieldElem :=
  if h : v.toNat < fieldPrime then .ok ⟨v.toNat, h⟩ else .error .range

/-- The key schedule, if it holds an expansion (44_aes R263). -/
def needKey (s : State) : Except ErrCode Schedule :=
  if s.ksv then .ok s.ks else .error .nokey

/-- Two data registers, A before B. -/
def needData2 (s : State) (a b : DReg) : Except ErrCode (Data × Data) := do
  let x ← needData s a
  let y ← needData s b
  return (x, y)

/-- Two point registers, A before B (42_curve R182). -/
def needPoint2 (s : State) (a b : PReg) : Except ErrCode (Point × Point) := do
  let x ← needPoint s a
  let y ← needPoint s b
  return (x, y)

/-- One field element (41_field R143). -/
def needElem (s : State) (a : DReg) : Except ErrCode FieldElem := do
  needCanon (← needData s a)

/-- Two field elements: both validity checks come before either range check (41_field R143). -/
def needElem2 (s : State) (a b : DReg) : Except ErrCode (FieldElem × FieldElem) := do
  let (v, w) ← needData2 s a b
  let x ← needCanon v
  let y ← needCanon w
  return (x, y)

/-- A data register and then the key schedule (44_aes R263). -/
def needDataKey (s : State) (a : DReg) : Except ErrCode (Data × Schedule) := do
  let x ← needData s a
  let k ← needKey s
  return (x, k)

/-- The affine pair of a point, or the error INF (42_curve R187, R190). -/
def needAffine : Point → Except ErrCode (FieldElem × FieldElem)
  | .inf => .error .inf
  | .affine x y => .ok (x, y)

end Sys2Proof.Machine
end

