-- ==== Sys2Proof/Machine/Aes.lean ====
section
/-! DEFINITION. The AES-256 key scheduler and round-transform unit (44_aes). -/

namespace Sys2Proof.Machine

/-- The commands that apply one key-free transform to both lanes (44_aes R241, R272 to R277). -/
def laneCommand (f : Lane → Lane) (d a : DReg) (s : State) : Out := retire s do
  let v ← needData s a
  return s.writeData d (onLanes f v)

/-- The commands that apply a transform under the key schedule to both lanes (44_aes R270, R271, R278). -/
def keyedLaneCommand (f : Schedule → Lane → Lane) (d a : DReg) (s : State) : Out := retire s do
  let (v, k) ← needDataKey s a
  return s.writeData d (onLanes (f k) v)

/-- KEXP (44_aes R250). -/
def execKexp (a : DReg) (s : State) : Out := retire s do
  let key ← needData s a
  return s.writeSchedule (expandKey key)

/-- AESE (44_aes R270). -/
def execAese (d a : DReg) (s : State) : Out := keyedLaneCommand encryptBlock d a s

/-- AESD (44_aes R271). -/
def execAesd (d a : DReg) (s : State) : Out := keyedLaneCommand decryptBlock d a s

/-- ASUB (44_aes R272). -/
def execAsub (d a : DReg) (s : State) : Out := laneCommand subBytes d a s

/-- AISUB (44_aes R273). -/
def execAisub (d a : DReg) (s : State) : Out := laneCommand invSubBytes d a s

/-- ASHR (44_aes R274). -/
def execAshr (d a : DReg) (s : State) : Out := laneCommand shiftRows d a s

/-- AISHR (44_aes R275). -/
def execAishr (d a : DReg) (s : State) : Out := laneCommand invShiftRows d a s

/-- AMIX (44_aes R276). -/
def execAmix (d a : DReg) (s : State) : Out := laneCommand mixColumns d a s

/-- AIMIX (44_aes R277). -/
def execAimix (d a : DReg) (s : State) : Out := laneCommand invMixColumns d a s

/-- AARK (44_aes R278). K = 15 is ILLEGAL before any other check; the decoder never hands it on (log entry 13). -/
def execAark (d a : DReg) (k : Imm4) (s : State) : Out :=
  if h : k.val < 15 then keyedLaneCommand (fun ks => addRoundKey ks ⟨k.val, h⟩) d a s
  else retire s (.error .illegal)

end Sys2Proof.Machine
end

