-- ==== Sys2Proof/Machine/CurveMath.lean ====
section
/-! DEFINITION. Affine secp256k1 arithmetic (42_curve, 43_scalar). -/

namespace Sys2Proof.Machine

/-- x^3 + a·x + b mod p, the right side of the curve equation (42_curve R180). -/
def curveRhs (x : FieldElem) : FieldElem := residue (x.val * x.val * x.val + curveA * x.val + curveB)

/-- (y^2 − x^3 − 7) mod p = 0 (42_curve R180, 00_scope R19). -/
def onCurve (x y : FieldElem) : Bool := feMul y y == curveRhs x

/-- The generator G (42_curve R181). -/
def generator : Point := .affine generatorX generatorY

/-- 42_curve R191. -/
def pointNeg : Point → Point
  | .inf => .inf
  | .affine x y => .affine x (residue (fieldPrime - y.val))

/-- The third point of the chord or tangent of slope s: x3 and y3 of 42_curve R194. -/
def thirdPoint (s x1 y1 x2 : FieldElem) : Point :=
  let x3 := residue (s.val * s.val - x1.val - x2.val)
  .affine x3 (residue (s.val * (x1.val - x3.val) - y1.val))

/-- The chord slope of 42_curve R194 case 4. -/
def chordSlope (x1 y1 x2 y2 : FieldElem) : FieldElem :=
  residue ((y2.val - y1.val) * (feInv (residue (x2.val - x1.val))).val)

/-- The tangent slope of 42_curve R194 case 6. -/
def tangentSlope (x1 y1 : FieldElem) : FieldElem :=
  residue ((3 * (x1.val * x1.val) + curveA) * (feInv (residue (2 * y1.val))).val)

/-- Point addition, the cases of 42_curve R194 in order. The last line is reached only by a pair with equal x and
y1 ≠ ±y2, which no two curve points are: a free value (log entry 12). -/
def pointAdd : Point → Point → Point
  | .inf, b => b
  | a, .inf => a
  | .affine x1 y1, .affine x2 y2 =>
    if x1 = x2 ∧ (y1.val + y2.val) % fieldPrime = 0 then .inf
    else if x1 ≠ x2 then thirdPoint (chordSlope x1 y1 x2 y2) x1 y1 x2
    else if y1 = y2 ∧ y1.val = 0 then .inf
    else if y1 = y2 then thirdPoint (tangentSlope x1 y1) x1 y1 x2
    else
      let free := Config.paddUncovered x1.val y1.val y2.val
      .affine (residue free.1) (residue free.2)

/-- The loop of 43_scalar R221 over at most n scalar bits, least significant first: `q` is the addend Q and `s` the
accumulator S. It stops when the remaining k is 0, which R221 says gives the same S. Log entry 17. -/
def scalarLoop : Nat → Nat → Point → Point → Point
  | 0, _, _, s => s
  | n + 1, k, q, s =>
    if k = 0 then s
    else scalarLoop n (k / 2) (pointAdd q q) (if k % 2 = 1 then pointAdd s q else s)

/-- (k mod N)·Q (43_scalar R221). -/
def scalarMul (k : Nat) (q : Point) : Point := scalarLoop 256 (k % groupOrder) q .inf

/-- Decompression (42_curve R197): the principal root of x^3 + 7, or none when it is no root. -/
def decompress (x : FieldElem) : Option Point :=
  let c := curveRhs x
  let y := feSqrt c
  if feMul y y ≠ c then none else some (.affine x y)

end Sys2Proof.Machine
end

