-- ==== Sys2Proof/Machine/Flags.lean ====
section
/-! DEFINITION. The flag EQ, the STATUS and CTRL words, and the interrupt output. -/

namespace Sys2Proof.Machine

/-- The four-bit code of an error (60_exceptions R320). -/
def ErrCode.toBits : ErrCode → BitVec 4
  | .none => 0
  | .illegal => 1
  | .uninit => 2
  | .range => 3
  | .div0 => 4
  | .curve => 5
  | .inf => 6
  | .nokey => 7

namespace State

/-- EQ <- b (10_state R38). -/
def writeEq (s : State) (b : Bool) : State := { s with eqFlag := b }

/-- The STATUS word (10_state R43), bit 31 first: reserved, ECODE 11:8, reserved 7:6, KSV, EQ, OVR, ERR, DONE, BUSY. -/
def statusWord (s : State) : Word :=
  (0 : BitVec 20) ++ s.ecode.toBits ++ (0 : BitVec 2) ++ BitVec.ofBool s.ksv ++ BitVec.ofBool s.eqFlag ++
    BitVec.ofBool s.ovr ++ BitVec.ofBool s.err ++ BitVec.ofBool s.done ++ BitVec.ofBool s.busy

/-- The CTRL word as read: IRQEN at bit 1, SRST and the reserved bits 0 (10_state R42). -/
def ctrlWord (s : State) : Word := (0 : BitVec 30) ++ BitVec.ofBool s.irqen ++ (0 : BitVec 1)

/-- A host write of w to STATUS: DONE, ERR (with ECODE) and OVR are cleared where w has a 1 (10_state R43). -/
def writeStatus (s : State) (w : Word) : State :=
  let s := if w.getLsbD 1 then { s with done := false } else s
  let s := if w.getLsbD 2 then s.clearError else s
  if w.getLsbD 3 then { s with ovr := false } else s

/-- A host write of w to CTRL: with SRST = 1 only the reset, else IRQEN <- w[1] (10_state R42, 70_reset R360). -/
def writeCtrl (s : State) (w : Word) : State :=
  if w.getLsbD 0 then s.resetUnit else { s with irqen := w.getLsbD 1 }

/-- IRQ = CTRL.IRQEN ∧ STATUS.DONE (60_exceptions R335). -/
def irq (s : State) : Bool := s.irqen && s.done

/-- The platform interrupt line that the IRQ output drives, and its level (60_exceptions R335, 00_scope R10). -/
def platformIrq (s : State) : Nat × Bool := (Config.irqLine, s.irq)

end State

end Sys2Proof.Machine
end

