-- ==== Sys2Proof/Machine/Curve.lean ====
section
/-! DEFINITION. The point engine (42_curve). -/

namespace Sys2Proof.Machine

/-- PSET (42_curve R183). -/
def execPset (d : PReg) (a b : DReg) (s : State) : Out := retire s do
  let (x, y) ← needElem2 s a b
  if onCurve x y then return s.writePoint d (.affine x y) else throw .curve

/-- PINF (42_curve R184). -/
def execPinf (d : PReg) (s : State) : Out := retire s (.ok (s.writePoint d .inf))

/-- PGEN (42_curve R185). -/
def execPgen (d : PReg) (s : State) : Out := retire s (.ok (s.writePoint d generator))

/-- PMOV (42_curve R186). -/
def execPmov (d a : PReg) (s : State) : Out := retire s do
  let q ← needPoint s a
  return s.writePoint d q

/-- PX (42_curve R187, R190). -/
def execPx (d : DReg) (a : PReg) (s : State) : Out := retire s do
  let q ← needPoint s a
  let (x, _) ← needAffine q
  return s.writeData d x.toData

/-- PY (42_curve R188, R190). -/
def execPy (d : DReg) (a : PReg) (s : State) : Out := retire s do
  let q ← needPoint s a
  let (_, y) ← needAffine q
  return s.writeData d y.toData

/-- PNEG (42_curve R191). -/
def execPneg (d a : PReg) (s : State) : Out := retire s do
  let q ← needPoint s a
  return s.writePoint d (pointNeg q)

/-- PADD (42_curve R194). -/
def execPadd (d a b : PReg) (s : State) : Out := retire s do
  let (q, t) ← needPoint2 s a b
  return s.writePoint d (pointAdd q t)

/-- PEQ (42_curve R195). -/
def execPeq (a b : PReg) (s : State) : Out := retire s do
  let (q, t) ← needPoint2 s a b
  return s.writeEq (q == t)

/-- PISINF (42_curve R196). -/
def execPisinf (a : PReg) (s : State) : Out := retire s do
  let q ← needPoint s a
  return s.writeEq (q == .inf)

/-- PDEC (42_curve R197). -/
def execPdec (d : PReg) (a : DReg) (s : State) : Out := retire s do
  let x ← needElem s a
  match decompress x with
  | some q => return s.writePoint d q
  | none => throw .curve

end Sys2Proof.Machine
end

