-- ==== Sys2Proof/Machine/DataMove.lean ====
section
/-! DEFINITION. NOP, MOV and XOR (45_data_system). -/

namespace Sys2Proof.Machine

/-- NOP (45_data_system R303). -/
def execNop (s : State) : Out := retire s (.ok s)

/-- MOV (45_data_system R304). -/
def execMov (d a : DReg) (s : State) : Out := retire s do
  let v ← needData s a
  return s.writeData d v

/-- XOR (45_data_system R305). -/
def execXor (d a b : DReg) (s : State) : Out := retire s do
  let (v, w) ← needData2 s a b
  return s.writeData d (v ^^^ w)

end Sys2Proof.Machine
end

