-- ==== Sys2Proof/Machine/Field.lean ====
section
/-! DEFINITION. The field-arithmetic unit (41_field). -/

namespace Sys2Proof.Machine

/-- FADD (41_field R145). -/
def execFadd (d a b : DReg) (s : State) : Out := retire s do
  let (x, y) ← needElem2 s a b
  return s.writeData d (feAdd x y).toData

/-- FSUB (41_field R146). -/
def execFsub (d a b : DReg) (s : State) : Out := retire s do
  let (x, y) ← needElem2 s a b
  return s.writeData d (feSub x y).toData

/-- FMUL (41_field R147). -/
def execFmul (d a b : DReg) (s : State) : Out := retire s do
  let (x, y) ← needElem2 s a b
  return s.writeData d (feMul x y).toData

/-- FPOW (41_field R150, R151): the exponent is any 256-bit integer, and only the base is checked. -/
def execFpow (d a b : DReg) (s : State) : Out := retire s do
  let (v, e) ← needData2 s a b
  let x ← needCanon v
  return s.writeData d (fePowParam x e.toNat).toData

/-- FINV (41_field R152, R153). -/
def execFinv (d a : DReg) (s : State) : Out := retire s do
  let x ← needElem s a
  if x.val = 0 then throw .div0
  return s.writeData d (feInv x).toData

/-- FDIV (41_field R154). -/
def execFdiv (d a b : DReg) (s : State) : Out := retire s do
  let (x, y) ← needElem2 s a b
  if y.val = 0 then throw .div0
  return s.writeData d (feDiv x y).toData

/-- FSQRT (41_field R156): the formula's value, whether or not it is a root. -/
def execFsqrt (d a : DReg) (s : State) : Out := retire s do
  let x ← needElem s a
  return s.writeData d (feSqrt x).toData

end Sys2Proof.Machine
end

