-- ==== Sys2Proof/Machine/Scalar.lean ====
section
/-! DEFINITION. The scalar-multiplication pipeline (43_scalar). -/

namespace Sys2Proof.Machine

/-- PMUL (43_scalar R221): the scalar register is checked before the point register. -/
def execPmul (d : PReg) (a : DReg) (b : PReg) (s : State) : Out := retire s do
  let k ← needData s a
  let q ← needPoint s b
  return s.writePoint d (scalarMul k.toNat q)

end Sys2Proof.Machine
end

