-- ==== Sys2Proof/Machine/Dispatch.lean ====
section
/-! DEFINITION. The meaning of each command: its completion (60_exceptions R331). -/

namespace Sys2Proof.Machine

def exec (i : Instr) (s : State) : Host.Outcome State Fault Refusal :=
  match i with
  | .nop => Sys2Proof.Machine.execNop s
  | .fadd d a b => Sys2Proof.Machine.execFadd d a b s
  | .fsub d a b => Sys2Proof.Machine.execFsub d a b s
  | .fmul d a b => Sys2Proof.Machine.execFmul d a b s
  | .fpow d a b => Sys2Proof.Machine.execFpow d a b s
  | .finv d a => Sys2Proof.Machine.execFinv d a s
  | .fdiv d a b => Sys2Proof.Machine.execFdiv d a b s
  | .fsqrt d a => Sys2Proof.Machine.execFsqrt d a s
  | .pset d a b => Sys2Proof.Machine.execPset d a b s
  | .pinf d => Sys2Proof.Machine.execPinf d s
  | .pgen d => Sys2Proof.Machine.execPgen d s
  | .pmov d a => Sys2Proof.Machine.execPmov d a s
  | .px d a => Sys2Proof.Machine.execPx d a s
  | .py d a => Sys2Proof.Machine.execPy d a s
  | .pneg d a => Sys2Proof.Machine.execPneg d a s
  | .padd d a b => Sys2Proof.Machine.execPadd d a b s
  | .peq a b => Sys2Proof.Machine.execPeq a b s
  | .pisinf a => Sys2Proof.Machine.execPisinf a s
  | .pdec d a => Sys2Proof.Machine.execPdec d a s
  | .pmul d a b => Sys2Proof.Machine.execPmul d a b s
  | .kexp a => Sys2Proof.Machine.execKexp a s
  | .aese d a => Sys2Proof.Machine.execAese d a s
  | .aesd d a => Sys2Proof.Machine.execAesd d a s
  | .asub d a => Sys2Proof.Machine.execAsub d a s
  | .aisub d a => Sys2Proof.Machine.execAisub d a s
  | .ashr d a => Sys2Proof.Machine.execAshr d a s
  | .aishr d a => Sys2Proof.Machine.execAishr d a s
  | .amix d a => Sys2Proof.Machine.execAmix d a s
  | .aimix d a => Sys2Proof.Machine.execAimix d a s
  | .aark d a k => Sys2Proof.Machine.execAark d a k s
  | .mov d a => Sys2Proof.Machine.execMov d a s
  | .xor d a b => Sys2Proof.Machine.execXor d a b s

end Sys2Proof.Machine
end

