-- ==== Sys2Proof/Machine/Window.lean ====
section
/-! DEFINITION. The register window (20_memory): the offset map, host reads and host writes. PEK-CORE has no other
address space and no memory of its own (log entry 19). -/

namespace Sys2Proof.Machine

/-- What stands at a word offset of the window (20_memory R71). -/
inductive WindowReg where
  | id
  | ctrl
  | status
  | cmd
  | cmdcnt
  | rwin (i : DReg) (j : Fin 8)
  | kswin (j : Fin 60)
  | reserved
  deriving DecidableEq, Repr

/-- The offset map (20_memory R71, R72, R74): RWIN word j of R[i] at 0x100 + 32i + 4j, KSWIN word j at 0x300 + 4j. -/
def locate (offset : Nat) : WindowReg :=
  if offset = 0x000 then .id
  else if offset = 0x004 then .ctrl
  else if offset = 0x008 then .status
  else if offset = 0x00C then .cmd
  else if offset = 0x010 then .cmdcnt
  else if h : 0x100 ≤ offset ∧ offset < 0x300 then
    .rwin ⟨(offset - 0x100) / 32, by omega⟩ ⟨(offset - 0x100) % 32 / 4, by omega⟩
  else if h : 0x300 ≤ offset ∧ offset < 0x3F0 then .kswin ⟨(offset - 0x300) / 4, by omega⟩
  else .reserved

/-- KSWIN word j: KS[4j..4j+3], the lowest-numbered byte in bits 31:24 (20_memory R74). -/
def scheduleWord (ks : Schedule) (j : Fin 60) : Word :=
  ks[4 * j.val] ++ ks[4 * j.val + 1] ++ ks[4 * j.val + 2] ++ ks[4 * j.val + 3]

namespace State

/-- What a host read of a window register returns, or none where it returns any value (20_memory R73, R74). -/
def windowValue (s : State) : WindowReg → Option Word
  | .id => some idValue
  | .ctrl => some s.ctrlWord
  | .status => some s.statusWord
  | .cmd => some s.cmdLast
  | .cmdcnt => some s.cmdCnt
  | .rwin i j => if !s.busy && s.v[i][j] then some (wordOf s.r[i] j) else none
  | .kswin j => if !s.busy && s.ksv then some (scheduleWord s.ks j) else none
  | .reserved => some 0

/-- A host read: only the host learns something (20_memory R81: no read has a side effect). -/
def hostRead (s : State) (reg : WindowReg) : State :=
  match s.windowValue reg with
  | some w => s.reply w
  | none => s.replyAny

/-- A write to word j of R[i] (20_memory R72, R76): it takes effect when BUSY = 0, else it is dropped. -/
def writeWindowWord (s : State) (i : DReg) (j : Fin 8) (w : Word) : State :=
  if s.busy then s.dropWrite
  else { s with r := s.r.set i (setWord s.r[i] j w), v := s.v.set i (s.v[i].set j true) }

/-- A write to CMD (60_exceptions R330, R332): accepted when BUSY = 0 and ERR = 0, else dropped. -/
def issue (s : State) (w : Word) : State :=
  if s.busy || s.err then s.dropWrite else s.accept w

/-- A host write (20_memory R71, R81). Writes to read-only and reserved offsets are ignored (R74, R75). -/
def hostWrite (s : State) (reg : WindowReg) (w : Word) : State :=
  match reg with
  | .ctrl => s.writeCtrl w
  | .status => s.writeStatus w
  | .cmd => s.issue w
  | .rwin i j => s.writeWindowWord i j w
  | .id => s
  | .cmdcnt => s
  | .kswin _ => s
  | .reserved => s

end State

/-- The checks on every access: an aligned 32-bit access (20_memory R79), inside the window (R70). -/
def checkedAccess (offset width : Nat) (k : WindowReg → State) : Out :=
  if width ≠ 4 ∨ offset % 4 ≠ 0 then .refused (.badAccess offset width)
  else if 4096 ≤ offset then .fault (.outsideWindow offset)
  else .next (k (locate offset))

/-- One host access (20_memory R83). -/
def performAccess (s : State) : HostAccess → Out
  | .read offset width => checkedAccess offset width s.hostRead
  | .write offset width w => checkedAccess offset width (fun reg => s.hostWrite reg w)

/-- The bus address of an offset of the window, and the offset of a bus address in it (20_memory R70, R82). -/
def busAddress (offset : Nat) : Nat := Config.base + offset
def windowOffset (address : Nat) : Option Nat :=
  if Config.base ≤ address ∧ address < Config.base + 4096 then some (address - Config.base) else none

end Sys2Proof.Machine
end

