-- ==== Sys2Proof/Machine/Engine.lean ====
section
/-! DEFINITION. The turn of the command engine, and the moves of the system (20_memory R83). -/

namespace Sys2Proof.Machine

/-- The engine's turn: a command in flight completes (60_exceptions R331), with ILLEGAL if its word does not decode
(30_encoding R106); with nothing in flight the engine is idle (60_exceptions R345). -/
def engineTurn (s : State) : Out :=
  match s.inflight with
  | none => .next s
  | some w =>
    match decode w with
    | .ok i => exec i s
    | .error _ => .next (s.failCommand .illegal)

/-- One move, taken off the input list already. -/
def performEvent (s : State) : Event → Out
  | .host a => performAccess s a
  | .engine => engineTurn s
  | .resetInput => .next s.resetUnit

/-- The next move: the first of the input list, or the engine's turn once the list is used up (log entries 4, 5). -/
def nextMove (s : State) : Out :=
  match s.input with
  | [] => engineTurn s
  | e :: rest => performEvent { s with input := rest } e

/-- The command word w has just been accepted from the host, and the engine has the next move (log entry 8). -/
def State.withAccepted (s : State) (w : Word) : State :=
  { s.accept w with input := .engine :: s.input }

end Sys2Proof.Machine
end

