-- ==== Sys2Proof/Machine/Step.lean ====
section
/-! DEFINITION. One step of the machine, and placing a command where the next step runs it. -/

namespace Sys2Proof.Machine

/-- One step: the next move of the host, the engine or the reset input. -/
def step (s : State) : Host.Outcome State Fault Refusal := nextMove s

/-- `s` with a command of the opcode table accepted, so that the very next step runs it (log entry 8). A command is
one 32-bit word, so no bits lie above `nbits`. -/
def State.withFetchWord (s : State) (nbits w : Nat) : State := s.withAccepted (BitVec.ofNat 32 (w % 2 ^ nbits))

end Sys2Proof.Machine
end

