-- ==== Sys2Proof/Safety.lean ====
section
/-! DEFINITION. The vocabulary of the claims: operands that are ready, the states a command ends in, and the
invariants of the machine. Nothing here is used by the step. -/

namespace Sys2Proof.Machine

/-! ### Operands -/

/-- R[a] is valid: all eight words written since reset (10_state R31). -/
abbrev Ready (s : State) (a : DReg) : Prop := ∀ j : Fin 8, s.v[a][j] = true

/-- P[a] is valid (10_state R34). -/
abbrev ReadyPoint (s : State) (a : PReg) : Prop := s.pv[a] = true

/-- R[a] holds a field element (41_field R141, R142). -/
abbrev Canonical (s : State) (a : DReg) : Prop := s.r[a].toNat < fieldPrime

/-! ### The states a command ends in (60_exceptions R324, R331), each record written out in full -/

/-- Completed with nothing written but the bookkeeping. -/
def State.ended (s : State) : State := { s with inflight := none, done := true }

/-- Completed with x written to R[d], all eight valid bits set. -/
def State.endedData (s : State) (d : DReg) (x : Data) : State :=
  { s with r := s.r.set d x, v := s.v.set d (Vector.replicate 8 true), inflight := none, done := true }

/-- Completed with q written to P[d], its valid bit set. -/
def State.endedPoint (s : State) (d : PReg) (q : Point) : State :=
  { s with p := s.p.set d q, pv := s.pv.set d true, inflight := none, done := true }

/-- Completed with the flag EQ written. -/
def State.endedEq (s : State) (b : Bool) : State := { s with eqFlag := b, inflight := none, done := true }

/-- Completed with the error c: nothing else is written. -/
def State.endedError (s : State) (c : ErrCode) : State :=
  { s with err := true, ecode := c, inflight := none, done := true }

/-! ### Operands and errors of a command -/

/-- The data registers a command reads as sources (60_exceptions R320, UNINIT). -/
def dataSources : Instr → List DReg
  | .fadd _ a b | .fsub _ a b | .fmul _ a b | .fpow _ a b | .fdiv _ a b | .pset _ a b | .xor _ a b => [a, b]
  | .finv _ a | .fsqrt _ a | .pdec _ a | .pmul _ a _ | .kexp a | .aese _ a | .aesd _ a | .asub _ a | .aisub _ a
  | .ashr _ a | .aishr _ a | .amix _ a | .aimix _ a | .aark _ a _ | .mov _ a => [a]
  | .nop | .pinf _ | .pgen _ | .pmov _ _ | .px _ _ | .py _ _ | .pneg _ _ | .padd _ _ _ | .peq _ _ | .pisinf _ => []

/-- The point registers a command reads as sources. -/
def pointSources : Instr → List PReg
  | .padd _ a b | .peq a b => [a, b]
  | .pmov _ a | .px _ a | .py _ a | .pneg _ a | .pisinf a | .pmul _ _ a => [a]
  | .nop | .pinf _ | .pgen _ | .fadd _ _ _ | .fsub _ _ _ | .fmul _ _ _ | .fpow _ _ _ | .fdiv _ _ _ | .pset _ _ _
  | .xor _ _ _ | .finv _ _ | .fsqrt _ _ | .pdec _ _ | .kexp _ | .aese _ _ | .aesd _ _ | .asub _ _ | .aisub _ _
  | .ashr _ _ | .aishr _ _ | .amix _ _ | .aimix _ _ | .aark _ _ _ | .mov _ _ => []

/-- Every source register of the command is valid. -/
abbrev SourcesReady (s : State) (i : Instr) : Prop :=
  (∀ a ∈ dataSources i, Ready s a) ∧ (∀ a ∈ pointSources i, ReadyPoint s a)

/-- The errors each command can raise once it has decoded (60_exceptions R321), in the order of the checks. -/
def errorsOf : Instr → List ErrCode
  | .nop | .pinf _ | .pgen _ => []
  | .fadd _ _ _ | .fsub _ _ _ | .fmul _ _ _ | .fpow _ _ _ | .fsqrt _ _ => [.uninit, .range]
  | .finv _ _ | .fdiv _ _ _ => [.uninit, .range, .div0]
  | .pset _ _ _ | .pdec _ _ => [.uninit, .range, .curve]
  | .pmov _ _ | .pneg _ _ | .padd _ _ _ | .peq _ _ | .pisinf _ | .pmul _ _ _ => [.uninit]
  | .px _ _ | .py _ _ => [.uninit, .inf]
  | .kexp _ | .asub _ _ | .aisub _ _ | .ashr _ _ | .aishr _ _ | .amix _ _ | .aimix _ _ | .mov _ _ | .xor _ _ _ =>
    [.uninit]
  | .aese _ _ | .aesd _ _ | .aark _ _ _ => [.uninit, .nokey]

/-! ### Invariants -/

/-- A point register value that 10_state R35 allows. -/
def pointOnCurve : Point → Bool
  | .inf => true
  | .affine x y => onCurve x y

/-- 10_state R35: every point register holds INF or a point of the curve. -/
abbrev PointsOnCurve (s : State) : Prop := ∀ i : PReg, pointOnCurve s.p[i] = true

/-- The handshake: a command in flight is the last accepted word, and DONE and ERR are 0 until it completes
(60_exceptions R330 to R332). -/
abbrev HandshakeOk (s : State) : Prop :=
  ∀ w, s.inflight = some w → s.cmdLast = w ∧ s.done = false ∧ s.err = false

/-- ERR is 1 exactly when ECODE holds an error code (10_state R43, 60_exceptions R320, R324, R337). -/
abbrev ErrorRecordOk (s : State) : Prop := s.err = true ↔ s.ecode ≠ .none

/-- 10_state R39: KSV = 1 only while the schedule is the expansion of some key. -/
def ScheduleOk (s : State) : Prop := s.ksv = true → ∃ key, s.ks = expandKey key

/-! ### What can be observed of a state -/

/-- The two states agree on everything but the contents of registers that are not valid (10_state R48: "A model
must treat the content of an invalid register as having no value"). -/
structure SameValidContent (s t : State) : Prop where
  v : s.v = t.v
  pv : s.pv = t.pv
  r : ∀ (i : DReg) (j : Fin 8), s.v[i][j] = true → wordOf s.r[i] j = wordOf t.r[i] j
  p : ∀ i : PReg, s.pv[i] = true → s.p[i] = t.p[i]
  ksv : s.ksv = t.ksv
  ks : s.ksv = true → s.ks = t.ks
  eqFlag : s.eqFlag = t.eqFlag
  irqen : s.irqen = t.irqen
  done : s.done = t.done
  err : s.err = t.err
  ovr : s.ovr = t.ovr
  ecode : s.ecode = t.ecode
  cmdLast : s.cmdLast = t.cmdLast
  cmdCnt : s.cmdCnt = t.cmdCnt
  inflight : s.inflight = t.inflight
  input : s.input = t.input
  replies : s.replies = t.replies
  freeCount : s.freeCount = t.freeCount

/-- Two steps have the same outcome as far as it can be observed. -/
def SameOutcome : Out → Out → Prop
  | .next s, .next t => SameValidContent s t
  | .fault f, .fault g => f = g
  | .refused f, .refused g => f = g
  | _, _ => False

/-- What a host can read of a state with no command in flight (70_reset R376): the words of valid data registers,
STATUS, CMD_LAST, CMDCNT and, when KSV = 1, the schedule's window. No word of a register that is not valid is covered,
nor is any point register. -/
def State.observation (s : State) : Vector (Vector (Option Word) 8) 16 × Word × Word × Word × Vector (Option Word) 60 :=
  (Vector.ofFn fun i => Vector.ofFn fun j => if s.dataValid i then s.windowValue (.rwin i j) else none, s.statusWord,
    s.cmdLast, s.cmdCnt, Vector.ofFn fun j => s.windowValue (.kswin j))

/-! ### Sequences -/

/-- Run commands one after another, each from the state the one before it ends in. -/
def execAll : List Instr → State → Out
  | [], s => .next s
  | i :: rest, s =>
    match exec i s with
    | .next t => execAll rest t
    | .fault f => .fault f
    | .refused f => .refused f

end Sys2Proof.Machine
end

