-- ==== Sys2Proof/Certificates/Slice0/Obligations.lean ====
section
/-! DEFINITION. The statements for the provers. Each says what the spec's rules say of the machine; the vocabulary
(Ready, Canonical, endedData and the like) is that of Sys2Proof/Safety.lean. -/

open Sys2Proof Sys2Proof.Machine

/-- The step that an event first on the input list makes. -/
def stepOn (e : Event) (s : State) : Out := step { s with input := e :: s.input }

/-! ## Words: encoding and decoding -/

/-- 30_encoding R101: the fields of a command word, and Z = 0. -/
def Obligations.CommandWordHasTheFieldLayout : Prop :=
  ∀ op d a b k : Nat, op < 256 → d < 16 → a < 16 → b < 16 → k < 16 →
    (commandWord op d a b k).toNat = op * 2 ^ 24 + d * 2 ^ 20 + a * 2 ^ 16 + b * 2 ^ 12 + k * 2 ^ 8

/-- 30_encoding R104, R106: the word of every well-formed command decodes to that command; and a word that decodes is
the one word of the command it decodes to, and that command is well-formed. -/
def Obligations.DecodeAndEncodeAgree : Prop :=
  (∀ i : Instr, i.wellFormed = true → decode (encode i) = .ok i) ∧
  (∀ (w : Word) (i : Instr), decode w = .ok i → i.wellFormed = true ∧ encode i = w)

/-- Words written out from 30_encoding R104 and their commands: at least one of every family. -/
def Obligations.SampleWordsDecode : Prop :=
  decode 0x00000000 = .ok .nop ∧ decode 0x10312000 = .ok (.fadd 3 1 2) ∧ decode 0x14210000 = .ok (.finv 2 1) ∧
  decode 0x20012000 = .ok (.pset 0 1 2) ∧ decode 0x27100000 = .ok (.padd 1 0 0) ∧
  decode 0x28012000 = .ok (.peq 1 2) ∧ decode 0x30180000 = .ok (.pmul 1 8 0) ∧
  decode 0x49210E00 = .ok (.aark 2 1 14) ∧ decode 0x51312000 = .ok (.xor 3 1 2)

/-- The kinds of an operand field (30_encoding R102): data register, point register, immediate, unused. -/
inductive FieldKind where
  | dataReg
  | pointReg
  | imm
  | unused
  deriving DecidableEq, Repr

/-- The columns D, A, B, K of the opcode map (30_encoding R104), by OP. -/
def fieldKinds : Nat → Option (FieldKind × FieldKind × FieldKind × FieldKind)
  | 0x00 => some (.unused, .unused, .unused, .unused)
  | 0x10 | 0x11 | 0x12 | 0x13 | 0x15 | 0x51 => some (.dataReg, .dataReg, .dataReg, .unused)
  | 0x14 | 0x16 | 0x41 | 0x42 | 0x43 | 0x44 | 0x45 | 0x46 | 0x47 | 0x48 | 0x50 =>
    some (.dataReg, .dataReg, .unused, .unused)
  | 0x20 => some (.pointReg, .dataReg, .dataReg, .unused)
  | 0x21 | 0x22 => some (.pointReg, .unused, .unused, .unused)
  | 0x23 | 0x26 => some (.pointReg, .pointReg, .unused, .unused)
  | 0x24 | 0x25 => some (.dataReg, .pointReg, .unused, .unused)
  | 0x27 => some (.pointReg, .pointReg, .pointReg, .unused)
  | 0x28 => some (.unused, .pointReg, .pointReg, .unused)
  | 0x29 => some (.unused, .pointReg, .unused, .unused)
  | 0x2A => some (.pointReg, .dataReg, .unused, .unused)
  | 0x30 => some (.pointReg, .dataReg, .pointReg, .unused)
  | 0x40 => some (.unused, .dataReg, .unused, .unused)
  | 0x49 => some (.dataReg, .dataReg, .unused, .imm)
  | _ => none

/-- The constraint a kind puts on its four bits (30_encoding R102). -/
def FieldKind.allows : FieldKind → BitVec 4 → Prop
  | .dataReg, _ => True
  | .pointReg, f => f.getLsbD 3 = false
  | .imm, _ => True
  | .unused, f => f = 0

/-- A word free of every defect that 30_encoding R107 lists. -/
def IsLegalWord (w : Word) : Prop :=
  ∃ d a b k, fieldKinds (w.toNat / 2 ^ 24) = some (d, a, b, k) ∧ w.toNat % 2 ^ 8 = 0 ∧
    d.allows (w.extractLsb' 20 4) ∧ a.allows (w.extractLsb' 16 4) ∧ b.allows (w.extractLsb' 12 4) ∧
    k.allows (w.extractLsb' 8 4) ∧ ¬(w.toNat / 2 ^ 24 = 0x49 ∧ w.extractLsb' 8 4 = 15)

/-- 30_encoding R107: the illegal words are those with an unassigned OP (224 of the 256 values), a non-zero Z, a
non-zero unused field, bit 3 set in a point field, or K = 15 in AARK: every other word decodes, and each of them does not
decode and, in flight, completes at the engine's turn with the error ILLEGAL and no other effect. -/
def Obligations.IllegalWordsCompleteWithIllegal : Prop :=
  ((List.range 256).filter (fun op => (fieldKinds op).isNone)).length = 224 ∧
  (∀ w : Word, IsLegalWord w → ∃ i, decode w = .ok i) ∧
  (∀ w : Word, ¬IsLegalWord w → (∃ e, decode w = .error e) ∧
    ∀ s : State, s.inflight = some w → stepOn .engine s = .next (s.endedError .illegal))

/-! ## Steps, acceptance, completion -/

/-- A step runs the decoded command: with the command's word in flight and the engine to move (the input list used
up, or an engine turn first on it), the step is the command's meaning; an engine turn is taken off the list, and
nothing else stands around it. -/
def Obligations.StepRunsTheDecodedCommand : Prop :=
  ∀ (s : State) (w : Word) (i : Instr), s.inflight = some w → decode w = .ok i →
    (s.input = [] → step s = exec i s) ∧
    (∀ rest, s.input = .engine :: rest → step s = exec i { s with input := rest })

/-- 60_exceptions R330: acceptance. -/
def Obligations.AcceptanceRecordsTheCommand : Prop :=
  ∀ (s : State) (w : Word) (rest : List Event), s.input = .host (.write 0x00C 4 w) :: rest →
    s.inflight = none → s.err = false →
    ∃ t, step s = .next t ∧ t.cmdLast = w ∧ t.cmdCnt.toNat = (s.cmdCnt.toNat + 1) % 2 ^ 32 ∧ t.done = false ∧
      t.inflight = some w ∧
      t = { s with cmdLast := t.cmdLast, cmdCnt := t.cmdCnt, done := false, inflight := some w, input := rest }

/-- 60_exceptions R332: the dropped host writes set OVR and change nothing else; a write to a read-only or reserved
offset changes nothing; and OVR, once set, stays until the host clears it or a reset. -/
def Obligations.DroppedWritesSetOvr : Prop :=
  (∀ (s : State) (w v : Word), s.inflight = some v ∨ s.err = true →
    stepOn (.host (.write 0x00C 4 w)) s = .next { s with ovr := true }) ∧
  (∀ (s : State) (w v : Word) (i : DReg) (j : Fin 8), s.inflight = some v →
    stepOn (.host (.write (0x100 + 32 * i + 4 * j) 4 w)) s = .next { s with ovr := true }) ∧
  (∀ (s : State) (w : Word) (off : Nat), off % 4 = 0 → off < 4096 →
    (off = 0 ∨ (0x010 ≤ off ∧ off < 0x100) ∨ 0x300 ≤ off) → stepOn (.host (.write off 4 w)) s = .next s) ∧
  (∀ (s t : State) (e : Event), s.ovr = true → stepOn e s = .next t →
    t.ovr = true ∨ e = .resetInput ∨ (∃ w : Word, e = .host (.write 0x008 4 w) ∧ w.getLsbD 3 = true) ∨
      (∃ w : Word, e = .host (.write 0x004 4 w) ∧ w.getLsbD 0 = true))

/-- 60_exceptions R325: while ERR = 1 every write to CMD is dropped, and no command is accepted before the host
clears ERR by a write to STATUS, or a reset. -/
def Obligations.ErrIsSticky : Prop :=
  (∀ (s : State) (w : Word), s.err = true → stepOn (.host (.write 0x00C 4 w)) s = .next { s with ovr := true }) ∧
  (∀ (s t : State) (e : Event), s.err = true → s.inflight = none → stepOn e s = .next t →
    (t.err = true ∧ t.inflight = none ∧ t.cmdCnt = s.cmdCnt) ∨ e = .resetInput ∨
      (∃ w : Word, e = .host (.write 0x008 4 w) ∧ w.getLsbD 2 = true) ∨
      (∃ w : Word, e = .host (.write 0x004 4 w) ∧ w.getLsbD 0 = true))

/-- 60_exceptions R331: whatever is in flight, the engine's turn completes it: BUSY <- 0, DONE <- 1, and the
bookkeeping of the acceptance, IRQEN, OVR and everything of the host's stays. -/
def Obligations.EngineTurnCompletesTheCommand : Prop :=
  ∀ (s : State) (w : Word), s.inflight = some w →
    ∃ t, stepOn .engine s = .next t ∧ t.inflight = none ∧ t.done = true ∧ t.cmdLast = s.cmdLast ∧
      t.cmdCnt = s.cmdCnt ∧ t.irqen = s.irqen ∧ t.ovr = s.ovr ∧ t.input = s.input ∧ t.replies = s.replies ∧
      t.freeCount = s.freeCount

/-- 60_exceptions R333, R324: errors are precise. A command accepted and completed with an error leaves the state it
was issued in, but for DONE, ERR, ECODE, CMD_LAST and CMDCNT. -/
def Obligations.ErrorsArePrecise : Prop :=
  ∀ (s t u : State) (w : Word), s.inflight = none → s.err = false →
    stepOn (.host (.write 0x00C 4 w)) s = .next t → stepOn .engine t = .next u → u.err = true →
    ∃ c, c ≠ .none ∧
      u = { s with done := true, err := true, ecode := c, cmdLast := w, cmdCnt := s.cmdCnt + 1 }

/-- 60_exceptions R321: a command raises only the errors of its row; a command that raises none leaves ERR and
ECODE as they were. -/
def Obligations.CommandsRaiseOnlyTheirErrors : Prop :=
  ∀ (i : Instr) (s : State), i.wellFormed = true →
    ∃ t, exec i s = .next t ∧
      ((∃ c ∈ errorsOf i, t = s.endedError c) ∨ (t.err = s.err ∧ t.ecode = s.ecode))

/-- 00_scope R16, 60_exceptions R322: a source register that is not valid raises UNINIT, before every other error
but ILLEGAL, whatever the command. -/
def Obligations.InvalidSourcesRaiseUninit : Prop :=
  ∀ (i : Instr) (s : State), i.wellFormed = true → ¬SourcesReady s i → exec i s = .next (s.endedError .uninit)

/-! ## The register window -/

/-- A CMD write of w that is accepted in s (60_exceptions R330). -/
def Accepts (s : State) (e : Event) (w : Word) : Prop :=
  e = .host (.write 0x00C 4 w) ∧ s.inflight = none ∧ s.err = false

/-- An event that resets the unit (70_reset R360). -/
def Resets (e : Event) : Prop := e = .resetInput ∨ ∃ w : Word, e = .host (.write 0x004 4 w) ∧ w.getLsbD 0 = true

/-- 10_state R41, R44, R45: ID, CMD and CMDCNT as the host reads them; writes to ID and CMDCNT are ignored. An accepted
command always counts, by one modulo 2^32, and is recorded in CMD_LAST; a reset sets both to 0; and nothing else, a dropped
command included, changes either. -/
def Obligations.CommandRegistersFollowAcceptance : Prop :=
  (∀ s : State, stepOn (.host (.read 0x000 4)) s = .next { s with replies := 0x50454B01 :: s.replies }) ∧
  (∀ s : State, stepOn (.host (.read 0x00C 4)) s = .next { s with replies := s.cmdLast :: s.replies }) ∧
  (∀ s : State, stepOn (.host (.read 0x010 4)) s = .next { s with replies := s.cmdCnt :: s.replies }) ∧
  (∀ (s : State) (w : Word), stepOn (.host (.write 0x000 4 w)) s = .next s) ∧
  (∀ (s : State) (w : Word), stepOn (.host (.write 0x010 4 w)) s = .next s) ∧
  (∀ (s : State) (e : Event) (w : Word), Accepts s e w →
    ∃ t, stepOn e s = .next t ∧ t.cmdCnt.toNat = (s.cmdCnt.toNat + 1) % 2 ^ 32 ∧ t.cmdLast = w) ∧
  (∀ (s : State) (e : Event), Resets e → ∃ t, stepOn e s = .next t ∧ t.cmdCnt = 0 ∧ t.cmdLast = 0) ∧
  (∀ (s t : State) (e : Event), stepOn e s = .next t → (∀ w, ¬Accepts s e w) → ¬Resets e →
    t.cmdCnt = s.cmdCnt ∧ t.cmdLast = s.cmdLast)

/-- 20_memory R75: reserved offsets read 0; writes to them, to ID and to CMDCNT are ignored, OVR included. -/
def Obligations.ReservedOffsetsReadZeroAndIgnoreWrites : Prop :=
  (∀ (s : State) (off : Nat), off % 4 = 0 → (0x014 ≤ off ∧ off < 0x100) ∨ (0x3F0 ≤ off ∧ off < 0x1000) →
    stepOn (.host (.read off 4)) s = .next { s with replies := 0 :: s.replies } ∧
    ∀ w : Word, stepOn (.host (.write off 4 w)) s = .next s) ∧
  (∀ (s : State) (w : Word), stepOn (.host (.write 0x000 4 w)) s = .next s ∧
    stepOn (.host (.write 0x010 4 w)) s = .next s)

/-- 10_state R42: CTRL. A write with SRST = 1 only resets (IRQEN comes out 0 whatever the word says), a write with
SRST = 0 sets IRQEN; a read gives IRQEN at bit 1 and 0 elsewhere. -/
def Obligations.CtrlHoldsIrqenAndResets : Prop :=
  (∀ (s : State) (w : Word), w.getLsbD 0 = true →
    ∃ t, stepOn (.host (.write 0x004 4 w)) s = .next t ∧ stepOn .resetInput s = .next t ∧ t.irqen = false) ∧
  (∀ (s : State) (w : Word), w.getLsbD 0 = false →
    stepOn (.host (.write 0x004 4 w)) s = .next { s with irqen := w.getLsbD 1 }) ∧
  (∀ s : State, stepOn (.host (.read 0x004 4)) s =
    .next { s with replies := (if s.irqen then 2 else 0) :: s.replies })

/-- 10_state R43: the fields of STATUS as the host reads them, reserved bits 0, with the codes of 60_exceptions R320;
and a write to STATUS clears exactly DONE, ERR (with ECODE) and OVR, each where the word has a 1. -/
def Obligations.StatusReadsAndClearsItsFields : Prop :=
  (∀ s : State, ∃ w : Word, stepOn (.host (.read 0x008 4)) s = .next { s with replies := w :: s.replies } ∧
    (w.getLsbD 0 = true ↔ s.inflight ≠ none) ∧ w.getLsbD 1 = s.done ∧ w.getLsbD 2 = s.err ∧ w.getLsbD 3 = s.ovr ∧
    w.getLsbD 4 = s.eqFlag ∧ w.getLsbD 5 = s.ksv ∧ w.getLsbD 6 = false ∧ w.getLsbD 7 = false ∧
    (w.toNat / 2 ^ 8 =
      match s.ecode with
      | .none => 0 | .illegal => 1 | .uninit => 2 | .range => 3 | .div0 => 4 | .curve => 5 | .inf => 6 | .nokey => 7)) ∧
  (∀ (s : State) (w : Word), stepOn (.host (.write 0x008 4 w)) s =
    .next { s with
      done := s.done && !w.getLsbD 1
      err := s.err && !w.getLsbD 2
      ecode := if w.getLsbD 2 then .none else s.ecode
      ovr := s.ovr && !w.getLsbD 3 })

/-- 60_exceptions R337: after the host writes 1 to ERR, ERR and ECODE are 0, DONE and everything else stay, and the
next CMD write is accepted. -/
def Obligations.ClearingErrResumesAcceptance : Prop :=
  ∀ (s : State) (w : Word), s.inflight = none →
    ∃ t u, stepOn (.host (.write 0x008 4 0x4)) s = .next t ∧ t = { s with err := false, ecode := .none } ∧
      stepOn (.host (.write 0x00C 4 w)) t = .next u ∧ u.inflight = some w ∧ u.cmdLast = w

/-- 60_exceptions R335: IRQ is 1 after a completion with IRQEN = 1, whether or not the command failed, and 0 after an
acceptance, after writing 1 to DONE, after writing IRQEN = 0, and after a reset; a dropped write leaves it. -/
def Obligations.IrqFollowsCompletion : Prop :=
  (∀ (s t : State) (w : Word), s.inflight = some w → stepOn .engine s = .next t → t.irq = s.irqen) ∧
  (∀ (s t : State) (w : Word), s.inflight = none → s.err = false →
    stepOn (.host (.write 0x00C 4 w)) s = .next t → t.irq = false) ∧
  (∀ (s t : State) (w : Word), w.getLsbD 1 = true → stepOn (.host (.write 0x008 4 w)) s = .next t → t.irq = false) ∧
  (∀ (s t : State) (w : Word), w.getLsbD 1 = false → stepOn (.host (.write 0x004 4 w)) s = .next t → t.irq = false) ∧
  (∀ s t : State, stepOn .resetInput s = .next t → t.irq = false) ∧
  (∀ (s t : State) (w : Word), s.err = true → stepOn (.host (.write 0x00C 4 w)) s = .next t → t.irq = s.irq)

/-- 10_state R32: the eight words of a data register, and the bytes of a word. -/
def Obligations.WordsAndBytesOfADataRegister : Prop :=
  ∀ v : Data,
    v.toNat = ∑ j : Fin 8, (wordOf v j).toNat * 2 ^ (32 * (7 - j.val)) ∧
    ∀ j : Fin 8, (wordOf v j).toNat = (byteOf v (4 * j)).toNat * 2 ^ 24 + (byteOf v (4 * j + 1)).toNat * 2 ^ 16 +
      (byteOf v (4 * j + 2)).toNat * 2 ^ 8 + (byteOf v (4 * j + 3)).toNat

/-- The host writes the words ws j of R[i], in the order the list gives. -/
def writeWords (i : DReg) (ws : Fin 8 → Word) : List (Fin 8) → State → Out
  | [], s => .next s
  | j :: js, s =>
    match stepOn (.host (.write (0x100 + 32 * i + 4 * j) 4 (ws j))) s with
    | .next t => writeWords i ws js t
    | .fault f => .fault f
    | .refused f => .refused f

/-- 20_memory R72: with BUSY = 0 a write to RWIN sets its word and its valid bit and nothing else; writing all eight
words of R[i], in any order, leaves R[i] valid and holding their concatenation, word 0 most significant. -/
def Obligations.WindowWritesSetWords : Prop :=
  (∀ (s : State) (i : DReg) (j : Fin 8) (w : Word), s.inflight = none →
    ∃ x, stepOn (.host (.write (0x100 + 32 * i + 4 * j) 4 w)) s =
        .next { s with r := s.r.set i x, v := s.v.set i (s.v[i].set j true) } ∧
      wordOf x j = w ∧ ∀ k : Fin 8, k ≠ j → wordOf x k = wordOf s.r[i] k) ∧
  (∀ (s : State) (i : DReg) (ws : Fin 8 → Word) (order : List (Fin 8)), s.inflight = none →
    (∀ j, j ∈ order) →
    ∃ t, writeWords i ws order s = .next t ∧ Ready t i ∧
      t.r[i].toNat = ∑ j : Fin 8, (ws j).toNat * 2 ^ (32 * (7 - j.val)))

/-- 20_memory R73, R74: a read of RWIN or KSWIN returns the word when BUSY = 0 and the word (or the schedule) is
valid; in every other case it returns the next free value, of which nothing is known. Writes to KSWIN are ignored. -/
def Obligations.WindowReadsReturnValidWords : Prop :=
  (∀ (s : State) (i : DReg) (j : Fin 8), s.inflight = none → s.v[i][j] = true →
    stepOn (.host (.read (0x100 + 32 * i + 4 * j) 4)) s =
      .next { s with replies := wordOf s.r[i] j :: s.replies }) ∧
  (∀ (s : State) (i : DReg) (j : Fin 8), s.inflight ≠ none ∨ s.v[i][j] = false →
    stepOn (.host (.read (0x100 + 32 * i + 4 * j) 4)) s =
      .next { s with replies := Config.freeWord s.freeCount :: s.replies, freeCount := s.freeCount + 1 }) ∧
  (∀ (s : State) (j : Fin 60), s.inflight = none → s.ksv = true →
    ∃ w : Word, stepOn (.host (.read (0x300 + 4 * j) 4)) s = .next { s with replies := w :: s.replies } ∧
      w.toNat = s.ks[4 * j.val].toNat * 2 ^ 24 + s.ks[4 * j.val + 1].toNat * 2 ^ 16 +
        s.ks[4 * j.val + 2].toNat * 2 ^ 8 + s.ks[4 * j.val + 3].toNat) ∧
  (∀ (s : State) (j : Fin 60), s.inflight ≠ none ∨ s.ksv = false →
    stepOn (.host (.read (0x300 + 4 * j) 4)) s =
      .next { s with replies := Config.freeWord s.freeCount :: s.replies, freeCount := s.freeCount + 1 }) ∧
  (∀ (s : State) (j : Fin 60) (w : Word), stepOn (.host (.write (0x300 + 4 * j) 4 w)) s = .next s)

/-- 20_memory R81: an aligned 32-bit read at any offset of the window completes and changes nothing the unit holds;
only the host's list of replies grows. -/
def Obligations.ReadsHaveNoSideEffect : Prop :=
  ∀ (s : State) (off : Nat), off % 4 = 0 → off < 4096 →
    ∃ (w : Word) (n : Nat), stepOn (.host (.read off 4)) s =
      .next { s with replies := w :: s.replies, freeCount := n }

/-- 20_memory R79, R70: an access that is not an aligned 32-bit access is refused, read or write, at every offset; an
aligned 32-bit access inside the window is performed; one at an offset of 4096 or more, where the spec gives the unit
no address, stops with the fault outsideWindow (the model's choice, log entry 9). -/
def Obligations.OnlyAlignedWordAccessesInTheWindowComplete : Prop :=
  ∀ (s : State) (off width : Nat) (w : Word),
    (width ≠ 4 ∨ off % 4 ≠ 0 → stepOn (.host (.read off width)) s = .refused (.badAccess off width) ∧
      stepOn (.host (.write off width w)) s = .refused (.badAccess off width)) ∧
    (width = 4 → off % 4 = 0 → off < 4096 → (∃ t, stepOn (.host (.read off width)) s = .next t) ∧
      ∃ t, stepOn (.host (.write off width w)) s = .next t) ∧
    (width = 4 → off % 4 = 0 → 4096 ≤ off → stepOn (.host (.read off width)) s = .fault (.outsideWindow off) ∧
      stepOn (.host (.write off width w)) s = .fault (.outsideWindow off))

/-- 20_memory R76: an RWIN write while BUSY = 1 is dropped and sets OVR, so no step that leaves a command in flight
changes a register, a valid bit, the key schedule or a flag of it. -/
def Obligations.OperandsCannotChangeInFlight : Prop :=
  (∀ (s : State) (u w : Word) (i : DReg) (j : Fin 8), s.inflight = some u →
    stepOn (.host (.write (0x100 + 32 * i + 4 * j) 4 w)) s = .next { s with ovr := true }) ∧
  (∀ (s t : State) (w w' : Word), s.inflight = some w → step s = .next t → t.inflight = some w' →
    w' = w ∧ t.r = s.r ∧ t.v = s.v ∧ t.p = s.p ∧ t.pv = s.pv ∧ t.ks = s.ks ∧ t.ksv = s.ksv ∧ t.eqFlag = s.eqFlag)

/-! ## Reset -/

/-- The values 10_state R48 and 70_reset R362 give for reset; the contents of registers and of the schedule are
unspecified and left out. -/
def HasResetValues (t : State) : Prop :=
  (∀ (i : DReg) (j : Fin 8), t.v[i][j] = false) ∧ (∀ i : PReg, t.pv[i] = false) ∧ t.ksv = false ∧ t.eqFlag = false ∧
  t.inflight = none ∧ t.done = false ∧ t.err = false ∧ t.ovr = false ∧ t.ecode = .none ∧ t.irqen = false ∧
  t.cmdLast = 0 ∧ t.cmdCnt = 0 ∧ t.statusWord = 0 ∧ t.ctrlWord = 0 ∧ t.irq = false

/-- 10_state R48, 70_reset R362: the state after reset. -/
def Obligations.ResetStateHasTheResetValues : Prop := HasResetValues State.reset

/-- 70_reset R360: the reset input and a CTRL write with SRST = 1 have the same effect in every state: a command in
flight is abandoned, every piece of state takes its reset value, whatever else the word says, and the unit accepts a
command at the next host access. -/
def Obligations.ResetsAbandonAndInitialise : Prop :=
  ∀ (s : State) (w u : Word), w.getLsbD 0 = true →
    ∃ t, stepOn .resetInput s = .next t ∧ stepOn (.host (.write 0x004 4 w)) s = .next t ∧ HasResetValues t ∧
      ∃ t', stepOn (.host (.write 0x00C 4 u)) t = .next t' ∧ t'.inflight = some u

/-! ## Data moves -/

/-- 45_data_system R303: NOP is the all-zero word and no other word with OP 0x00; issued in any idle state without an
error, it is accepted and completes, changing only DONE, CMD_LAST and CMDCNT; IRQ is then IRQEN. -/
def Obligations.NopOnlyCompletes : Prop :=
  (∀ w : Word, w.toNat / 2 ^ 24 = 0 → (w = 0 → decode w = .ok .nop) ∧ (w ≠ 0 → ∃ e, decode w = .error e)) ∧
  (∀ s : State, exec .nop s = .next s.ended) ∧
  (∀ s : State, s.inflight = none → s.err = false →
    ∃ t u, stepOn (.host (.write 0x00C 4 0)) s = .next t ∧ stepOn .engine t = .next u ∧
      u = { s with cmdLast := 0, cmdCnt := s.cmdCnt + 1, done := true } ∧ u.irq = s.irqen)

/-- 45_data_system R304: MOV. -/
def Obligations.MovCopies : Prop :=
  ∀ (d a : DReg) (s : State),
    decode (commandWord 0x50 d a 0 0) = .ok (.mov d a) ∧
    (Ready s a → exec (.mov d a) s = .next (s.endedData d s.r[a])) ∧
    (¬Ready s a → exec (.mov d a) s = .next (s.endedError .uninit))

/-- 45_data_system R305: XOR, bit by bit. -/
def Obligations.XorCombinesBits : Prop :=
  ∀ (d a b : DReg) (s : State),
    decode (commandWord 0x51 d a b 0) = .ok (.xor d a b) ∧
    (Ready s a → Ready s b → ∃ x : Data, exec (.xor d a b) s = .next (s.endedData d x) ∧
      ∀ i < 256, x.getLsbD i = (s.r[a].getLsbD i != s.r[b].getLsbD i)) ∧
    (¬(Ready s a ∧ Ready s b) → exec (.xor d a b) s = .next (s.endedError .uninit))

/-! ## Field arithmetic -/

/-- A field command with two field-element sources: its word, its result f on canonical operands, its errors in the
order of 41_field R143. -/
def FieldCommand (op : Nat) (i : DReg → DReg → DReg → Instr) (f : Int → Int → Int) : Prop :=
  ∀ (d a b : DReg) (s : State),
    decode (commandWord op d a b 0) = .ok (i d a b) ∧
    (Ready s a → Ready s b → Canonical s a → Canonical s b →
      ∃ x : Data, exec (i d a b) s = .next (s.endedData d x) ∧
        (x.toNat : Int) = f s.r[a].toNat s.r[b].toNat % (2 ^ 256 - 2 ^ 32 - 977)) ∧
    (¬(Ready s a ∧ Ready s b) → exec (i d a b) s = .next (s.endedError .uninit)) ∧
    (Ready s a → Ready s b → ¬(Canonical s a ∧ Canonical s b) → exec (i d a b) s = .next (s.endedError .range))

/-- 41_field R145, R146, R147: FADD, FSUB and FMUL. -/
def Obligations.FaddFsubFmulComputeModP : Prop :=
  FieldCommand 0x10 .fadd (fun x y => x + y) ∧ FieldCommand 0x11 .fsub (fun x y => x - y) ∧
  FieldCommand 0x12 .fmul (fun x y => x * y)

/-- 41_field R150, R151: FPOW, with x^0 = 1 for every x, 0 included (the parameter ZERO_POW_ZERO at its value 1); only
the base is checked against p. -/
def Obligations.FpowComputesThePower : Prop :=
  ∀ (d a b : DReg) (s : State),
    decode (commandWord 0x13 d a b 0) = .ok (.fpow d a b) ∧
    (Ready s a → Ready s b → Canonical s a →
      ∃ x : Data, exec (.fpow d a b) s = .next (s.endedData d x) ∧
        x.toNat = s.r[a].toNat ^ s.r[b].toNat % fieldPrime) ∧
    (¬(Ready s a ∧ Ready s b) → exec (.fpow d a b) s = .next (s.endedError .uninit)) ∧
    (Ready s a → Ready s b → ¬Canonical s a → exec (.fpow d a b) s = .next (s.endedError .range))

/-- 41_field R152, R153: FINV writes a^(p−2) mod p, which is the inverse; 0 raises DIV0. -/
def Obligations.FinvComputesTheInverse : Prop :=
  ∀ (d a : DReg) (s : State),
    decode (commandWord 0x14 d a 0 0) = .ok (.finv d a) ∧
    (Ready s a → Canonical s a → s.r[a].toNat ≠ 0 →
      ∃ x : Data, exec (.finv d a) s = .next (s.endedData d x) ∧
        x.toNat = s.r[a].toNat ^ (fieldPrime - 2) % fieldPrime ∧ s.r[a].toNat * x.toNat % fieldPrime = 1) ∧
    (¬Ready s a → exec (.finv d a) s = .next (s.endedError .uninit)) ∧
    (Ready s a → ¬Canonical s a → exec (.finv d a) s = .next (s.endedError .range)) ∧
    (Ready s a → s.r[a].toNat = 0 → exec (.finv d a) s = .next (s.endedError .div0))

/-- 41_field R154: FDIV writes a·b^(p−2) mod p; a zero divisor raises DIV0 after the range checks. The quotient times
the divisor is the dividend (derived). -/
def Obligations.FdivComputesTheQuotient : Prop :=
  ∀ (d a b : DReg) (s : State),
    decode (commandWord 0x15 d a b 0) = .ok (.fdiv d a b) ∧
    (Ready s a → Ready s b → Canonical s a → Canonical s b → s.r[b].toNat ≠ 0 →
      ∃ x : Data, exec (.fdiv d a b) s = .next (s.endedData d x) ∧
        x.toNat = s.r[a].toNat * s.r[b].toNat ^ (fieldPrime - 2) % fieldPrime ∧
        x.toNat * s.r[b].toNat % fieldPrime = s.r[a].toNat) ∧
    (¬(Ready s a ∧ Ready s b) → exec (.fdiv d a b) s = .next (s.endedError .uninit)) ∧
    (Ready s a → Ready s b → ¬(Canonical s a ∧ Canonical s b) →
      exec (.fdiv d a b) s = .next (s.endedError .range)) ∧
    (Ready s a → Ready s b → Canonical s a → s.r[b].toNat = 0 → exec (.fdiv d a b) s = .next (s.endedError .div0))

/-- 41_field R156: FSQRT writes a^((p+1)/4) mod p for every field element, root or not. -/
def Obligations.FsqrtWritesTheFormula : Prop :=
  ∀ (d a : DReg) (s : State),
    decode (commandWord 0x16 d a 0 0) = .ok (.fsqrt d a) ∧
    (Ready s a → Canonical s a →
      ∃ x : Data, exec (.fsqrt d a) s = .next (s.endedData d x) ∧
        x.toNat = s.r[a].toNat ^ ((fieldPrime + 1) / 4) % fieldPrime) ∧
    (¬Ready s a → exec (.fsqrt d a) s = .next (s.endedError .uninit)) ∧
    (Ready s a → ¬Canonical s a → exec (.fsqrt d a) s = .next (s.endedError .range))

/-- 41_field R157: the principal root r. Its square is a exactly when a is 0 or a square, and p − a otherwise; r is
itself a square; and r depends on a alone. -/
def Obligations.PrincipalRootProperties : Prop :=
  ∀ (d a : DReg) (s : State), Ready s a → Canonical s a →
    ∃ x : Data, exec (.fsqrt d a) s = .next (s.endedData d x) ∧
      ((∃ z : Nat, z * z % fieldPrime = s.r[a].toNat) ↔ x.toNat * x.toNat % fieldPrime = s.r[a].toNat) ∧
      ((¬∃ z : Nat, z * z % fieldPrime = s.r[a].toNat) → x.toNat * x.toNat % fieldPrime = fieldPrime - s.r[a].toNat) ∧
      (∃ z : Nat, z * z % fieldPrime = x.toNat) ∧
      ∀ (d' a' : DReg) (s' : State), Ready s' a' → s'.r[a'] = s.r[a] →
        exec (.fsqrt d' a') s' = .next (s'.endedData d' x)

/-- 41_field R148: the field laws, on the values FADD and FMUL write. -/
def Obligations.FieldLaws : Prop :=
  ∀ x y z : FieldElem,
    feAdd x y = feAdd y x ∧ feMul x y = feMul y x ∧
    feAdd (feAdd x y) z = feAdd x (feAdd y z) ∧ feMul (feMul x y) z = feMul x (feMul y z) ∧
    feAdd x (residue 0) = x ∧ feMul x (residue 1) = x ∧
    feMul x (feAdd y z) = feAdd (feMul x y) (feMul x z) ∧
    (x.val ≠ 0 → feAdd x (residue (fieldPrime - x.val)) = residue 0 ∧ feMul x (feInv x) = residue 1)

/-! ## Points -/

/-- 42_curve R183: PSET checks the curve equation. -/
def Obligations.PsetBuildsOnlyCurvePoints : Prop :=
  ∀ (d : PReg) (a b : DReg) (s : State),
    decode (commandWord 0x20 d a b 0) = .ok (.pset d a b) ∧
    (¬(Ready s a ∧ Ready s b) → exec (.pset d a b) s = .next (s.endedError .uninit)) ∧
    (Ready s a → Ready s b → ¬(Canonical s a ∧ Canonical s b) → exec (.pset d a b) s = .next (s.endedError .range)) ∧
    (Ready s a → Ready s b → ∀ (ha : Canonical s a) (hb : Canonical s b),
      (((s.r[b].toNat : Int) ^ 2 - (s.r[a].toNat ^ 3 + 7)) % fieldPrime = 0 →
        exec (.pset d a b) s = .next (s.endedPoint d (.affine ⟨s.r[a].toNat, ha⟩ ⟨s.r[b].toNat, hb⟩))) ∧
      (((s.r[b].toNat : Int) ^ 2 - (s.r[a].toNat ^ 3 + 7)) % fieldPrime ≠ 0 →
        exec (.pset d a b) s = .next (s.endedError .curve)))

/-- 42_curve R184, R185, R186: PINF, PGEN and PMOV. -/
def Obligations.PinfPgenPmovWritePoints : Prop :=
  (∀ (d : PReg) (s : State), decode (commandWord 0x21 d 0 0 0) = .ok (.pinf d) ∧
    exec (.pinf d) s = .next (s.endedPoint d .inf)) ∧
  (∀ (d : PReg) (s : State), decode (commandWord 0x22 d 0 0 0) = .ok (.pgen d) ∧
    ∃ x y : FieldElem, exec (.pgen d) s = .next (s.endedPoint d (.affine x y)) ∧
      x.val = 0x79BE667EF9DCBBAC55A06295CE870B07029BFCDB2DCE28D959F2815B16F81798 ∧
      y.val = 0x483ADA7726A3C4655DA4FBFC0E1108A8FD17B448A68554199C47D08FFB10D4B8) ∧
  (∀ (d a : PReg) (s : State), decode (commandWord 0x23 d a 0 0) = .ok (.pmov d a) ∧
    (ReadyPoint s a → exec (.pmov d a) s = .next (s.endedPoint d s.p[a])) ∧
    (¬ReadyPoint s a → exec (.pmov d a) s = .next (s.endedError .uninit)))

/-- 42_curve R187, R188, R190: PX and PY write a coordinate, and raise INF for the point at infinity. -/
def Obligations.PxPyWriteCoordinates : Prop :=
  ∀ (d : DReg) (a : PReg) (s : State),
    decode (commandWord 0x24 d a 0 0) = .ok (.px d a) ∧ decode (commandWord 0x25 d a 0 0) = .ok (.py d a) ∧
    (∀ x y : FieldElem, ReadyPoint s a → s.p[a] = .affine x y →
      exec (.px d a) s = .next (s.endedData d (BitVec.ofNat 256 x.val)) ∧
      exec (.py d a) s = .next (s.endedData d (BitVec.ofNat 256 y.val))) ∧
    (ReadyPoint s a → s.p[a] = .inf →
      exec (.px d a) s = .next (s.endedError .inf) ∧ exec (.py d a) s = .next (s.endedError .inf)) ∧
    (¬ReadyPoint s a →
      exec (.px d a) s = .next (s.endedError .uninit) ∧ exec (.py d a) s = .next (s.endedError .uninit))

/-- 42_curve R191, R192: PNEG negates, and twice gives back the value. -/
def Obligations.PnegNegates : Prop :=
  ∀ (d a : PReg) (s : State),
    decode (commandWord 0x26 d a 0 0) = .ok (.pneg d a) ∧
    (ReadyPoint s a → s.p[a] = .inf → exec (.pneg d a) s = .next (s.endedPoint d .inf)) ∧
    (∀ x y : FieldElem, ReadyPoint s a → s.p[a] = .affine x y →
      ∃ y' : FieldElem, exec (.pneg d a) s = .next (s.endedPoint d (.affine x y')) ∧
        y'.val = (fieldPrime - y.val) % fieldPrime) ∧
    (¬ReadyPoint s a → exec (.pneg d a) s = .next (s.endedError .uninit)) ∧
    (ReadyPoint s a → ∃ t u, exec (.pneg d a) s = .next t ∧ exec (.pneg d d) t = .next u ∧ u.p[d] = s.p[a])

/-- The coordinates that 42_curve R194 gives for the slope s. -/
def IsThirdPoint (s x1 y1 x2 x3 y3 : Int) : Prop :=
  x3 = (s ^ 2 - x1 - x2) % fieldPrime ∧ y3 = (s * (x1 - x3) - y1) % fieldPrime

/-- 42_curve R194: PADD, the source's cases, with finv(v) = v^(p−2) mod p. Case 5 (y1 = y2 = 0) falls under case 3, as
the rule says. Two curve points always have a sum, and it is on the curve. -/
def Obligations.PaddFollowsTheCases : Prop :=
  ∀ (d a b : PReg) (s : State),
    decode (commandWord 0x27 d a b 0) = .ok (.padd d a b) ∧
    (¬(ReadyPoint s a ∧ ReadyPoint s b) → exec (.padd d a b) s = .next (s.endedError .uninit)) ∧
    (ReadyPoint s a → ReadyPoint s b →
      (s.p[a] = .inf → exec (.padd d a b) s = .next (s.endedPoint d s.p[b])) ∧
      (s.p[b] = .inf → exec (.padd d a b) s = .next (s.endedPoint d s.p[a])) ∧
      (∀ x1 y1 x2 y2 : FieldElem, s.p[a] = .affine x1 y1 → s.p[b] = .affine x2 y2 →
        (x1 = x2 → (y1.val + y2.val) % fieldPrime = 0 → exec (.padd d a b) s = .next (s.endedPoint d .inf)) ∧
        (x1 ≠ x2 → ∃ (sl : Int) (x3 y3 : FieldElem),
          exec (.padd d a b) s = .next (s.endedPoint d (.affine x3 y3)) ∧
          sl = (y2.val - y1.val) * (((x2.val - x1.val) % fieldPrime) ^ (fieldPrime - 2) % fieldPrime) % fieldPrime ∧
          IsThirdPoint sl x1.val y1.val x2.val x3.val y3.val) ∧
        (x1 = x2 → y1 = y2 → y1.val ≠ 0 → ∃ (sl : Int) (x3 y3 : FieldElem),
          exec (.padd d a b) s = .next (s.endedPoint d (.affine x3 y3)) ∧
          sl = 3 * (x1.val : Int) ^ 2 * ((2 * (y1.val : Int) % fieldPrime) ^ (fieldPrime - 2) % fieldPrime) %
            fieldPrime ∧
          IsThirdPoint sl x1.val y1.val x2.val x3.val y3.val)) ∧
      (pointOnCurve s.p[a] = true → pointOnCurve s.p[b] = true →
        ∃ q, exec (.padd d a b) s = .next (s.endedPoint d q) ∧ pointOnCurve q = true))

/-- 42_curve R195, R196: PEQ is structural equality into EQ, PISINF the test for INF. -/
def Obligations.PeqPisinfWriteEq : Prop :=
  (∀ (a b : PReg) (s : State),
    decode (commandWord 0x28 0 a b 0) = .ok (.peq a b) ∧
    (ReadyPoint s a → ReadyPoint s b → ∃ e : Bool, exec (.peq a b) s = .next (s.endedEq e) ∧
      (e = true ↔ (s.p[a] = .inf ∧ s.p[b] = .inf) ∨
        ∃ x1 y1 x2 y2, s.p[a] = .affine x1 y1 ∧ s.p[b] = .affine x2 y2 ∧ x1 = x2 ∧ y1 = y2)) ∧
    (¬(ReadyPoint s a ∧ ReadyPoint s b) → exec (.peq a b) s = .next (s.endedError .uninit))) ∧
  (∀ (a : PReg) (s : State),
    decode (commandWord 0x29 0 a 0 0) = .ok (.pisinf a) ∧
    (ReadyPoint s a → ∃ e : Bool, exec (.pisinf a) s = .next (s.endedEq e) ∧ (e = true ↔ s.p[a] = .inf)) ∧
    (¬ReadyPoint s a → exec (.pisinf a) s = .next (s.endedError .uninit)))

/-- 42_curve R197: PDEC writes (x, c^((p+1)/4) mod p) for c = (x^3 + 7) mod p when that is a root of c, and raises
CURVE when it is not. -/
def Obligations.PdecDecompresses : Prop :=
  ∀ (d : PReg) (a : DReg) (s : State),
    decode (commandWord 0x2A d a 0 0) = .ok (.pdec d a) ∧
    (¬Ready s a → exec (.pdec d a) s = .next (s.endedError .uninit)) ∧
    (Ready s a → ¬Canonical s a → exec (.pdec d a) s = .next (s.endedError .range)) ∧
    (Ready s a → Canonical s a → ∀ c y : Nat, c = (s.r[a].toNat ^ 3 + 7) % fieldPrime →
      y = c ^ ((fieldPrime + 1) / 4) % fieldPrime →
      (y ^ 2 % fieldPrime = c → ∃ x' y' : FieldElem, exec (.pdec d a) s = .next (s.endedPoint d (.affine x' y')) ∧
        x'.val = s.r[a].toNat ∧ y'.val = y) ∧
      (y ^ 2 % fieldPrime ≠ c → exec (.pdec d a) s = .next (s.endedError .curve)))

/-- 42_curve R201: decompressing the x-coordinate of a curve point always succeeds, and gives the point or its
negative. -/
def Obligations.PdecRecoversThePointUpToSign : Prop :=
  ∀ (d q : PReg) (a : DReg) (s : State) (x y : FieldElem), ReadyPoint s q → s.p[q] = .affine x y →
    pointOnCurve s.p[q] = true →
    ∃ t u, exec (.px a q) s = .next t ∧ exec (.pdec d a) t = .next u ∧
      (u.p[d] = s.p[q] ∨ u.p[d] = pointNeg s.p[q]) ∧ ReadyPoint u d

/-- 42_curve R200: on curve points the addition that PADD computes has INF as identity and PNEG as inverse, and is
commutative and associative. -/
def Obligations.CurveGroupLaws : Prop :=
  ∀ q t u : Point, pointOnCurve q = true → pointOnCurve t = true → pointOnCurve u = true →
    pointAdd q .inf = q ∧ pointAdd .inf q = q ∧ pointAdd q (pointNeg q) = .inf ∧ pointAdd q t = pointAdd t q ∧
    pointAdd (pointAdd q t) u = pointAdd q (pointAdd t u)

/-- 43_scalar R221: PMUL is the loop over the 256 bits of k = R[a] mod N, least significant first, from S = INF and
Q = P[b]. -/
def Obligations.PmulIsTheDoubleAndAddLoop : Prop :=
  ∀ (d : PReg) (a : DReg) (b : PReg) (s : State),
    decode (commandWord 0x30 d a b 0) = .ok (.pmul d a b) ∧
    (Ready s a → ReadyPoint s b →
      ∀ k : Nat, k = s.r[a].toNat % 0xFFFFFFFFFFFFFFFFFFFFFFFFFFFFFFFEBAAEDCE6AF48A03BBFD25E8CD0364141 →
      exec (.pmul d a b) s = .next (s.endedPoint d
        ((List.range 256).foldl (fun (sq : Point × Point) i =>
          (if k.testBit i then pointAdd sq.1 sq.2 else sq.1, pointAdd sq.2 sq.2)) (.inf, s.p[b])).1)) ∧
    (¬(Ready s a ∧ ReadyPoint s b) → exec (.pmul d a b) s = .next (s.endedError .uninit))

/-- q added to itself k times, INF for k = 0. -/
def multiple : Nat → Point → Point
  | 0, _ => .inf
  | k + 1, q => pointAdd (multiple k q) q

/-- 43_scalar R223: for a curve point the result of PMUL is the group multiple: P[b] added to itself k = R[a] mod N
times. -/
def Obligations.PmulIsTheGroupMultiple : Prop :=
  ∀ (d : PReg) (a : DReg) (b : PReg) (s : State), Ready s a → ReadyPoint s b → pointOnCurve s.p[b] = true →
    exec (.pmul d a b) s = .next (s.endedPoint d (multiple (s.r[a].toNat % groupOrder) s.p[b]))

/-! ## AES -/

/-- Byte n of a schedule. -/
def scheduleByte (ks : Schedule) (n : Nat) : Byte := ks.toList.getD n 0

/-- The equations of the key expansion (44_aes R249) between the bytes of a schedule and those of its key. -/
def IsExpansion (key : Nat → Byte) (w : Nat → Byte) : Prop :=
  (∀ n < 32, w n = key n) ∧
  (∀ i, 32 ≤ i → i < 240 → i % 32 = 0 →
    w i = w (i - 32) ^^^ (sbox (w (i - 3)) ^^^ rcon (i / 32)) ∧ w (i + 1) = w (i - 31) ^^^ sbox (w (i - 2)) ∧
    w (i + 2) = w (i - 30) ^^^ sbox (w (i - 1)) ∧ w (i + 3) = w (i - 29) ^^^ sbox (w (i - 4))) ∧
  (∀ i, 32 ≤ i → i < 240 → i % 32 = 16 → ∀ k < 4, w (i + k) = w (i - 32 + k) ^^^ sbox (w (i - 4 + k))) ∧
  (∀ i, 32 ≤ i → i < 240 → i % 4 = 0 → i % 32 ≠ 0 → i % 32 ≠ 16 →
    ∀ k < 4, w (i + k) = w (i - 32 + k) ^^^ w (i - 4 + k))

/-- 44_aes R249, R250: KEXP writes the expansion of the key and sets KSV, and writes nothing else. -/
def Obligations.KexpExpandsTheKey : Prop :=
  ∀ (a : DReg) (s : State),
    decode (commandWord 0x40 0 a 0 0) = .ok (.kexp a) ∧
    (Ready s a → ∃ ks : Schedule,
      exec (.kexp a) s = .next { s with ks := ks, ksv := true, inflight := none, done := true } ∧
      IsExpansion (byteOf s.r[a]) (scheduleByte ks)) ∧
    (¬Ready s a → exec (.kexp a) s = .next (s.endedError .uninit))

/-- A key-free AES command: byte n of each lane of the result is f of the source lane (44_aes R241). -/
def LaneCommand (op : Nat) (i : DReg → DReg → Instr) (f : (Nat → Byte) → Nat → Byte) : Prop :=
  ∀ (d a : DReg) (s : State),
    decode (commandWord op d a 0 0) = .ok (i d a) ∧
    (Ready s a → ∃ x : Data, exec (i d a) s = .next (s.endedData d x) ∧
      ∀ lane < 2, ∀ n < 16, byteOf x (16 * lane + n) = f (fun m => byteOf s.r[a] (16 * lane + m)) n) ∧
    (¬Ready s a → exec (i d a) s = .next (s.endedError .uninit))

/-- Byte r + 4c of a product with the circulant matrix whose first row is m (44_aes R246). -/
def circulant (m : Nat → Byte) (s : Nat → Byte) (n : Nat) : Byte :=
  let r := n % 4
  let c := n / 4
  gmul (s (4 * c)) (m ((4 - r) % 4)) ^^^ gmul (s (4 * c + 1)) (m ((5 - r) % 4)) ^^^
    gmul (s (4 * c + 2)) (m ((6 - r) % 4)) ^^^ gmul (s (4 * c + 3)) (m ((7 - r) % 4))

/-- 44_aes R272 to R277: the six key-free round steps, from the rules R251 to R256 of the transforms, with the
matrices of R246. -/
def Obligations.RoundStepsTransformLanes : Prop :=
  LaneCommand 0x43 .asub (fun s n => sbox (s n)) ∧
  LaneCommand 0x44 .aisub (fun s n => isbox (s n)) ∧
  LaneCommand 0x45 .ashr (fun s n => s (n % 4 + 4 * ((n / 4 + n % 4) % 4))) ∧
  LaneCommand 0x46 .aishr (fun s n => s (n % 4 + 4 * ((n / 4 + 4 - n % 4) % 4))) ∧
  LaneCommand 0x47 .amix (circulant fun k => [2, 3, 1, 1].getD k 0) ∧
  LaneCommand 0x48 .aimix (circulant fun k => [14, 11, 13, 9].getD k 0)

/-- 44_aes R278: AARK XORs round key k into both lanes; k = 15 is ILLEGAL at decoding. -/
def Obligations.AarkAddsTheRoundKey : Prop :=
  ∀ (d a : DReg) (k : Imm4) (s : State),
    (k.val ≤ 14 → decode (commandWord 0x49 d a 0 k) = .ok (.aark d a k)) ∧
    (k.val = 15 → decode (commandWord 0x49 d a 0 k) = .error .roundNumber) ∧
    (k.val ≤ 14 → Ready s a → s.ksv = true → ∃ x : Data, exec (.aark d a k) s = .next (s.endedData d x) ∧
      ∀ lane < 2, ∀ n < 16,
        byteOf x (16 * lane + n) = byteOf s.r[a] (16 * lane + n) ^^^ scheduleByte s.ks (16 * k + n)) ∧
    (k.val ≤ 14 → ¬Ready s a → exec (.aark d a k) s = .next (s.endedError .uninit)) ∧
    (k.val ≤ 14 → Ready s a → s.ksv = false → exec (.aark d a k) s = .next (s.endedError .nokey))

/-- `out` is EncryptBlock(`block`): the states after each round, from AddRoundKey(0) on (44_aes R257). -/
def IsEncryption (ks : Schedule) (block out : Lane) : Prop :=
  ∃ st : Nat → Lane, st 0 = addRoundKey ks 0 block ∧
    (∀ k : Fin 15, 1 ≤ k.val → k.val ≤ 13 →
      st k = addRoundKey ks k (mixColumns (shiftRows (subBytes (st (k - 1)))))) ∧
    out = addRoundKey ks 14 (shiftRows (subBytes (st 13)))

/-- `out` is DecryptBlock(`block`): the states before each round's AddRoundKey, counting down (44_aes R258). -/
def IsDecryption (ks : Schedule) (block out : Lane) : Prop :=
  ∃ st : Nat → Lane, st 13 = invSubBytes (invShiftRows (addRoundKey ks 14 block)) ∧
    (∀ k : Fin 15, 1 ≤ k.val → k.val ≤ 13 →
      st (k - 1) = invSubBytes (invShiftRows (invMixColumns (addRoundKey ks k (st k))))) ∧
    out = addRoundKey ks 0 (st 0)

/-- An AES command that runs a block operation on both lanes under the schedule. -/
def BlockCommand (op : Nat) (i : DReg → DReg → Instr) (rel : Schedule → Lane → Lane → Prop) : Prop :=
  ∀ (d a : DReg) (s : State),
    decode (commandWord op d a 0 0) = .ok (i d a) ∧
    (Ready s a → s.ksv = true → ∃ x : Data, exec (i d a) s = .next (s.endedData d x) ∧
      rel s.ks (lane0 s.r[a]) (lane0 x) ∧ rel s.ks (lane1 s.r[a]) (lane1 x)) ∧
    (¬Ready s a → exec (i d a) s = .next (s.endedError .uninit)) ∧
    (Ready s a → s.ksv = false → exec (i d a) s = .next (s.endedError .nokey))

/-- 44_aes R270, R271: AESE and AESD run the rounds of R257 and R258 on each lane. -/
def Obligations.AeseAesdRunTheRounds : Prop :=
  BlockCommand 0x41 .aese IsEncryption ∧ BlockCommand 0x42 .aesd IsDecryption

/-- 44_aes R260: the inverse pairs, in both orders, and the commutations of the byte substitutions with the row
shifts. -/
def Obligations.RoundTransformsInvert : Prop :=
  ∀ (s : Lane) (ks : Schedule) (k : Fin 15),
    invSubBytes (subBytes s) = s ∧ subBytes (invSubBytes s) = s ∧
    invShiftRows (shiftRows s) = s ∧ shiftRows (invShiftRows s) = s ∧
    invMixColumns (mixColumns s) = s ∧ mixColumns (invMixColumns s) = s ∧
    addRoundKey ks k (addRoundKey ks k s) = s ∧
    subBytes (shiftRows s) = shiftRows (subBytes s) ∧ subBytes (invShiftRows s) = invShiftRows (subBytes s) ∧
    invSubBytes (shiftRows s) = shiftRows (invSubBytes s) ∧
    invSubBytes (invShiftRows s) = invShiftRows (invSubBytes s)

/-- 44_aes R258, R271: AESD after AESE under the same schedule restores the chunk, whatever the schedule holds. -/
def Obligations.DecryptionInvertsEncryption : Prop :=
  ∀ (d e a : DReg) (s : State), Ready s a → s.ksv = true →
    ∃ t u, exec (.aese d a) s = .next t ∧ exec (.aesd e d) t = .next u ∧ u.r[e] = s.r[a] ∧ Ready u e

/-- The single-step program of 44_aes R279 on R[a]. -/
def singleSteps (a : DReg) : List Instr :=
  .aark a a 0 ::
    (([1, 2, 3, 4, 5, 6, 7, 8, 9, 10, 11, 12, 13] : List Imm4).flatMap
      fun k => [.asub a a, .ashr a a, .amix a a, .aark a a k]) ++
    [.asub a a, .ashr a a, .aark a a 14]

/-- 44_aes R279: the single-step commands reproduce AESE: run one after another they end in the state AESE ends in. -/
def Obligations.SingleStepsComposeToAese : Prop :=
  ∀ (a : DReg) (s : State), Ready s a → s.ksv = true →
    ∃ t, exec (.aese a a) s = .next t ∧ execAll (singleSteps a) s = .next t

/-! ## The whole machine -/

/-- 10_state R38: exactly PEQ and PISINF write EQ; a command that raises an error does not; no command's other
effects depend on EQ; and no host access changes it but a reset. -/
def Obligations.OnlyComparisonsWriteEq : Prop :=
  (∀ (i : Instr) (s t : State), exec i s = .next t →
    (∀ a b, i ≠ .peq a b) → (∀ a, i ≠ .pisinf a) → t.eqFlag = s.eqFlag) ∧
  (∀ (i : Instr) (s t : State), s.err = false → exec i s = .next t → t.err = true → t.eqFlag = s.eqFlag) ∧
  (∀ (i : Instr) (s t : State) (b : Bool), exec i s = .next t →
    ∃ b', exec i { s with eqFlag := b } = .next { t with eqFlag := b' }) ∧
  (∀ (s t : State) (a : HostAccess), stepOn (.host a) s = .next t →
    t.eqFlag = s.eqFlag ∨ (t.eqFlag = false ∧ ∃ w : Word, a = .write 0x004 4 w ∧ w.getLsbD 0 = true))

/-- 10_state R39, R40: only KEXP writes the key schedule and KSV, and nothing but a reset clears KSV. -/
def Obligations.OnlyKexpWritesTheSchedule : Prop :=
  (∀ (i : Instr) (s t : State), exec i s = .next t → (∀ a, i ≠ .kexp a) → t.ks = s.ks ∧ t.ksv = s.ksv) ∧
  (∀ (i : Instr) (s t : State), exec i s = .next t → s.ksv = true → t.ksv = true) ∧
  (∀ (s t : State) (a : HostAccess), stepOn (.host a) s = .next t →
    (t.ks = s.ks ∧ t.ksv = s.ksv) ∨ (t.ksv = false ∧ ∃ w : Word, a = .write 0x004 4 w ∧ w.getLsbD 0 = true))

/-- 10_state R35: the point-register invariant is kept by every step, of the host, the engine or a reset. After a reset
no point register is valid, and its contents are the model's choice (log entry 2); they meet the invariant too. -/
def Obligations.EveryStepKeepsPointsOnTheCurve : Prop :=
  ∀ s t : State, PointsOnCurve s → step s = .next t → PointsOnCurve t

/-- Every step keeps the handshake (a command in flight is CMD_LAST, with DONE and ERR 0), the error record (ERR = 1
exactly when ECODE is not NONE) and the schedule (KSV = 1 only while KS is the expansion of some key). -/
def Obligations.EveryStepKeepsTheBookkeeping : Prop :=
  ∀ s t : State, HandshakeOk s → ErrorRecordOk s → ScheduleOk s → step s = .next t →
    HandshakeOk t ∧ ErrorRecordOk t ∧ ScheduleOk t

/-- The invariants hold in the state after reset. The contents the model gives the point registers there are log
entry 2's. -/
def Obligations.ResetMeetsTheInvariants : Prop :=
  PointsOnCurve State.reset ∧ HandshakeOk State.reset ∧ ErrorRecordOk State.reset ∧ ScheduleOk State.reset

/-- 10_state R48, 70_reset R376: the contents of registers that are not valid have no value that matters: two states
that agree on everything else show the host the same, make the same step, and agree after it in the same way. So nothing
that can be observed rests on the contents the model chose for reset (log entries 1 to 3). -/
def Obligations.InvalidContentIsUnobservable : Prop :=
  ∀ s t : State, SameValidContent s t → s.observation = t.observation ∧ SameOutcome (step s) (step t)
end

