-- ==== Sys2Proof/Laws/Aes.lean ====
section
/-! SUPPORT. Lanes as byte strings, the tables and GF(2^8) products (44_aes R241 to R247), and what key expansion
appends. -/

namespace Sys2Proof.Machine

/-! ### Lanes -/

@[simp] theorem Lane.build_get (f : Fin 16 → Byte) (i : Nat) (h : i < 16) : (Lane.build f)[i] = f ⟨i, h⟩ := by
  have key : ∀ j : Fin 16, (Lane.build f)[j] = f j := by
    intro j
    fin_cases j <;> rfl
  exact key ⟨i, h⟩

theorem Lane.ext {s t : Lane} (h : ∀ i : Fin 16, s[i] = t[i]) : s = t :=
  Vector.ext fun i hi => h ⟨i, hi⟩

/-- The integer of a byte string fits in its bytes. -/
theorem intOfBytes_lt (l : List Byte) : intOfBytes l < 256 ^ l.length := by
  induction l with
  | nil => simp [intOfBytes]
  | cons b l ih =>
    have hb : b.toNat < 256 := b.isLt
    rw [intOfBytes, List.length_cons, pow_succ]
    nlinarith

/-- Byte i of the integer of a byte string is the string's byte i (00_scope R12). -/
theorem intOfBytes_byte (l : List Byte) (i : Nat) (h : i < l.length) :
    intOfBytes l / 256 ^ (l.length - 1 - i) % 256 = l[i].toNat := by
  induction l generalizing i with
  | nil => simp at h
  | cons b l ih =>
    rw [intOfBytes]
    have hlt := intOfBytes_lt l
    have hpos : 0 < 256 ^ l.length := by positivity
    cases i with
    | zero =>
      have hb : b.toNat < 256 := b.isLt
      simp only [List.length_cons, Nat.add_sub_cancel, Nat.sub_zero, List.getElem_cons_zero]
      rw [Nat.add_comm, Nat.add_mul_div_right _ _ hpos, Nat.div_eq_of_lt hlt, Nat.zero_add,
        Nat.mod_eq_of_lt hb]
    | succ i =>
      simp only [List.length_cons, Nat.add_sub_cancel, List.getElem_cons_succ]
      have hi : i < l.length := by simpa using h
      rw [← ih i hi, show l.length - (i + 1) = l.length - 1 - i by omega]
      have hsplit : b.toNat * 256 ^ l.length
          = 256 ^ (l.length - 1 - i) * (256 * (b.toNat * 256 ^ i)) := by
        rw [show b.toNat * 256 ^ l.length = b.toNat * 256 ^ (l.length - 1 - i + 1 + i) by
          congr 2; omega]
        ring
      rw [hsplit, Nat.mul_add_div (by positivity), Nat.mul_add_mod]

theorem joinLanes_toNat (a b : Lane) : (joinLanes a b).toNat = intOfBytes (a.toList ++ b.toList) := by
  rw [joinLanes, BitVec.toNat_ofNat, Nat.mod_eq_of_lt]
  have h := intOfBytes_lt (a.toList ++ b.toList)
  simpa using h

theorem byteOf_toNat (v : Data) (i : Nat) :
    (byteOf v i).toNat = v.toNat / 256 ^ (31 - i) % 256 := by
  rw [byteOf, BitVec.extractLsb'_toNat, Nat.shiftRight_eq_div_pow, pow_mul]
  rfl

/-- The bytes of a ‖ b are those of a and then those of b (00_scope R13). -/
theorem byteOf_joinLanes (a b : Lane) (i : Nat) (h : i < 32) :
    byteOf (joinLanes a b) i = (a.toList ++ b.toList)[i]'(by simpa using h) := by
  apply BitVec.eq_of_toNat_eq
  rw [byteOf_toNat, joinLanes_toNat]
  have := intOfBytes_byte (a.toList ++ b.toList) i (by simpa using h)
  simpa using this

@[simp] theorem lane0_joinLanes (a b : Lane) : lane0 (joinLanes a b) = a := by
  apply Lane.ext
  intro i
  rw [lane0]
  simp only [Fin.getElem_fin, Lane.build_get]
  rw [byteOf_joinLanes _ _ _ (by omega), List.getElem_append_left (by simp)]
  simp

@[simp] theorem lane1_joinLanes (a b : Lane) : lane1 (joinLanes a b) = b := by
  apply Lane.ext
  intro i
  rw [lane1]
  simp only [Fin.getElem_fin, Lane.build_get]
  rw [byteOf_joinLanes _ _ _ (by omega), List.getElem_append_right (by simp)]
  simp

/-- A value is determined by its bytes. -/
theorem data_ext {v w : Data} (h : ∀ i < 32, byteOf v i = byteOf w i) : v = w := by
  apply BitVec.eq_of_getLsbD_eq
  intro k hk
  have := congrArg (fun b : Byte => b.getLsbD (k % 8)) (h (31 - k / 8) (by omega))
  simp only [byteOf, BitVec.getLsbD_extractLsb'] at this
  rw [show 8 * (31 - (31 - k / 8)) + k % 8 = k by omega] at this
  simpa [Nat.mod_lt] using this

@[simp] theorem joinLanes_lanes (v : Data) : joinLanes (lane0 v) (lane1 v) = v := by
  apply data_ext
  intro i hi
  rw [byteOf_joinLanes _ _ _ hi]
  by_cases h : i < 16
  · rw [List.getElem_append_left (by simpa using h)]
    simp [lane0]
  · rw [List.getElem_append_right (by simpa using h)]
    simp only [Vector.length_toList, Vector.getElem_toList, lane1, Lane.build_get]
    congr 1; omega

/-- Composition of lane transforms (44_aes R241). -/
theorem onLanes_onLanes (f g : Lane → Lane) (v : Data) : onLanes f (onLanes g v) = onLanes (fun s => f (g s)) v := by
  simp [onLanes]

theorem onLanes_id (f : Lane → Lane) (h : ∀ s, f s = s) (v : Data) : onLanes f v = v := by
  simp [onLanes, h]

/-! ### Tables and products -/

theorem isbox_sbox : ∀ x : Byte, isbox (sbox x) = x := by decide +kernel

theorem sbox_isbox : ∀ x : Byte, sbox (isbox x) = x := by decide +kernel

theorem xtime_xor (a b : Byte) : xtime (a ^^^ b) = xtime a ^^^ xtime b := by
  have h (x y c d : Byte) : x ^^^ y ^^^ (c ^^^ d) = x ^^^ c ^^^ (y ^^^ d) := by ac_rfl
  rw [xtime, xtime, xtime, BitVec.shiftLeft_xor_distrib, BitVec.getLsbD_xor, ← h]
  congr 1
  cases a.getLsbD 7 <;> cases b.getLsbD 7 <;> rfl

theorem xtimeN_xor (i : Nat) (a b : Byte) : xtimeN i (a ^^^ b) = xtimeN i a ^^^ xtimeN i b := by
  induction i with
  | zero => rfl
  | succ i ih => rw [xtimeN, ih, xtime_xor]; rfl

/-- Multiplication by a constant distributes over ⊕. -/
theorem gmul_xor (m a b : Byte) : gmul (a ^^^ b) m = gmul a m ^^^ gmul b m := by
  have key : ∀ (l : List Nat) (x y : Byte),
      l.foldl (fun acc i => if m.getLsbD i then acc ^^^ xtimeN i (a ^^^ b) else acc) (x ^^^ y) =
        l.foldl (fun acc i => if m.getLsbD i then acc ^^^ xtimeN i a else acc) x ^^^
          l.foldl (fun acc i => if m.getLsbD i then acc ^^^ xtimeN i b else acc) y := by
    intro l
    induction l with
    | nil => intro x y; rfl
    | cons i l ih =>
      intro x y
      simp only [List.foldl_cons]
      split
      · rw [← ih, xtimeN_xor]; congr 1; ac_rfl
      · exact ih x y
  simpa [gmul] using key (List.range 8) 0 0

/-! ### Key expansion -/

/-- The groups that were there stay where they were, counted from the oldest. -/
theorem expandGroups_reverse (n i : Nat) (gs : List Quad) :
    ∃ more, more.length = n ∧ (expandGroups n i gs).reverse = gs.reverse ++ more := by
  induction n generalizing i gs with
  | zero => exact ⟨[], rfl, by simp [expandGroups]⟩
  | succ n ih =>
    rw [expandGroups]
    obtain ⟨more, hl, he⟩ := ih (i + 4) _
    exact ⟨_ :: more, by simp [hl], by rw [he]; simp; rfl⟩

end Sys2Proof.Machine
end

