-- ==== Sys2Proof/Laws/Prime.lean ====
section
/-! SUPPORT. Modular powers, and that p is prime (41_field R140), by a Pratt certificate. -/

namespace Sys2Proof.Machine

/-- The square-and-multiply loop computes the power it stands for. -/
theorem powMod_eq (m n b e : Nat) (he : e < 2 ^ n) : powMod m n b e = b ^ e % m := by
  induction n generalizing b e with
  | zero => obtain rfl : e = 0 := by simpa using he
            simp [powMod]
  | succ n ih =>
    have hd : e / 2 < 2 ^ n := by rw [pow_succ] at he; omega
    have hsq : (b * b % m) ^ (e / 2) % m = b ^ (2 * (e / 2)) % m := by
      rw [← Nat.pow_mod, ← pow_two, ← pow_mul]
    simp only [powMod, ih _ _ hd, hsq]
    split
    · rename_i h
      rw [Nat.mul_mod_mod, ← pow_succ']
      congr 2; omega
    · congr 2; omega

/-- Lucas' test on natural numbers: `fs` lists the prime factors of n − 1, and a has order n − 1. -/
theorem prime_of_certificate (n a : Nat) (fs : List Nat) (hlt : n < 2 ^ 256) (h1 : 1 < n)
    (hprime : ∀ q ∈ fs, q.Prime) (hprod : fs.prod = n - 1) (hone : powMod n 256 a (n - 1) = 1)
    (hne : ∀ q ∈ fs, powMod n 256 a ((n - 1) / q) ≠ 1) : n.Prime := by
  have key (e : Nat) (he : e < 2 ^ 256) : ((a : ZMod n) ^ e = 1) ↔ powMod n 256 a e = 1 := by
    rw [powMod_eq _ _ _ _ he]
    have h : ((a ^ e : Nat) : ZMod n) = ((1 : Nat) : ZMod n) ↔ _ := ZMod.natCast_eq_natCast_iff' _ _ _
    rw [Nat.mod_eq_of_lt h1] at h
    exact_mod_cast h
  refine lucas_primality n (a : ZMod n) ((key _ (by omega)).2 hone) fun q hq hdvd h => ?_
  rw [← hprod] at hdvd
  obtain ⟨r, hr, hqr⟩ := (Prime.dvd_prod_iff hq.prime).1 hdvd
  obtain rfl := (Nat.prime_dvd_prime_iff_eq hq (hprime r hr)).1 hqr
  exact hne q hr ((key _ (lt_of_le_of_lt (Nat.div_le_self _ _) (by omega))).1 h)

namespace Pratt

theorem prime_a : Nat.Prime 7240687 := by norm_num
theorem prime_b : Nat.Prime 107590001 := by norm_num
theorem prime_c : Nat.Prime 13331831 := by norm_num

theorem prime_d : Nat.Prime 255515944373312847190720520512484175977 :=
  prime_of_certificate _ 3 [2, 2, 2, 7, 7, 11, 1627, 2657, 4423, 41201, 96557, 7240687, 107590001]
    (by decide) (by decide)
    (by
      simp only [List.forall_mem_cons]
      exact ⟨by norm_num, by norm_num, by norm_num, by norm_num, by norm_num, by norm_num, by norm_num, by norm_num,
        by norm_num, by norm_num, by norm_num, prime_a, prime_b, by simp⟩)
    (by decide +kernel) (by decide +kernel) (by decide +kernel)

theorem prime_e : Nat.Prime 173378833005251801 :=
  prime_of_certificate _ 6 [2, 2, 2, 5, 5, 2621, 24809, 13331831] (by decide) (by decide)
    (by
      simp only [List.forall_mem_cons]
      exact ⟨by norm_num, by norm_num, by norm_num, by norm_num, by norm_num, by norm_num, by norm_num, prime_c,
        by simp⟩)
    (by decide +kernel) (by decide +kernel) (by decide +kernel)

theorem prime_f : Nat.Prime 22149492674086928081353 :=
  prime_of_certificate _ 5 [2, 2, 2, 3, 5323, 173378833005251801] (by decide) (by decide)
    (by
      simp only [List.forall_mem_cons]
      exact ⟨by norm_num, by norm_num, by norm_num, by norm_num, by norm_num, prime_e, by simp⟩)
    (by decide +kernel) (by decide +kernel) (by decide +kernel)

theorem prime_g : Nat.Prime 132896956044521568488119 :=
  prime_of_certificate _ 6 [2, 3, 22149492674086928081353] (by decide) (by decide)
    (by
      simp only [List.forall_mem_cons]
      exact ⟨by norm_num, by norm_num, prime_f, by simp⟩)
    (by decide +kernel) (by decide +kernel) (by decide +kernel)

theorem prime_h : Nat.Prime 205115282021455665897114700593932402728804164701536103180137503955397371 :=
  prime_of_certificate _ 10
    [2, 3, 5, 29, 29, 31, 7723, 132896956044521568488119, 255515944373312847190720520512484175977]
    (by decide) (by decide)
    (by
      simp only [List.forall_mem_cons]
      exact ⟨by norm_num, by norm_num, by norm_num, by norm_num, by norm_num, by norm_num, by norm_num, prime_g,
        prime_d, by simp⟩)
    (by decide +kernel) (by decide +kernel) (by decide +kernel)

end Pratt

/-- p is prime (41_field R140). -/
theorem fieldPrime_prime : Nat.Prime fieldPrime :=
  prime_of_certificate _ 3 [2, 3, 7, 13441, 205115282021455665897114700593932402728804164701536103180137503955397371]
    (by decide) (by decide)
    (by
      simp only [List.forall_mem_cons]
      exact ⟨by norm_num, by norm_num, by norm_num, by norm_num, Pratt.prime_h, by simp⟩)
    (by decide +kernel) (by decide +kernel) (by decide +kernel)

end Sys2Proof.Machine
end

