-- ==== Sys2Proof/Laws/Field.lean ====
section
/-! SUPPORT. What each field operation computes, as an equation in ZMod p, and the inverse and square-root laws
(41_field R148, R152, R157). -/

namespace Sys2Proof.Machine

abbrev Zp := ZMod fieldPrime

/-- A field element as an element of the field ZMod p. -/
def FieldElem.toZ (x : FieldElem) : Zp := (x.val : Zp)

theorem residue_val (z : Int) : ((residue z).val : Int) = z % (fieldPrime : Int) := by
  have hp : (fieldPrime : Int) ≠ 0 := by exact_mod_cast fieldPrime_pos.ne'
  simp [residue, Int.toNat_of_nonneg (Int.emod_nonneg z hp)]

theorem residue_natCast_val (n : Nat) : (residue (n : Int)).val = n % fieldPrime := by
  have := residue_val n
  exact_mod_cast this

/-- A reduced value stands for the integer it was reduced from. -/
theorem toZ_residue (z : Int) : (residue z).toZ = (z : Zp) := by
  have h : (((residue z).val : Int) : Zp) = ((z % (fieldPrime : Int) : Int) : Zp) := by rw [residue_val]
  rw [ZMod.intCast_mod] at h
  exact_mod_cast h

theorem toZ_injective : Function.Injective FieldElem.toZ := fun x y h => by
  have h := (ZMod.natCast_eq_natCast_iff' _ _ _).1 h
  rw [Nat.mod_eq_of_lt x.isLt, Nat.mod_eq_of_lt y.isLt] at h
  exact Fin.ext h

theorem toZ_inj {x y : FieldElem} : x.toZ = y.toZ ↔ x = y := toZ_injective.eq_iff

theorem toZ_eq_zero {x : FieldElem} : x.toZ = 0 ↔ x.val = 0 := by
  refine ⟨fun h => ?_, fun h => by simp [FieldElem.toZ, h]⟩
  have h := (ZMod.natCast_eq_zero_iff _ _).1 h
  exact Nat.eq_zero_of_dvd_of_lt h x.isLt

theorem toZ_feAdd (x y : FieldElem) : (feAdd x y).toZ = x.toZ + y.toZ := by
  rw [feAdd, toZ_residue]; push_cast; rfl

theorem toZ_feSub (x y : FieldElem) : (feSub x y).toZ = x.toZ - y.toZ := by
  rw [feSub, toZ_residue]; push_cast; rfl

theorem toZ_feMul (x y : FieldElem) : (feMul x y).toZ = x.toZ * y.toZ := by
  rw [feMul, toZ_residue]; push_cast; rfl

theorem fePow_val (x : FieldElem) (e : Nat) (he : e < 2 ^ 256) : (fePow x e).val = x.val ^ e % fieldPrime := by
  rw [fePow, residue_natCast_val, powMod_eq _ _ _ _ he, Nat.mod_mod]

theorem toZ_fePow (x : FieldElem) (e : Nat) (he : e < 2 ^ 256) : (fePow x e).toZ = x.toZ ^ e := by
  rw [FieldElem.toZ, fePow_val x e he, ZMod.natCast_mod, FieldElem.toZ, Nat.cast_pow]

theorem fieldPrime_fact : Fact fieldPrime.Prime := ⟨fieldPrime_prime⟩

/-- finv is the inverse of every non-zero element (41_field R152). -/
theorem toZ_mul_feInv (x : FieldElem) (hx : x.val ≠ 0) : x.toZ * (feInv x).toZ = 1 := by
  have := fieldPrime_fact
  rw [feInv, toZ_fePow _ _ (by decide), ← pow_succ']
  exact ZMod.pow_card_sub_one_eq_one (mt toZ_eq_zero.1 hx)

theorem toZ_feInv (x : FieldElem) (hx : x.val ≠ 0) :
    haveI := fieldPrime_fact
    (feInv x).toZ = (x.toZ)⁻¹ := by
  have := fieldPrime_fact
  exact eq_inv_of_mul_eq_one_right (toZ_mul_feInv x hx)

theorem mul_feInv_mod (x : FieldElem) (hx : x.val ≠ 0) : x.val * (feInv x).val % fieldPrime = 1 := by
  have h : ((x.val * (feInv x).val : Nat) : Zp) = ((1 : Nat) : Zp) := by
    rw [Nat.cast_mul, Nat.cast_one]; exact toZ_mul_feInv x hx
  exact ((ZMod.natCast_eq_natCast_iff' _ _ _).1 h).trans (by decide)

/-- The square of the principal root is a or −a, and it is a exactly when a is a square (41_field R157). -/
theorem toZ_feSqrt_sq (x : FieldElem) : (feSqrt x).toZ ^ 2 = x.toZ ∨ (feSqrt x).toZ ^ 2 = -x.toZ := by
  have := fieldPrime_fact
  rw [feSqrt, toZ_fePow _ _ (by decide), ← pow_mul]
  by_cases h0 : x.toZ = 0
  · left; rw [h0]; exact zero_pow (by decide)
  · have h1 : (x.toZ ^ (fieldPrime / 2)) ^ 2 = 1 := by
      rw [← pow_mul]; exact ZMod.pow_card_sub_one_eq_one h0
    have h2 : x.toZ ^ ((fieldPrime + 1) / 4 * 2) = x.toZ ^ (fieldPrime / 2) * x.toZ := by
      rw [← pow_succ]; rfl
    rw [h2]
    rcases sq_eq_one_iff.1 h1 with h | h <;> simp [h]

theorem toData_toNat (x : FieldElem) : x.toData.toNat = x.val := by
  have : x.val < 2 ^ 256 := lt_trans x.isLt (by decide)
  rw [FieldElem.toData, BitVec.toNat_ofNat, Nat.mod_eq_of_lt this]

end Sys2Proof.Machine
end

