-- ==== Sys2Proof/Laws/Curve.lean ====
section
/-! SUPPORT. The affine formulas of 42_curve R194 are the group law of the Weierstrass curve y² = x³ + 7 over
ZMod p: closure, negation, commutativity and associativity of `pointAdd` follow from Mathlib's group. -/

namespace Sys2Proof.Machine

/-- y² = x³ + 7 over ZMod p. -/
def secp : WeierstrassCurve.Affine Zp := ⟨0, 0, 0, 0, 7⟩

theorem fieldPrime_ne (n : Nat) (h0 : 0 < n) (h : n < fieldPrime) : ((n : Nat) : Zp) ≠ 0 := fun hz =>
  absurd (Nat.le_of_dvd h0 ((ZMod.natCast_eq_zero_iff _ _).1 hz)) (not_le.2 h)

theorem secp_nonsingular (x y : Zp) : secp.Nonsingular x y ↔ y ^ 2 = x ^ 3 + 7 := by
  have := fieldPrime_fact
  have hΔ : secp.Δ ≠ 0 := by
    have h : secp.Δ = -((21168 : Nat) : Zp) := by
      simp only [secp, WeierstrassCurve.Δ, WeierstrassCurve.b₂, WeierstrassCurve.b₄, WeierstrassCurve.b₆,
        WeierstrassCurve.b₈]
      push_cast; ring
    rw [h, neg_ne_zero]
    exact fieldPrime_ne _ (by decide) (by decide)
  rw [← WeierstrassCurve.Affine.equation_iff_nonsingular_of_Δ_ne_zero hΔ, WeierstrassCurve.Affine.equation_iff]
  simp [secp]

theorem toZ_curveRhs (x : FieldElem) : (curveRhs x).toZ = x.toZ ^ 3 + 7 := by
  rw [curveRhs, toZ_residue, FieldElem.toZ]
  simp only [curveA, curveB]
  push_cast; ring

theorem onCurve_iff (x y : FieldElem) : onCurve x y = true ↔ y.toZ ^ 2 = x.toZ ^ 3 + 7 := by
  rw [onCurve, beq_iff_eq, ← toZ_inj, toZ_feMul, toZ_curveRhs, pow_two]

/-- The group of points of the curve. -/
abbrev SecpPoint := WeierstrassCurve.Affine.Point secp

/-- The point register value q stands for the group element. -/
def Rep : Point → SecpPoint → Prop
  | .inf, .zero => True
  | .affine x y, .some X Y _ => x.toZ = X ∧ y.toZ = Y
  | _, _ => False

/-- The values that stand for a group element are those 10_state R35 allows. -/
theorem pointOnCurve_iff (q : Point) : pointOnCurve q = true ↔ ∃ a, Rep q a := by
  cases q with
  | inf => exact ⟨fun _ => ⟨.zero, trivial⟩, fun _ => rfl⟩
  | affine x y =>
    rw [pointOnCurve, onCurve_iff, ← secp_nonsingular]
    refine ⟨fun h => ⟨.some _ _ h, rfl, rfl⟩, ?_⟩
    rintro ⟨_ | ⟨X, Y, h⟩, hr⟩
    · exact hr.elim
    · obtain ⟨rfl, rfl⟩ := hr; exact h

/-- Two values stand for the same group element only if they are equal. -/
theorem Rep.inj {q t : Point} {a : SecpPoint} (hq : Rep q a) (ht : Rep t a) : q = t := by
  cases q <;> cases t <;> cases a <;> simp only [Rep] at hq ht
  · rfl
  · obtain ⟨rfl, rfl⟩ := hq
    rw [toZ_inj, toZ_inj] at ht
    rw [ht.1, ht.2]

/-- A value stands for one group element. -/
theorem Rep.unique {q : Point} {a b : SecpPoint} (ha : Rep q a) (hb : Rep q b) : a = b := by
  cases q <;> cases a <;> cases b <;> simp only [Rep] at ha hb
  · rfl
  · obtain ⟨rfl, rfl⟩ := ha
    obtain ⟨rfl, rfl⟩ := hb
    rfl

theorem rep_inf : Rep .inf 0 := trivial

/-- PNEG is the negation of the group (42_curve R191). -/
theorem Rep.neg {q : Point} {a : SecpPoint} (h : Rep q a) : Rep (pointNeg q) (-a) := by
  cases q <;> cases a <;> simp only [Rep] at h
  · trivial
  · obtain ⟨rfl, rfl⟩ := h
    refine ⟨rfl, ?_⟩
    rw [toZ_residue]
    simp [WeierstrassCurve.Affine.negY, secp, FieldElem.toZ]

theorem toZ_add_eq_zero (y z : FieldElem) : (y.val + z.val) % fieldPrime = 0 ↔ y.toZ + z.toZ = 0 := by
  rw [FieldElem.toZ, FieldElem.toZ, ← Nat.cast_add, ZMod.natCast_eq_zero_iff, Nat.dvd_iff_mod_eq_zero]

theorem toZ_chordSlope (x1 y1 x2 y2 : FieldElem) (h : x1 ≠ x2) :
    have := fieldPrime_fact
    (chordSlope x1 y1 x2 y2).toZ = (y1.toZ - y2.toZ) / (x1.toZ - x2.toZ) := by
  intro _
  have hd : (residue ((x2.val : Int) - x1.val)).toZ = x2.toZ - x1.toZ := by rw [toZ_residue]; push_cast; rfl
  have h0 : (residue ((x2.val : Int) - x1.val)).val ≠ 0 := by
    rw [Ne, ← toZ_eq_zero, hd, sub_eq_zero, toZ_inj]; exact fun e => h e.symm
  have hi := toZ_feInv _ h0
  rw [hd] at hi
  rw [chordSlope, toZ_residue]
  push_cast
  change (y2.toZ - y1.toZ) * (feInv _).toZ = _
  rw [hi, ← neg_sub y1.toZ, ← neg_sub x1.toZ, div_eq_mul_inv, inv_neg, neg_mul_neg]

theorem toZ_tangentSlope (x1 y1 : FieldElem) (h : y1.val ≠ 0) :
    have := fieldPrime_fact
    (tangentSlope x1 y1).toZ = 3 * x1.toZ ^ 2 / (2 * y1.toZ) := by
  intro _
  have hd : (residue (2 * (y1.val : Int))).toZ = 2 * y1.toZ := by rw [toZ_residue]; push_cast; rfl
  have h0 : (residue (2 * (y1.val : Int))).val ≠ 0 := by
    rw [Ne, ← toZ_eq_zero, hd]
    exact mul_ne_zero (by exact_mod_cast fieldPrime_ne 2 (by decide) (by decide)) (mt toZ_eq_zero.1 h)
  have hi := toZ_feInv _ h0
  rw [hd] at hi
  rw [tangentSlope, toZ_residue]
  simp only [curveA]
  push_cast
  change (3 * (x1.toZ * x1.toZ) + 0) * (feInv _).toZ = _
  rw [hi, add_zero, pow_two, div_eq_mul_inv]

theorem thirdPoint_rep (s x1 y1 x2 : FieldElem) {ℓ X1 X2 Y1 : Zp} (hs : s.toZ = ℓ) (h1 : x1.toZ = X1)
    (h2 : x2.toZ = X2) (hy : y1.toZ = Y1) (hn : secp.Nonsingular (secp.addX X1 X2 ℓ) (secp.addY X1 X2 Y1 ℓ)) :
    Rep (thirdPoint s x1 y1 x2) (.some _ _ hn) := by
  subst hs h1 h2 hy
  have hx : (residue ((s.val : Int) * s.val - x1.val - x2.val)).toZ = secp.addX x1.toZ x2.toZ s.toZ := by
    rw [toZ_residue]; push_cast
    simp only [WeierstrassCurve.Affine.addX, secp, FieldElem.toZ]; ring
  refine ⟨hx, ?_⟩
  simp only [toZ_residue]
  push_cast
  change s.toZ * (x1.toZ - (residue _).toZ) - y1.toZ = _
  rw [hx]
  simp only [WeierstrassCurve.Affine.addY, WeierstrassCurve.Affine.negAddY, WeierstrassCurve.Affine.negY, secp]
  ring

section Group

variable [Fact fieldPrime.Prime]

/-- PADD is the addition of the group (42_curve R194, R200). -/
theorem Rep.add {q t : Point} {a b : SecpPoint} (hq : Rep q a) (ht : Rep t b) : Rep (pointAdd q t) (a + b) := by
  match q, a, hq, t, b, ht with
  | .inf, .zero, _, t, b, ht => rwa [pointAdd, ← WeierstrassCurve.Affine.Point.zero_def, zero_add]
  | .affine x1 y1, .some X1 Y1 n1, hq, .inf, .zero, _ =>
    rwa [pointAdd, ← WeierstrassCurve.Affine.Point.zero_def, add_zero]
    exact fun h => by cases h
  | .affine x1 y1, .some X1 Y1 n1, ⟨h1, h1'⟩, .affine x2 y2, .some X2 Y2 n2, ⟨h2, h2'⟩ =>
    have hneg : secp.negY X2 Y2 = -Y2 := by simp [WeierstrassCurve.Affine.negY, secp]
    have hx : x1 = x2 ↔ X1 = X2 := by rw [← h1, ← h2, toZ_inj]
    have hy : (y1.val + y2.val) % fieldPrime = 0 ↔ Y1 = secp.negY X2 Y2 := by
      rw [toZ_add_eq_zero, h1', h2', hneg, eq_neg_iff_add_eq_zero]
    rw [pointAdd]
    split
    · rename_i h
      rw [hx, hy] at h
      rw [WeierstrassCurve.Affine.Point.add_of_Y_eq h.1 h.2]
      exact rep_inf
    · rename_i h
      rw [hx, hy] at h
      rw [WeierstrassCurve.Affine.Point.add_some h]
      split
      · rename_i hne
        refine thirdPoint_rep _ _ _ _ ?_ h1 h2 h1' _
        rw [toZ_chordSlope _ _ _ _ hne, h1, h1', h2, h2',
          WeierstrassCurve.Affine.slope_of_X_ne (by rwa [Ne, ← hx])]
      · rename_i he
        have he : X1 = X2 := hx.1 (not_not.1 he)
        have hYne : Y1 ≠ secp.negY X2 Y2 := fun e => h ⟨he, e⟩
        have hYY : Y1 = Y2 := WeierstrassCurve.Affine.Y_eq_of_Y_ne n1.1 n2.1 he hYne
        have hyy : y1 = y2 := toZ_inj.1 (by rw [h1', h2', hYY])
        have hy0 : y1.val ≠ 0 := fun e => hYne (by
          rw [hneg, ← hYY, ← h1', toZ_eq_zero.2 e, neg_zero])
        rw [if_neg (fun c => hy0 c.2), if_pos hyy]
        refine thirdPoint_rep _ _ _ _ ?_ h1 h2 h1' _
        rw [toZ_tangentSlope _ _ hy0, h1, h1', WeierstrassCurve.Affine.slope_of_Y_ne he hYne]
        have hn1 : secp.negY X1 Y1 = -Y1 := by simp [WeierstrassCurve.Affine.negY, secp]
        rw [hn1]
        simp only [secp]
        congr 1 <;> ring

/-- The loop of 43_scalar R221 adds k times the addend to the accumulator. -/
theorem scalarLoop_rep (n k : Nat) (hk : k < 2 ^ n) {q s : Point} {a b : SecpPoint} (hq : Rep q a) (hs : Rep s b) :
    Rep (scalarLoop n k q s) (b + k • a) := by
  induction n generalizing k q s a b with
  | zero => obtain rfl : k = 0 := by simpa using hk
            simpa [scalarLoop] using hs
  | succ n ih =>
    rw [scalarLoop]
    split
    · rename_i h; subst h; simpa using hs
    · have hd : k / 2 < 2 ^ n := by rw [pow_succ] at hk; omega
      have hk' : k • a = (k % 2) • a + (k / 2) • (a + a) := by
        rw [← two_nsmul, ← mul_nsmul', ← add_nsmul]; congr 1; omega
      rw [hk', ← add_assoc]
      refine ih _ hd (hq.add hq) ?_
      split
      · rename_i h; rw [h, one_nsmul]; exact hs.add hq
      · rename_i h
        rw [show k % 2 = 0 by omega, zero_nsmul, add_zero]; exact hs

/-- PMUL is the multiple by k mod N in the group (43_scalar R223). -/
theorem scalarMul_rep (k : Nat) {q : Point} {a : SecpPoint} (hq : Rep q a) :
    Rep (scalarMul k q) ((k % groupOrder) • a) := by
  have h := scalarLoop_rep 256 (k % groupOrder)
    (lt_trans (Nat.mod_lt _ (by decide)) (by decide : groupOrder < 2 ^ 256)) hq rep_inf
  rwa [zero_add] at h

end Group

/-- The point of a group element is unique, and every group element has one. -/
theorem exists_rep (a : SecpPoint) : ∃ q, Rep q a := by
  have key (z : Zp) : ∃ x : FieldElem, x.toZ = z := by
    have := fieldPrime_fact
    refine ⟨residue (z.val : Int), ?_⟩
    rw [toZ_residue]; push_cast; exact ZMod.natCast_zmod_val z
  cases a with
  | zero => exact ⟨.inf, trivial⟩
  | some X Y h =>
    obtain ⟨x, hx⟩ := key X
    obtain ⟨y, hy⟩ := key Y
    exact ⟨.affine x y, hx, hy⟩

/-! ### Consequences on point register values -/

theorem pointAdd_onCurve {q t : Point} (hq : pointOnCurve q = true) (ht : pointOnCurve t = true) :
    pointOnCurve (pointAdd q t) = true := by
  obtain ⟨a, ha⟩ := (pointOnCurve_iff q).1 hq
  obtain ⟨b, hb⟩ := (pointOnCurve_iff t).1 ht
  have := fieldPrime_fact
  exact (pointOnCurve_iff _).2 ⟨_, ha.add hb⟩

theorem pointNeg_onCurve {q : Point} (hq : pointOnCurve q = true) : pointOnCurve (pointNeg q) = true := by
  obtain ⟨a, ha⟩ := (pointOnCurve_iff q).1 hq
  exact (pointOnCurve_iff _).2 ⟨_, ha.neg⟩

theorem scalarMul_onCurve (k : Nat) {q : Point} (hq : pointOnCurve q = true) :
    pointOnCurve (scalarMul k q) = true := by
  obtain ⟨a, ha⟩ := (pointOnCurve_iff q).1 hq
  have := fieldPrime_fact
  exact (pointOnCurve_iff _).2 ⟨_, scalarMul_rep k ha⟩

theorem generator_onCurve : pointOnCurve generator = true := by decide +kernel

/-- Decompression answers only curve points (42_curve R197). -/
theorem decompress_onCurve {x : FieldElem} {q : Point} (h : decompress x = some q) : pointOnCurve q = true := by
  rw [decompress] at h
  split at h
  · cases h
  · rename_i hc
    cases h
    exact beq_iff_eq.2 (not_not.1 hc)

end Sys2Proof.Machine
end

