-- ==== Sys2Proof/Laws/Decode.lean ====
section
/-! SUPPORT. The fields of an encoded word, and a word put together from its fields (30_encoding R101). -/

namespace Sys2Proof

@[simp] theorem fieldOp_commandWord (op d a b k : Nat) : fieldOp (commandWord op d a b k) = BitVec.ofNat 8 op := by
  simp only [fieldOp, commandWord, BitVec.extractLsb'_append_eq_of_le (by decide : 8 ≤ 24),
    BitVec.extractLsb'_append_eq_of_le (by decide : 4 ≤ 24 - 8),
    BitVec.extractLsb'_append_eq_of_le (by decide : 4 ≤ 24 - 8 - 4),
    BitVec.extractLsb'_append_eq_of_le (by decide : 4 ≤ 24 - 8 - 4 - 4),
    BitVec.extractLsb'_append_eq_of_le (by decide : 4 ≤ 24 - 8 - 4 - 4 - 4)]
  simp

@[simp] theorem fieldD_commandWord (op d a b k : Nat) : fieldD (commandWord op d a b k) = BitVec.ofNat 4 d := by
  simp only [fieldD, commandWord, BitVec.extractLsb'_append_eq_of_le (by decide : 8 ≤ 20),
    BitVec.extractLsb'_append_eq_of_le (by decide : 4 ≤ 20 - 8),
    BitVec.extractLsb'_append_eq_of_le (by decide : 4 ≤ 20 - 8 - 4),
    BitVec.extractLsb'_append_eq_of_le (by decide : 4 ≤ 20 - 8 - 4 - 4),
    BitVec.extractLsb'_append_eq_of_add_le (by decide : 20 - 8 - 4 - 4 - 4 + 4 ≤ 4)]
  simp

@[simp] theorem fieldA_commandWord (op d a b k : Nat) : fieldA (commandWord op d a b k) = BitVec.ofNat 4 a := by
  simp only [fieldA, commandWord, BitVec.extractLsb'_append_eq_of_le (by decide : 8 ≤ 16),
    BitVec.extractLsb'_append_eq_of_le (by decide : 4 ≤ 16 - 8),
    BitVec.extractLsb'_append_eq_of_le (by decide : 4 ≤ 16 - 8 - 4),
    BitVec.extractLsb'_append_eq_of_add_le (by decide : 16 - 8 - 4 - 4 + 4 ≤ 4)]
  simp

@[simp] theorem fieldB_commandWord (op d a b k : Nat) : fieldB (commandWord op d a b k) = BitVec.ofNat 4 b := by
  simp only [fieldB, commandWord, BitVec.extractLsb'_append_eq_of_le (by decide : 8 ≤ 12),
    BitVec.extractLsb'_append_eq_of_le (by decide : 4 ≤ 12 - 8),
    BitVec.extractLsb'_append_eq_of_add_le (by decide : 12 - 8 - 4 + 4 ≤ 4)]
  simp

@[simp] theorem fieldK_commandWord (op d a b k : Nat) : fieldK (commandWord op d a b k) = BitVec.ofNat 4 k := by
  simp only [fieldK, commandWord, BitVec.extractLsb'_append_eq_of_le (by decide : 8 ≤ 8),
    BitVec.extractLsb'_append_eq_of_add_le (by decide : 8 - 8 + 4 ≤ 4)]
  simp

/-- Masking a word masks its fields: the mask is cut at the same places. -/
theorem commandWord_and (op d a b k : Nat) (mo : BitVec 8) (md ma mb mk : BitVec 4) (mz : BitVec 8) :
    commandWord op d a b k &&& (mo ++ md ++ ma ++ mb ++ mk ++ mz : BitVec 32) =
      ((BitVec.ofNat 8 op &&& mo) ++ (BitVec.ofNat 4 d &&& md) ++ (BitVec.ofNat 4 a &&& ma) ++
        (BitVec.ofNat 4 b &&& mb) ++ (BitVec.ofNat 4 k &&& mk) ++ (0 : BitVec 8) : BitVec 32) := by
  unfold commandWord
  refine Eq.trans (show ((_ : BitVec (8 + 4 + 4 + 4 + 4 + 8)) &&& _) = _ from BitVec.and_append) ?_
  have hz : (0 : BitVec 8) &&& mz = 0 := BitVec.zero_and
  simp only [BitVec.and_append, hz]

/-- A word is its fields put together. -/
theorem word_eq_fields (w : Word) :
    w = (fieldOp w ++ fieldD w ++ fieldA w ++ fieldB w ++ fieldK w ++ w.extractLsb' 0 8 : BitVec 32) := by
  apply BitVec.eq_of_getLsbD_eq
  intro i hi
  simp only [fieldOp, fieldD, fieldA, fieldB, fieldK, BitVec.getLsbD_append, BitVec.getLsbD_extractLsb']
  split_ifs
  all_goals rw [decide_eq_true (by omega), Bool.true_and]; congr 1; omega

/-- A point field has bit 3 clear (30_encoding R102). -/
theorem pointField_bit3 : ∀ d : PReg, BitVec.ofNat 4 d.val &&& 8 = 0 := by decide

/-- A data-register or immediate field has no bit that must be 0. -/
theorem anyField_free (n : Nat) : BitVec.ofNat 4 n &&& (0 : BitVec 4) = 0 := BitVec.and_zero

/-- The row of the opcode map that has a word's OP. -/
def rowOf (op : BitVec 8) : Option OpRow := opRows.find? fun row => fieldOp row.pattern == op

/-- `decode` looks only at the OP field to choose the row. -/
theorem decode_eq (w : Word) : decode w =
    match rowOf (fieldOp w) with
    | none => .error .unassignedOp
    | some row =>
      if w &&& row.mask ≠ row.pattern then .error .nonzeroReserved
      else if fieldOp w = 0x49 ∧ fieldK w = 15 then .error .roundNumber
      else .ok (row.build w) := rfl

end Sys2Proof
end

