-- ==== Sys2Proof/Laws/State.lean ====
section
/-! SUPPORT. One lemma per field of State per named update, so that no proof unfolds a record update. -/

namespace Sys2Proof.Machine.State

@[simp] theorem writeData_r (s : State) (d : DReg) (x : Data) : (s.writeData d x).r = s.r.set d x := rfl
@[simp] theorem writeData_v (s : State) (d : DReg) (x : Data) : (s.writeData d x).v = s.v.set d allValid := rfl
@[simp] theorem writeData_p (s : State) (d : DReg) (x : Data) : (s.writeData d x).p = s.p := rfl
@[simp] theorem writeData_pv (s : State) (d : DReg) (x : Data) : (s.writeData d x).pv = s.pv := rfl
@[simp] theorem writeData_ks (s : State) (d : DReg) (x : Data) : (s.writeData d x).ks = s.ks := rfl
@[simp] theorem writeData_ksv (s : State) (d : DReg) (x : Data) : (s.writeData d x).ksv = s.ksv := rfl
@[simp] theorem writeData_eqFlag (s : State) (d : DReg) (x : Data) : (s.writeData d x).eqFlag = s.eqFlag := rfl
@[simp] theorem writeData_irqen (s : State) (d : DReg) (x : Data) : (s.writeData d x).irqen = s.irqen := rfl
@[simp] theorem writeData_done (s : State) (d : DReg) (x : Data) : (s.writeData d x).done = s.done := rfl
@[simp] theorem writeData_err (s : State) (d : DReg) (x : Data) : (s.writeData d x).err = s.err := rfl
@[simp] theorem writeData_ovr (s : State) (d : DReg) (x : Data) : (s.writeData d x).ovr = s.ovr := rfl
@[simp] theorem writeData_ecode (s : State) (d : DReg) (x : Data) : (s.writeData d x).ecode = s.ecode := rfl
@[simp] theorem writeData_cmdLast (s : State) (d : DReg) (x : Data) : (s.writeData d x).cmdLast = s.cmdLast := rfl
@[simp] theorem writeData_cmdCnt (s : State) (d : DReg) (x : Data) : (s.writeData d x).cmdCnt = s.cmdCnt := rfl
@[simp] theorem writeData_inflight (s : State) (d : DReg) (x : Data) : (s.writeData d x).inflight = s.inflight := rfl
@[simp] theorem writeData_input (s : State) (d : DReg) (x : Data) : (s.writeData d x).input = s.input := rfl
@[simp] theorem writeData_replies (s : State) (d : DReg) (x : Data) : (s.writeData d x).replies = s.replies := rfl
@[simp] theorem writeData_freeCount (s : State) (d : DReg) (x : Data) : (s.writeData d x).freeCount = s.freeCount := rfl

@[simp] theorem writePoint_r (s : State) (d : PReg) (q : Point) : (s.writePoint d q).r = s.r := rfl
@[simp] theorem writePoint_v (s : State) (d : PReg) (q : Point) : (s.writePoint d q).v = s.v := rfl
@[simp] theorem writePoint_p (s : State) (d : PReg) (q : Point) : (s.writePoint d q).p = s.p.set d q := rfl
@[simp] theorem writePoint_pv (s : State) (d : PReg) (q : Point) : (s.writePoint d q).pv = s.pv.set d true := rfl
@[simp] theorem writePoint_ks (s : State) (d : PReg) (q : Point) : (s.writePoint d q).ks = s.ks := rfl
@[simp] theorem writePoint_ksv (s : State) (d : PReg) (q : Point) : (s.writePoint d q).ksv = s.ksv := rfl
@[simp] theorem writePoint_eqFlag (s : State) (d : PReg) (q : Point) : (s.writePoint d q).eqFlag = s.eqFlag := rfl
@[simp] theorem writePoint_irqen (s : State) (d : PReg) (q : Point) : (s.writePoint d q).irqen = s.irqen := rfl
@[simp] theorem writePoint_done (s : State) (d : PReg) (q : Point) : (s.writePoint d q).done = s.done := rfl
@[simp] theorem writePoint_err (s : State) (d : PReg) (q : Point) : (s.writePoint d q).err = s.err := rfl
@[simp] theorem writePoint_ovr (s : State) (d : PReg) (q : Point) : (s.writePoint d q).ovr = s.ovr := rfl
@[simp] theorem writePoint_ecode (s : State) (d : PReg) (q : Point) : (s.writePoint d q).ecode = s.ecode := rfl
@[simp] theorem writePoint_cmdLast (s : State) (d : PReg) (q : Point) : (s.writePoint d q).cmdLast = s.cmdLast := rfl
@[simp] theorem writePoint_cmdCnt (s : State) (d : PReg) (q : Point) : (s.writePoint d q).cmdCnt = s.cmdCnt := rfl
@[simp] theorem writePoint_inflight (s : State) (d : PReg) (q : Point) : (s.writePoint d q).inflight = s.inflight := rfl
@[simp] theorem writePoint_input (s : State) (d : PReg) (q : Point) : (s.writePoint d q).input = s.input := rfl
@[simp] theorem writePoint_replies (s : State) (d : PReg) (q : Point) : (s.writePoint d q).replies = s.replies := rfl
@[simp] theorem writePoint_freeCount (s : State) (d : PReg) (q : Point) : (s.writePoint d q).freeCount = s.freeCount := rfl

@[simp] theorem writeSchedule_r (s : State) (k : Schedule) : (s.writeSchedule k).r = s.r := rfl
@[simp] theorem writeSchedule_v (s : State) (k : Schedule) : (s.writeSchedule k).v = s.v := rfl
@[simp] theorem writeSchedule_p (s : State) (k : Schedule) : (s.writeSchedule k).p = s.p := rfl
@[simp] theorem writeSchedule_pv (s : State) (k : Schedule) : (s.writeSchedule k).pv = s.pv := rfl
@[simp] theorem writeSchedule_ks (s : State) (k : Schedule) : (s.writeSchedule k).ks = k := rfl
@[simp] theorem writeSchedule_ksv (s : State) (k : Schedule) : (s.writeSchedule k).ksv = true := rfl
@[simp] theorem writeSchedule_eqFlag (s : State) (k : Schedule) : (s.writeSchedule k).eqFlag = s.eqFlag := rfl
@[simp] theorem writeSchedule_irqen (s : State) (k : Schedule) : (s.writeSchedule k).irqen = s.irqen := rfl
@[simp] theorem writeSchedule_done (s : State) (k : Schedule) : (s.writeSchedule k).done = s.done := rfl
@[simp] theorem writeSchedule_err (s : State) (k : Schedule) : (s.writeSchedule k).err = s.err := rfl
@[simp] theorem writeSchedule_ovr (s : State) (k : Schedule) : (s.writeSchedule k).ovr = s.ovr := rfl
@[simp] theorem writeSchedule_ecode (s : State) (k : Schedule) : (s.writeSchedule k).ecode = s.ecode := rfl
@[simp] theorem writeSchedule_cmdLast (s : State) (k : Schedule) : (s.writeSchedule k).cmdLast = s.cmdLast := rfl
@[simp] theorem writeSchedule_cmdCnt (s : State) (k : Schedule) : (s.writeSchedule k).cmdCnt = s.cmdCnt := rfl
@[simp] theorem writeSchedule_inflight (s : State) (k : Schedule) : (s.writeSchedule k).inflight = s.inflight := rfl
@[simp] theorem writeSchedule_input (s : State) (k : Schedule) : (s.writeSchedule k).input = s.input := rfl
@[simp] theorem writeSchedule_replies (s : State) (k : Schedule) : (s.writeSchedule k).replies = s.replies := rfl
@[simp] theorem writeSchedule_freeCount (s : State) (k : Schedule) : (s.writeSchedule k).freeCount = s.freeCount := rfl

@[simp] theorem writeEq_r (s : State) (b : Bool) : (s.writeEq b).r = s.r := rfl
@[simp] theorem writeEq_v (s : State) (b : Bool) : (s.writeEq b).v = s.v := rfl
@[simp] theorem writeEq_p (s : State) (b : Bool) : (s.writeEq b).p = s.p := rfl
@[simp] theorem writeEq_pv (s : State) (b : Bool) : (s.writeEq b).pv = s.pv := rfl
@[simp] theorem writeEq_ks (s : State) (b : Bool) : (s.writeEq b).ks = s.ks := rfl
@[simp] theorem writeEq_ksv (s : State) (b : Bool) : (s.writeEq b).ksv = s.ksv := rfl
@[simp] theorem writeEq_eqFlag (s : State) (b : Bool) : (s.writeEq b).eqFlag = b := rfl
@[simp] theorem writeEq_irqen (s : State) (b : Bool) : (s.writeEq b).irqen = s.irqen := rfl
@[simp] theorem writeEq_done (s : State) (b : Bool) : (s.writeEq b).done = s.done := rfl
@[simp] theorem writeEq_err (s : State) (b : Bool) : (s.writeEq b).err = s.err := rfl
@[simp] theorem writeEq_ovr (s : State) (b : Bool) : (s.writeEq b).ovr = s.ovr := rfl
@[simp] theorem writeEq_ecode (s : State) (b : Bool) : (s.writeEq b).ecode = s.ecode := rfl
@[simp] theorem writeEq_cmdLast (s : State) (b : Bool) : (s.writeEq b).cmdLast = s.cmdLast := rfl
@[simp] theorem writeEq_cmdCnt (s : State) (b : Bool) : (s.writeEq b).cmdCnt = s.cmdCnt := rfl
@[simp] theorem writeEq_inflight (s : State) (b : Bool) : (s.writeEq b).inflight = s.inflight := rfl
@[simp] theorem writeEq_input (s : State) (b : Bool) : (s.writeEq b).input = s.input := rfl
@[simp] theorem writeEq_replies (s : State) (b : Bool) : (s.writeEq b).replies = s.replies := rfl
@[simp] theorem writeEq_freeCount (s : State) (b : Bool) : (s.writeEq b).freeCount = s.freeCount := rfl

@[simp] theorem accept_r (s : State) (w : Word) : (s.accept w).r = s.r := rfl
@[simp] theorem accept_v (s : State) (w : Word) : (s.accept w).v = s.v := rfl
@[simp] theorem accept_p (s : State) (w : Word) : (s.accept w).p = s.p := rfl
@[simp] theorem accept_pv (s : State) (w : Word) : (s.accept w).pv = s.pv := rfl
@[simp] theorem accept_ks (s : State) (w : Word) : (s.accept w).ks = s.ks := rfl
@[simp] theorem accept_ksv (s : State) (w : Word) : (s.accept w).ksv = s.ksv := rfl
@[simp] theorem accept_eqFlag (s : State) (w : Word) : (s.accept w).eqFlag = s.eqFlag := rfl
@[simp] theorem accept_irqen (s : State) (w : Word) : (s.accept w).irqen = s.irqen := rfl
@[simp] theorem accept_done (s : State) (w : Word) : (s.accept w).done = false := rfl
@[simp] theorem accept_err (s : State) (w : Word) : (s.accept w).err = s.err := rfl
@[simp] theorem accept_ovr (s : State) (w : Word) : (s.accept w).ovr = s.ovr := rfl
@[simp] theorem accept_ecode (s : State) (w : Word) : (s.accept w).ecode = s.ecode := rfl
@[simp] theorem accept_cmdLast (s : State) (w : Word) : (s.accept w).cmdLast = w := rfl
@[simp] theorem accept_cmdCnt (s : State) (w : Word) : (s.accept w).cmdCnt = s.cmdCnt + 1 := rfl
@[simp] theorem accept_inflight (s : State) (w : Word) : (s.accept w).inflight = some w := rfl
@[simp] theorem accept_input (s : State) (w : Word) : (s.accept w).input = s.input := rfl
@[simp] theorem accept_replies (s : State) (w : Word) : (s.accept w).replies = s.replies := rfl
@[simp] theorem accept_freeCount (s : State) (w : Word) : (s.accept w).freeCount = s.freeCount := rfl

@[simp] theorem complete_r (s : State) : (s.complete).r = s.r := rfl
@[simp] theorem complete_v (s : State) : (s.complete).v = s.v := rfl
@[simp] theorem complete_p (s : State) : (s.complete).p = s.p := rfl
@[simp] theorem complete_pv (s : State) : (s.complete).pv = s.pv := rfl
@[simp] theorem complete_ks (s : State) : (s.complete).ks = s.ks := rfl
@[simp] theorem complete_ksv (s : State) : (s.complete).ksv = s.ksv := rfl
@[simp] theorem complete_eqFlag (s : State) : (s.complete).eqFlag = s.eqFlag := rfl
@[simp] theorem complete_irqen (s : State) : (s.complete).irqen = s.irqen := rfl
@[simp] theorem complete_done (s : State) : (s.complete).done = true := rfl
@[simp] theorem complete_err (s : State) : (s.complete).err = s.err := rfl
@[simp] theorem complete_ovr (s : State) : (s.complete).ovr = s.ovr := rfl
@[simp] theorem complete_ecode (s : State) : (s.complete).ecode = s.ecode := rfl
@[simp] theorem complete_cmdLast (s : State) : (s.complete).cmdLast = s.cmdLast := rfl
@[simp] theorem complete_cmdCnt (s : State) : (s.complete).cmdCnt = s.cmdCnt := rfl
@[simp] theorem complete_inflight (s : State) : (s.complete).inflight = none := rfl
@[simp] theorem complete_input (s : State) : (s.complete).input = s.input := rfl
@[simp] theorem complete_replies (s : State) : (s.complete).replies = s.replies := rfl
@[simp] theorem complete_freeCount (s : State) : (s.complete).freeCount = s.freeCount := rfl

@[simp] theorem recordError_r (s : State) (c : ErrCode) : (s.recordError c).r = s.r := rfl
@[simp] theorem recordError_v (s : State) (c : ErrCode) : (s.recordError c).v = s.v := rfl
@[simp] theorem recordError_p (s : State) (c : ErrCode) : (s.recordError c).p = s.p := rfl
@[simp] theorem recordError_pv (s : State) (c : ErrCode) : (s.recordError c).pv = s.pv := rfl
@[simp] theorem recordError_ks (s : State) (c : ErrCode) : (s.recordError c).ks = s.ks := rfl
@[simp] theorem recordError_ksv (s : State) (c : ErrCode) : (s.recordError c).ksv = s.ksv := rfl
@[simp] theorem recordError_eqFlag (s : State) (c : ErrCode) : (s.recordError c).eqFlag = s.eqFlag := rfl
@[simp] theorem recordError_irqen (s : State) (c : ErrCode) : (s.recordError c).irqen = s.irqen := rfl
@[simp] theorem recordError_done (s : State) (c : ErrCode) : (s.recordError c).done = s.done := rfl
@[simp] theorem recordError_err (s : State) (c : ErrCode) : (s.recordError c).err = true := rfl
@[simp] theorem recordError_ovr (s : State) (c : ErrCode) : (s.recordError c).ovr = s.ovr := rfl
@[simp] theorem recordError_ecode (s : State) (c : ErrCode) : (s.recordError c).ecode = c := rfl
@[simp] theorem recordError_cmdLast (s : State) (c : ErrCode) : (s.recordError c).cmdLast = s.cmdLast := rfl
@[simp] theorem recordError_cmdCnt (s : State) (c : ErrCode) : (s.recordError c).cmdCnt = s.cmdCnt := rfl
@[simp] theorem recordError_inflight (s : State) (c : ErrCode) : (s.recordError c).inflight = s.inflight := rfl
@[simp] theorem recordError_input (s : State) (c : ErrCode) : (s.recordError c).input = s.input := rfl
@[simp] theorem recordError_replies (s : State) (c : ErrCode) : (s.recordError c).replies = s.replies := rfl
@[simp] theorem recordError_freeCount (s : State) (c : ErrCode) : (s.recordError c).freeCount = s.freeCount := rfl

@[simp] theorem failCommand_r (s : State) (c : ErrCode) : (s.failCommand c).r = s.r := rfl
@[simp] theorem failCommand_v (s : State) (c : ErrCode) : (s.failCommand c).v = s.v := rfl
@[simp] theorem failCommand_p (s : State) (c : ErrCode) : (s.failCommand c).p = s.p := rfl
@[simp] theorem failCommand_pv (s : State) (c : ErrCode) : (s.failCommand c).pv = s.pv := rfl
@[simp] theorem failCommand_ks (s : State) (c : ErrCode) : (s.failCommand c).ks = s.ks := rfl
@[simp] theorem failCommand_ksv (s : State) (c : ErrCode) : (s.failCommand c).ksv = s.ksv := rfl
@[simp] theorem failCommand_eqFlag (s : State) (c : ErrCode) : (s.failCommand c).eqFlag = s.eqFlag := rfl
@[simp] theorem failCommand_irqen (s : State) (c : ErrCode) : (s.failCommand c).irqen = s.irqen := rfl
@[simp] theorem failCommand_done (s : State) (c : ErrCode) : (s.failCommand c).done = true := rfl
@[simp] theorem failCommand_err (s : State) (c : ErrCode) : (s.failCommand c).err = true := rfl
@[simp] theorem failCommand_ovr (s : State) (c : ErrCode) : (s.failCommand c).ovr = s.ovr := rfl
@[simp] theorem failCommand_ecode (s : State) (c : ErrCode) : (s.failCommand c).ecode = c := rfl
@[simp] theorem failCommand_cmdLast (s : State) (c : ErrCode) : (s.failCommand c).cmdLast = s.cmdLast := rfl
@[simp] theorem failCommand_cmdCnt (s : State) (c : ErrCode) : (s.failCommand c).cmdCnt = s.cmdCnt := rfl
@[simp] theorem failCommand_inflight (s : State) (c : ErrCode) : (s.failCommand c).inflight = none := rfl
@[simp] theorem failCommand_input (s : State) (c : ErrCode) : (s.failCommand c).input = s.input := rfl
@[simp] theorem failCommand_replies (s : State) (c : ErrCode) : (s.failCommand c).replies = s.replies := rfl
@[simp] theorem failCommand_freeCount (s : State) (c : ErrCode) : (s.failCommand c).freeCount = s.freeCount := rfl

@[simp] theorem dropWrite_r (s : State) : (s.dropWrite).r = s.r := rfl
@[simp] theorem dropWrite_v (s : State) : (s.dropWrite).v = s.v := rfl
@[simp] theorem dropWrite_p (s : State) : (s.dropWrite).p = s.p := rfl
@[simp] theorem dropWrite_pv (s : State) : (s.dropWrite).pv = s.pv := rfl
@[simp] theorem dropWrite_ks (s : State) : (s.dropWrite).ks = s.ks := rfl
@[simp] theorem dropWrite_ksv (s : State) : (s.dropWrite).ksv = s.ksv := rfl
@[simp] theorem dropWrite_eqFlag (s : State) : (s.dropWrite).eqFlag = s.eqFlag := rfl
@[simp] theorem dropWrite_irqen (s : State) : (s.dropWrite).irqen = s.irqen := rfl
@[simp] theorem dropWrite_done (s : State) : (s.dropWrite).done = s.done := rfl
@[simp] theorem dropWrite_err (s : State) : (s.dropWrite).err = s.err := rfl
@[simp] theorem dropWrite_ovr (s : State) : (s.dropWrite).ovr = true := rfl
@[simp] theorem dropWrite_ecode (s : State) : (s.dropWrite).ecode = s.ecode := rfl
@[simp] theorem dropWrite_cmdLast (s : State) : (s.dropWrite).cmdLast = s.cmdLast := rfl
@[simp] theorem dropWrite_cmdCnt (s : State) : (s.dropWrite).cmdCnt = s.cmdCnt := rfl
@[simp] theorem dropWrite_inflight (s : State) : (s.dropWrite).inflight = s.inflight := rfl
@[simp] theorem dropWrite_input (s : State) : (s.dropWrite).input = s.input := rfl
@[simp] theorem dropWrite_replies (s : State) : (s.dropWrite).replies = s.replies := rfl
@[simp] theorem dropWrite_freeCount (s : State) : (s.dropWrite).freeCount = s.freeCount := rfl

@[simp] theorem clearError_r (s : State) : (s.clearError).r = s.r := rfl
@[simp] theorem clearError_v (s : State) : (s.clearError).v = s.v := rfl
@[simp] theorem clearError_p (s : State) : (s.clearError).p = s.p := rfl
@[simp] theorem clearError_pv (s : State) : (s.clearError).pv = s.pv := rfl
@[simp] theorem clearError_ks (s : State) : (s.clearError).ks = s.ks := rfl
@[simp] theorem clearError_ksv (s : State) : (s.clearError).ksv = s.ksv := rfl
@[simp] theorem clearError_eqFlag (s : State) : (s.clearError).eqFlag = s.eqFlag := rfl
@[simp] theorem clearError_irqen (s : State) : (s.clearError).irqen = s.irqen := rfl
@[simp] theorem clearError_done (s : State) : (s.clearError).done = s.done := rfl
@[simp] theorem clearError_err (s : State) : (s.clearError).err = false := rfl
@[simp] theorem clearError_ovr (s : State) : (s.clearError).ovr = s.ovr := rfl
@[simp] theorem clearError_ecode (s : State) : (s.clearError).ecode = .none := rfl
@[simp] theorem clearError_cmdLast (s : State) : (s.clearError).cmdLast = s.cmdLast := rfl
@[simp] theorem clearError_cmdCnt (s : State) : (s.clearError).cmdCnt = s.cmdCnt := rfl
@[simp] theorem clearError_inflight (s : State) : (s.clearError).inflight = s.inflight := rfl
@[simp] theorem clearError_input (s : State) : (s.clearError).input = s.input := rfl
@[simp] theorem clearError_replies (s : State) : (s.clearError).replies = s.replies := rfl
@[simp] theorem clearError_freeCount (s : State) : (s.clearError).freeCount = s.freeCount := rfl

@[simp] theorem reply_r (s : State) (w : Word) : (s.reply w).r = s.r := rfl
@[simp] theorem reply_v (s : State) (w : Word) : (s.reply w).v = s.v := rfl
@[simp] theorem reply_p (s : State) (w : Word) : (s.reply w).p = s.p := rfl
@[simp] theorem reply_pv (s : State) (w : Word) : (s.reply w).pv = s.pv := rfl
@[simp] theorem reply_ks (s : State) (w : Word) : (s.reply w).ks = s.ks := rfl
@[simp] theorem reply_ksv (s : State) (w : Word) : (s.reply w).ksv = s.ksv := rfl
@[simp] theorem reply_eqFlag (s : State) (w : Word) : (s.reply w).eqFlag = s.eqFlag := rfl
@[simp] theorem reply_irqen (s : State) (w : Word) : (s.reply w).irqen = s.irqen := rfl
@[simp] theorem reply_done (s : State) (w : Word) : (s.reply w).done = s.done := rfl
@[simp] theorem reply_err (s : State) (w : Word) : (s.reply w).err = s.err := rfl
@[simp] theorem reply_ovr (s : State) (w : Word) : (s.reply w).ovr = s.ovr := rfl
@[simp] theorem reply_ecode (s : State) (w : Word) : (s.reply w).ecode = s.ecode := rfl
@[simp] theorem reply_cmdLast (s : State) (w : Word) : (s.reply w).cmdLast = s.cmdLast := rfl
@[simp] theorem reply_cmdCnt (s : State) (w : Word) : (s.reply w).cmdCnt = s.cmdCnt := rfl
@[simp] theorem reply_inflight (s : State) (w : Word) : (s.reply w).inflight = s.inflight := rfl
@[simp] theorem reply_input (s : State) (w : Word) : (s.reply w).input = s.input := rfl
@[simp] theorem reply_replies (s : State) (w : Word) : (s.reply w).replies = w :: s.replies := rfl
@[simp] theorem reply_freeCount (s : State) (w : Word) : (s.reply w).freeCount = s.freeCount := rfl

@[simp] theorem replyAny_r (s : State) : (s.replyAny).r = s.r := rfl
@[simp] theorem replyAny_v (s : State) : (s.replyAny).v = s.v := rfl
@[simp] theorem replyAny_p (s : State) : (s.replyAny).p = s.p := rfl
@[simp] theorem replyAny_pv (s : State) : (s.replyAny).pv = s.pv := rfl
@[simp] theorem replyAny_ks (s : State) : (s.replyAny).ks = s.ks := rfl
@[simp] theorem replyAny_ksv (s : State) : (s.replyAny).ksv = s.ksv := rfl
@[simp] theorem replyAny_eqFlag (s : State) : (s.replyAny).eqFlag = s.eqFlag := rfl
@[simp] theorem replyAny_irqen (s : State) : (s.replyAny).irqen = s.irqen := rfl
@[simp] theorem replyAny_done (s : State) : (s.replyAny).done = s.done := rfl
@[simp] theorem replyAny_err (s : State) : (s.replyAny).err = s.err := rfl
@[simp] theorem replyAny_ovr (s : State) : (s.replyAny).ovr = s.ovr := rfl
@[simp] theorem replyAny_ecode (s : State) : (s.replyAny).ecode = s.ecode := rfl
@[simp] theorem replyAny_cmdLast (s : State) : (s.replyAny).cmdLast = s.cmdLast := rfl
@[simp] theorem replyAny_cmdCnt (s : State) : (s.replyAny).cmdCnt = s.cmdCnt := rfl
@[simp] theorem replyAny_inflight (s : State) : (s.replyAny).inflight = s.inflight := rfl
@[simp] theorem replyAny_input (s : State) : (s.replyAny).input = s.input := rfl
@[simp] theorem replyAny_replies (s : State) : (s.replyAny).replies = Config.freeWord s.freeCount :: s.replies := rfl
@[simp] theorem replyAny_freeCount (s : State) : (s.replyAny).freeCount = s.freeCount + 1 := rfl

@[simp] theorem resetUnit_r (s : State) : (s.resetUnit).r = Vector.replicate 16 0 := rfl
@[simp] theorem resetUnit_v (s : State) : (s.resetUnit).v = Vector.replicate 16 (Vector.replicate 8 false) := rfl
@[simp] theorem resetUnit_p (s : State) : (s.resetUnit).p = Vector.replicate 8 .inf := rfl
@[simp] theorem resetUnit_pv (s : State) : (s.resetUnit).pv = Vector.replicate 8 false := rfl
@[simp] theorem resetUnit_ks (s : State) : (s.resetUnit).ks = Vector.replicate 240 0 := rfl
@[simp] theorem resetUnit_ksv (s : State) : (s.resetUnit).ksv = false := rfl
@[simp] theorem resetUnit_eqFlag (s : State) : (s.resetUnit).eqFlag = false := rfl
@[simp] theorem resetUnit_irqen (s : State) : (s.resetUnit).irqen = false := rfl
@[simp] theorem resetUnit_done (s : State) : (s.resetUnit).done = false := rfl
@[simp] theorem resetUnit_err (s : State) : (s.resetUnit).err = false := rfl
@[simp] theorem resetUnit_ovr (s : State) : (s.resetUnit).ovr = false := rfl
@[simp] theorem resetUnit_ecode (s : State) : (s.resetUnit).ecode = .none := rfl
@[simp] theorem resetUnit_cmdLast (s : State) : (s.resetUnit).cmdLast = 0 := rfl
@[simp] theorem resetUnit_cmdCnt (s : State) : (s.resetUnit).cmdCnt = 0 := rfl
@[simp] theorem resetUnit_inflight (s : State) : (s.resetUnit).inflight = none := rfl
@[simp] theorem resetUnit_input (s : State) : (s.resetUnit).input = s.input := rfl
@[simp] theorem resetUnit_replies (s : State) : (s.resetUnit).replies = s.replies := rfl
@[simp] theorem resetUnit_freeCount (s : State) : (s.resetUnit).freeCount = s.freeCount := rfl

@[simp] theorem withAccepted_r (s : State) (w : Word) : (s.withAccepted w).r = s.r := rfl
@[simp] theorem withAccepted_v (s : State) (w : Word) : (s.withAccepted w).v = s.v := rfl
@[simp] theorem withAccepted_p (s : State) (w : Word) : (s.withAccepted w).p = s.p := rfl
@[simp] theorem withAccepted_pv (s : State) (w : Word) : (s.withAccepted w).pv = s.pv := rfl
@[simp] theorem withAccepted_ks (s : State) (w : Word) : (s.withAccepted w).ks = s.ks := rfl
@[simp] theorem withAccepted_ksv (s : State) (w : Word) : (s.withAccepted w).ksv = s.ksv := rfl
@[simp] theorem withAccepted_eqFlag (s : State) (w : Word) : (s.withAccepted w).eqFlag = s.eqFlag := rfl
@[simp] theorem withAccepted_irqen (s : State) (w : Word) : (s.withAccepted w).irqen = s.irqen := rfl
@[simp] theorem withAccepted_done (s : State) (w : Word) : (s.withAccepted w).done = false := rfl
@[simp] theorem withAccepted_err (s : State) (w : Word) : (s.withAccepted w).err = s.err := rfl
@[simp] theorem withAccepted_ovr (s : State) (w : Word) : (s.withAccepted w).ovr = s.ovr := rfl
@[simp] theorem withAccepted_ecode (s : State) (w : Word) : (s.withAccepted w).ecode = s.ecode := rfl
@[simp] theorem withAccepted_cmdLast (s : State) (w : Word) : (s.withAccepted w).cmdLast = w := rfl
@[simp] theorem withAccepted_cmdCnt (s : State) (w : Word) : (s.withAccepted w).cmdCnt = s.cmdCnt + 1 := rfl
@[simp] theorem withAccepted_inflight (s : State) (w : Word) : (s.withAccepted w).inflight = some w := rfl
@[simp] theorem withAccepted_input (s : State) (w : Word) : (s.withAccepted w).input = .engine :: s.input := rfl
@[simp] theorem withAccepted_replies (s : State) (w : Word) : (s.withAccepted w).replies = s.replies := rfl
@[simp] theorem withAccepted_freeCount (s : State) (w : Word) : (s.withAccepted w).freeCount = s.freeCount := rfl

@[simp] theorem busy_eq (s : State) : s.busy = s.inflight.isSome := rfl

end Sys2Proof.Machine.State
end

