-- ==== Sys2Proof/Laws/Exec.lean ====
section
/-! SUPPORT. What reading an operand can answer, and what a command, a host access and a step can do: one
inversion lemma each. -/

namespace Sys2Proof.Machine

/-! ### Operands -/

theorem dataValid_iff (s : State) (a : DReg) : s.dataValid a = true ↔ Ready s a := by
  rw [State.dataValid, beq_iff_eq, allValid]
  refine ⟨fun h j => by simp [h], fun h => Vector.ext fun j hj => ?_⟩
  simpa using h ⟨j, hj⟩

theorem needData_ready {s : State} {a : DReg} (h : Ready s a) : needData s a = .ok s.r[a] :=
  if_pos ((dataValid_iff s a).2 h)

theorem needData_not {s : State} {a : DReg} (h : ¬Ready s a) : needData s a = .error .uninit :=
  if_neg (mt (dataValid_iff s a).1 h)

theorem needPoint_ready {s : State} {a : PReg} (h : ReadyPoint s a) : needPoint s a = .ok s.p[a] := if_pos h

theorem needPoint_not {s : State} {a : PReg} (h : ¬ReadyPoint s a) : needPoint s a = .error .uninit := if_neg h

theorem needCanon_lt {v : Data} (h : v.toNat < fieldPrime) : needCanon v = .ok ⟨v.toNat, h⟩ := dif_pos h

theorem needCanon_not {v : Data} (h : ¬v.toNat < fieldPrime) : needCanon v = .error .range := dif_neg h

theorem needKey_ready {s : State} (h : s.ksv = true) : needKey s = .ok s.ks := if_pos h

theorem needKey_not {s : State} (h : ¬s.ksv = true) : needKey s = .error .nokey := if_neg h

/-! ### Commands -/

/-- What a command can write: nothing, a data register, a point register, EQ, or the key schedule. A point written
is on the curve if every point register held one (10_state R35). -/
inductive Wrote (s : State) : State → Prop
  | nothing : Wrote s s
  | data (d : DReg) (x : Data) : Wrote s (s.writeData d x)
  | point (d : PReg) (q : Point) (h : PointsOnCurve s → pointOnCurve q = true) : Wrote s (s.writePoint d q)
  | eq (b : Bool) : Wrote s (s.writeEq b)
  | schedule (key : Data) : Wrote s (s.writeSchedule (expandKey key))

/-- The result of a command body: an error other than NONE, or results of one of the kinds of `Wrote`. -/
def GoodResult (s : State) : Except ErrCode State → Prop
  | .ok t => Wrote s t
  | .error c => c ≠ .none

theorem GoodResult.bind {α : Type} {s : State} {x : Except ErrCode α} {f : α → Except ErrCode State}
    (hx : ∀ c, x = .error c → c ≠ .none) (hf : ∀ a, x = .ok a → GoodResult s (f a)) :
    GoodResult s (x >>= f) := by
  cases x with
  | error c => exact hx c rfl
  | ok a => exact hf a rfl

theorem bind_error_ne {α β : Type} {x : Except ErrCode α} {f : α → Except ErrCode β}
    (hx : ∀ c, x = .error c → c ≠ .none) (hf : ∀ a c, f a = .error c → c ≠ .none) :
    ∀ c, (x >>= f) = .error c → c ≠ .none := by
  cases x with
  | error c => intro c' h; cases h; exact hx c rfl
  | ok a => exact hf a

theorem needData_error (s : State) (a : DReg) : ∀ c, needData s a = .error c → c ≠ .none := by
  intro c h; unfold needData at h; split at h <;> cases h; simp

theorem needPoint_error (s : State) (a : PReg) : ∀ c, needPoint s a = .error c → c ≠ .none := by
  intro c h; unfold needPoint at h; split at h <;> cases h; simp

theorem needCanon_error (v : Data) : ∀ c, needCanon v = .error c → c ≠ .none := by
  intro c h; unfold needCanon at h; split at h <;> cases h; simp

theorem needKey_error (s : State) : ∀ c, needKey s = .error c → c ≠ .none := by
  intro c h; unfold needKey at h; split at h <;> cases h; simp

theorem needAffine_error (q : Point) : ∀ c, needAffine q = .error c → c ≠ .none := by
  intro c h; cases q <;> cases h; simp

theorem needData2_error (s : State) (a b : DReg) : ∀ c, needData2 s a b = .error c → c ≠ .none :=
  bind_error_ne (needData_error s a) fun _ => bind_error_ne (needData_error s b) fun _ _ h => by cases h

theorem needPoint2_error (s : State) (a b : PReg) : ∀ c, needPoint2 s a b = .error c → c ≠ .none :=
  bind_error_ne (needPoint_error s a) fun _ => bind_error_ne (needPoint_error s b) fun _ _ h => by cases h

theorem needElem_error (s : State) (a : DReg) : ∀ c, needElem s a = .error c → c ≠ .none :=
  bind_error_ne (needData_error s a) fun v => needCanon_error v

theorem needElem2_error (s : State) (a b : DReg) : ∀ c, needElem2 s a b = .error c → c ≠ .none :=
  bind_error_ne (needData2_error s a b) fun v =>
    bind_error_ne (needCanon_error v.1) fun _ => bind_error_ne (needCanon_error v.2) fun _ _ h => by cases h

theorem needDataKey_error (s : State) (a : DReg) : ∀ c, needDataKey s a = .error c → c ≠ .none :=
  bind_error_ne (needData_error s a) fun _ => bind_error_ne (needKey_error s) fun _ _ h => by cases h

theorem needPoint_onCurve {s : State} {a : PReg} {q : Point} (h : needPoint s a = .ok q) (hs : PointsOnCurve s) :
    pointOnCurve q = true := by
  unfold needPoint at h; split at h <;> cases h; exact hs a

theorem needPoint2_onCurve {s : State} {a b : PReg} {q t : Point} (h : needPoint2 s a b = .ok (q, t))
    (hs : PointsOnCurve s) : pointOnCurve q = true ∧ pointOnCurve t = true := by
  unfold needPoint2 at h
  cases hq : needPoint s a <;> cases ht : needPoint s b <;> rw [hq, ht] at h <;> cases h
  exact ⟨needPoint_onCurve hq hs, needPoint_onCurve ht hs⟩

/-- What any command does (60_exceptions R331): it completes with results of one kind, or it fails with an error
and writes nothing else. -/
inductive Completes (s : State) : Out → Prop
  | ok (t : State) (h : Wrote s t) : Completes s (.next t.complete)
  | fail (c : ErrCode) (h : c ≠ .none) : Completes s (.next (s.failCommand c))

theorem retire_completes {s : State} {x : Except ErrCode State} (h : GoodResult s x) : Completes s (retire s x) := by
  cases x with
  | ok t => exact .ok t h
  | error c => exact .fail c h

theorem laneCommand_completes (f : Lane → Lane) (d a : DReg) (s : State) : Completes s (laneCommand f d a s) :=
  retire_completes <| .bind (needData_error s a) fun _ _ => .data _ _

theorem keyedLaneCommand_completes (f : Schedule → Lane → Lane) (d a : DReg) (s : State) :
    Completes s (keyedLaneCommand f d a s) :=
  retire_completes <| .bind (needDataKey_error s a) fun _ _ => .data _ _

/-- Every command completes, in one of the two ways. -/
theorem exec_completes (i : Instr) (s : State) : Completes s (exec i s) := by
  cases i with
  | nop => exact .ok _ .nothing
  | fadd d a b => exact retire_completes <| .bind (needElem2_error s a b) fun _ _ => .data _ _
  | fsub d a b => exact retire_completes <| .bind (needElem2_error s a b) fun _ _ => .data _ _
  | fmul d a b => exact retire_completes <| .bind (needElem2_error s a b) fun _ _ => .data _ _
  | fpow d a b =>
    exact retire_completes <| .bind (needData2_error s a b) fun _ _ => .bind (needCanon_error _) fun _ _ => .data _ _
  | finv d a =>
    refine retire_completes <| .bind (needElem_error s a) fun x _ => ?_
    by_cases h : x.val = 0
    · simp only [h, if_true]; exact (by simp : ErrCode.div0 ≠ .none)
    · simp only [h, if_false]; exact Wrote.data _ _
  | fdiv d a b =>
    refine retire_completes <| .bind (needElem2_error s a b) fun x _ => ?_
    by_cases h : x.2.val = 0
    · simp only [h, if_true]; exact (by simp : ErrCode.div0 ≠ .none)
    · simp only [h, if_false]; exact Wrote.data _ _
  | fsqrt d a => exact retire_completes <| .bind (needElem_error s a) fun _ _ => .data _ _
  | pset d a b =>
    refine retire_completes <| .bind (needElem2_error s a b) fun x _ => ?_
    by_cases h : onCurve x.1 x.2 = true
    · simp only [h, if_true]; exact Wrote.point _ _ fun _ => h
    · simp only [h]; exact (by simp : ErrCode.curve ≠ .none)
  | pinf d => exact .ok _ (.point _ _ fun _ => rfl)
  | pgen d => exact .ok _ (.point _ _ fun _ => generator_onCurve)
  | pmov d a =>
    exact retire_completes <| .bind (needPoint_error s a) fun _ h => Wrote.point _ _ (needPoint_onCurve h)
  | px d a =>
    exact retire_completes <| .bind (needPoint_error s a) fun q _ => .bind (needAffine_error q) fun _ _ => .data _ _
  | py d a =>
    exact retire_completes <| .bind (needPoint_error s a) fun q _ => .bind (needAffine_error q) fun _ _ => .data _ _
  | pneg d a =>
    exact retire_completes <| .bind (needPoint_error s a) fun _ h =>
      Wrote.point _ _ fun hs => pointNeg_onCurve (needPoint_onCurve h hs)
  | padd d a b =>
    exact retire_completes <| .bind (needPoint2_error s a b) fun _ h =>
      Wrote.point _ _ fun hs => pointAdd_onCurve (needPoint2_onCurve h hs).1 (needPoint2_onCurve h hs).2
  | peq a b => exact retire_completes <| .bind (needPoint2_error s a b) fun _ _ => Wrote.eq _
  | pisinf a => exact retire_completes <| .bind (needPoint_error s a) fun _ _ => Wrote.eq _
  | pdec d a =>
    refine retire_completes <| .bind (needElem_error s a) fun x _ => ?_
    cases h : decompress x with
    | none => exact (by simp : ErrCode.curve ≠ .none)
    | some q => exact Wrote.point _ _ fun _ => decompress_onCurve h
  | pmul d a b =>
    exact retire_completes <| .bind (needData_error s a) fun _ _ => .bind (needPoint_error s b) fun _ h =>
      Wrote.point _ _ fun hs => scalarMul_onCurve _ (needPoint_onCurve h hs)
  | kexp a => exact retire_completes <| .bind (needData_error s a) fun _ _ => Wrote.schedule _
  | aese d a => exact keyedLaneCommand_completes ..
  | aesd d a => exact keyedLaneCommand_completes ..
  | asub d a => exact laneCommand_completes ..
  | aisub d a => exact laneCommand_completes ..
  | ashr d a => exact laneCommand_completes ..
  | aishr d a => exact laneCommand_completes ..
  | amix d a => exact laneCommand_completes ..
  | aimix d a => exact laneCommand_completes ..
  | aark d a k =>
    change Completes s (execAark d a k s)
    unfold execAark
    split
    · exact keyedLaneCommand_completes ..
    · exact .fail _ (by simp)
  | mov d a => exact retire_completes <| .bind (needData_error s a) fun _ _ => .data _ _
  | xor d a b => exact retire_completes <| .bind (needData2_error s a b) fun _ _ => .data _ _

/-! ### Steps -/

/-- What the turn of the engine does: nothing with no command in flight, else the completion of the command. -/
theorem engineTurn_cases (s : State) :
    (s.inflight = none ∧ engineTurn s = .next s) ∨
      (∃ w, s.inflight = some w ∧ Completes s (engineTurn s)) := by
  cases h : s.inflight with
  | none => exact .inl ⟨rfl, by rw [engineTurn, h]⟩
  | some w =>
    refine .inr ⟨w, rfl, ?_⟩
    cases hd : decode w with
    | ok i => rw [engineTurn, h]; simp only [hd]; exact exec_completes i s
    | error e => rw [engineTurn, h]; simp only [hd]; exact .fail .illegal (by simp)

/-- What one step does: the engine's turn (with the input list used up, or an engine turn taken off it), a host
access, or a reset. -/
theorem step_cases (s : State) :
    (s.input = [] ∧ step s = engineTurn s) ∨
      (∃ rest, s.input = .engine :: rest ∧ step s = engineTurn { s with input := rest }) ∨
      (∃ a rest, s.input = .host a :: rest ∧ step s = performAccess { s with input := rest } a) ∨
      (∃ rest, s.input = .resetInput :: rest ∧ step s = .next (State.resetUnit { s with input := rest })) := by
  unfold step nextMove
  match h : s.input with
  | [] => exact .inl ⟨rfl, rfl⟩
  | .engine :: rest => exact .inr (.inl ⟨rest, rfl, rfl⟩)
  | .host a :: rest => exact .inr (.inr (.inl ⟨a, rest, rfl, rfl⟩))
  | .resetInput :: rest => exact .inr (.inr (.inr ⟨rest, rfl, rfl⟩))

end Sys2Proof.Machine
end

