-- ==== Sys2Proof/Laws/Window.lean ====
section
/-! SUPPORT. The register window: where each offset leads, what an access can answer, and what a read or a write can
change: one lemma each. -/

namespace Sys2Proof.Machine

/-! ### Where an offset leads (20_memory R71) -/

theorem locate_rwin (i : DReg) (j : Fin 8) : locate (0x100 + 32 * i + 4 * j) = .rwin i j := by
  revert i j; decide +kernel

theorem locate_kswin (j : Fin 60) : locate (0x300 + 4 * j) = .kswin j := by
  revert j; decide +kernel

theorem locate_reserved {off : Nat} (h : (0x014 ≤ off ∧ off < 0x100) ∨ 0x3F0 ≤ off) : locate off = .reserved := by
  unfold locate
  rw [if_neg (by omega), if_neg (by omega), if_neg (by omega), if_neg (by omega), if_neg (by omega),
    dif_neg (by omega), dif_neg (by omega)]

/-- Everything `locate` can answer, with the offset that answers it. -/
theorem locate_cases (off : Nat) :
    (off = 0x000 ∧ locate off = .id) ∨ (off = 0x004 ∧ locate off = .ctrl) ∨ (off = 0x008 ∧ locate off = .status) ∨
      (off = 0x00C ∧ locate off = .cmd) ∨ (off = 0x010 ∧ locate off = .cmdcnt) ∨
      (0x100 ≤ off ∧ off < 0x300 ∧ ∃ i j, locate off = .rwin i j) ∨
      (0x300 ≤ off ∧ off < 0x3F0 ∧ ∃ j, locate off = .kswin j) ∨ locate off = .reserved := by
  unfold locate
  split; · simp_all
  split; · simp_all
  split; · simp_all
  split; · simp_all
  split; · simp_all
  split; · simp_all
  split; · simp_all
  simp

/-! ### Accesses -/

theorem performAccess_read {s : State} {off : Nat} (h : off % 4 = 0) (h' : off < 4096) :
    performAccess s (.read off 4) = .next (s.hostRead (locate off)) := by
  simp [performAccess, checkedAccess, h, h']

theorem performAccess_write {s : State} {off : Nat} (w : Word) (h : off % 4 = 0) (h' : off < 4096) :
    performAccess s (.write off 4 w) = .next (s.hostWrite (locate off) w) := by
  simp [performAccess, checkedAccess, h, h']

/-- An access that completes is an aligned 32-bit access inside the window. -/
theorem performAccess_cases {s t : State} {a : HostAccess} (h : performAccess s a = .next t) :
    (∃ off, a = .read off 4 ∧ off % 4 = 0 ∧ off < 4096 ∧ t = s.hostRead (locate off)) ∨
      (∃ off w, a = .write off 4 w ∧ off % 4 = 0 ∧ off < 4096 ∧ t = s.hostWrite (locate off) w) := by
  cases a with
  | read off width =>
    simp only [performAccess, checkedAccess] at h
    split at h
    · cases h
    · split at h <;> cases h
      obtain rfl : width = 4 := by omega
      exact .inl ⟨off, rfl, by omega, by omega, rfl⟩
  | write off width w =>
    simp only [performAccess, checkedAccess] at h
    split at h
    · cases h
    · split at h <;> cases h
      obtain rfl : width = 4 := by omega
      exact .inr ⟨off, w, rfl, by omega, by omega, rfl⟩

/-- A host read changes only what the host has learnt. -/
theorem hostRead_eq (s : State) (reg : WindowReg) :
    ∃ w n, s.hostRead reg = { s with replies := w :: s.replies, freeCount := n } := by
  unfold State.hostRead
  split
  · exact ⟨_, _, rfl⟩
  · exact ⟨_, _, rfl⟩

theorem writeStatus_eq (s : State) (w : Word) :
    s.writeStatus w = { s with
      done := s.done && !w.getLsbD 1
      err := s.err && !w.getLsbD 2
      ecode := if w.getLsbD 2 then .none else s.ecode
      ovr := s.ovr && !w.getLsbD 3 } := by
  unfold State.writeStatus State.clearError
  cases w.getLsbD 1 <;> cases w.getLsbD 2 <;> cases w.getLsbD 3 <;> simp

/-- Everything a host write can do. -/
inductive HostWrote (s : State) (off : Nat) (w : Word) : State → Prop
  | nothing : HostWrote s off w s
  | reset (ho : off = 0x004) (h : w.getLsbD 0 = true) : HostWrote s off w s.resetUnit
  | irqen (ho : off = 0x004) (h : w.getLsbD 0 = false) : HostWrote s off w { s with irqen := w.getLsbD 1 }
  | status (ho : off = 0x008) : HostWrote s off w { s with
      done := s.done && !w.getLsbD 1
      err := s.err && !w.getLsbD 2
      ecode := if w.getLsbD 2 then .none else s.ecode
      ovr := s.ovr && !w.getLsbD 3 }
  | accepted (ho : off = 0x00C) (hb : s.inflight = none) (he : s.err = false) : HostWrote s off w (s.accept w)
  | dropped (ho : off = 0x00C ∧ (s.inflight ≠ none ∨ s.err = true) ∨ 0x100 ≤ off ∧ s.inflight ≠ none) :
      HostWrote s off w s.dropWrite
  | word (i : DReg) (j : Fin 8) (ho : 0x100 ≤ off ∧ off < 0x300) (hb : s.inflight = none) :
      HostWrote s off w { s with r := s.r.set i (setWord s.r[i] j w), v := s.v.set i (s.v[i].set j true) }

theorem hostWrite_cases (s : State) (off : Nat) (w : Word) : HostWrote s off w (s.hostWrite (locate off) w) := by
  rcases locate_cases off with ⟨_, h⟩ | ⟨ho, h⟩ | ⟨ho, h⟩ | ⟨ho, h⟩ | ⟨_, h⟩ | ⟨ho, ho', i, j, h⟩ | ⟨_, _, j, h⟩ | h <;>
    rw [h]
  · exact .nothing
  · change HostWrote s off w (s.writeCtrl w)
    unfold State.writeCtrl
    split <;> rename_i hw
    · exact .reset ho hw
    · exact .irqen ho (by simpa using hw)
  · change HostWrote s off w (s.writeStatus w)
    rw [writeStatus_eq]
    exact .status ho
  · change HostWrote s off w (s.issue w)
    unfold State.issue
    split <;> rename_i hb
    · exact .dropped (.inl ⟨ho, by simpa [State.busy, Option.isSome_iff_ne_none] using hb⟩)
    · have hb : s.inflight = none ∧ s.err = false := by simpa [State.busy] using hb
      exact .accepted ho hb.1 hb.2
  · exact .nothing
  · change HostWrote s off w (s.writeWindowWord i j w)
    unfold State.writeWindowWord
    split <;> rename_i hb
    · exact .dropped (.inr ⟨ho, by simpa [State.busy, Option.isSome_iff_ne_none] using hb⟩)
    · exact .word i j ⟨ho, ho'⟩ (by simpa [State.busy] using hb)
  · exact .nothing
  · exact .nothing

end Sys2Proof.Machine
end

