-- ==== Sys2Proof/Machine/HostProgram.lean ====
section
/-! DEFINITION. Host programs (00_scope R20, 30_encoding R125 to R127): the lines a host performs, the
accesses they make, and the runs of a program. No step of the unit rests on this file. -/

namespace Sys2Proof.Machine

/-- The pseudo-instructions of 30_encoding R127, operands in its order. -/
inductive Pseudo where
  | pdbl (d a : PReg)
  | fsqr (d a : DReg)
  | fneg (d a z : DReg)
  | zero (d : DReg)
  | pubkey (d a : DReg) (t : PReg)
  | ecdh (d x a : DReg) (t : PReg)
  | encchunk (d m c : DReg)
  | decchunk (d m c : DReg)
  deriving DecidableEq, Repr

/-- The expansions of 30_encoding R127. -/
def Pseudo.expand : Pseudo → List Instr
  | .pdbl d a => [.padd d a a]
  | .fsqr d a => [.fmul d a a]
  | .fneg d a z => [.fsub d z a]
  | .zero d => [.xor d d d]
  | .pubkey d a t => [.pgen t, .pmul t a t, .px d t]
  | .ecdh d x a t => [.pdec t x, .pmul t a t, .px d t]
  | .encchunk d m c => [.xor d c m, .aese d d]
  | .decchunk d m c => [.aesd d c, .xor d d m]

/-- A line of a host program: a command (operands as 30_encoding R125 lists them: the arguments of its constructor), a
pseudo-instruction, or a directive (R126). -/
inductive HostLine where
  | command (i : Instr)
  | pseudo (q : Pseudo)
  | wr (n : DReg) (v : Data)
  | rd (n : DReg)
  | wait
  | st
  | clr
  | ctrl (v : Word)
  deriving DecidableEq, Repr

/-- What the assembler rejects beyond what the types rule out: an AARK immediate above 14 (30_encoding R125). -/
def HostLine.wellFormed : HostLine → Bool
  | .command i => i.wellFormed
  | .pseudo _ | .wr _ _ | .rd _ | .wait | .st | .clr | .ctrl _ => true

/-- What the host is to do next: one access, or the poll of a wait, which reads STATUS again and again until a read
finds BUSY = 0. -/
inductive HostMove where
  | access (a : HostAccess)
  | poll
  deriving DecidableEq, Repr

/-- The read of STATUS that a poll repeats (R126). -/
def statusRead : HostAccess := .read 0x008 4

/-- The access the host makes for a move. -/
def HostMove.hostAccess : HostMove → HostAccess
  | .access a => a
  | .poll => statusRead

/-- A command line: `.wait`, then the CMD write (R20, R126). -/
def commandMoves (i : Instr) : List HostMove := [.poll, .access (.write 0x00C 4 (encode i))]

/-- The moves of one line (R20, R126), in the host's order. Each command of a pseudo-instruction has its own wait. -/
def HostLine.moves : HostLine → List HostMove
  | .command i => commandMoves i
  | .pseudo q => q.expand.flatMap commandMoves
  | .wr n v => (List.range 8).map fun j => .access (.write (0x100 + 32 * n + 4 * j) 4 (wordOf v j))
  | .rd n => (List.range 8).map fun j => .access (.read (0x100 + 32 * n + 4 * j) 4)
  | .wait => [.poll]
  | .st => [.access statusRead]
  | .clr => [.access (.write 0x008 4 0x0000000E)]
  | .ctrl v => [.access (.write 0x004 4 v)]

/-- The moves of a program, with the final `.wait` that R126 implies. -/
def programMoves (lines : List HostLine) : List HostMove := lines.flatMap HostLine.moves ++ [.poll]

/-- What the host still has to do after the event e, when m was next and ms follow: all of it after a turn of the engine
or a reset, the rest after m's own access, and the poll once more where it found BUSY = 1. None where e is an access
that the program does not make. -/
def HostMove.after (m : HostMove) (ms : List HostMove) (busy : Bool) : Event → Option (List HostMove)
  | .engine => some (m :: ms)
  | .resetInput => some (m :: ms)
  | .host a => if a = m.hostAccess then some (if m = .poll ∧ busy then m :: ms else ms) else none

/-- The state in which the list of events ends, where the list is a run of the program moves from the state s to its
end (70_reset R376), and none where it is not. Where a completion falls among the host's accesses is open (20_memory
R83, 60_exceptions R336, 70_reset R375; U15, U19), so every place is admitted: a turn of the engine can stand before any
access, in a wait or not. So can the release of the reset input. Log entries 4 and 27. -/
def programRun : List HostMove → List Event → State → Option State
  | [], [], s => some { s with input := [] }
  | [], _ :: _, _ => none
  | _ :: _, [], _ => none
  | m :: ms, e :: es, s =>
    match m.after ms s.busy e with
    | none => none
    | some left =>
      match step { s with input := e :: es } with
      | .next t => programRun left es t
      | .fault _ => none
      | .refused _ => none

/-- The state in which the moves `es` are still to come: a run of a program from s, where `programRun` says that `es` is
one. Log entry 8. -/
def State.withProgram (s : State) (es : List Event) : State := { s with input := es }

end Sys2Proof.Machine
end

