-- ==== Sys2Proof/Laws/HostProgram.lean ====
section
/-! SUPPORT. Runs of host programs: a run is a run of the machine, it ends with no command in flight, and every program
has one. -/

namespace Sys2Proof.Machine

theorem Completes.input {s t : State} (h : Completes s (.next t)) : t.input = s.input := by
  cases h with
  | ok u hu => cases hu <;> rfl
  | fail c hc => rfl

theorem HostWrote.input {s t : State} {off : Nat} {w : Word} (h : HostWrote s off w t) : t.input = s.input := by
  cases h <;> rfl

/-- A turn of the engine leaves the input list. -/
theorem engineTurn_input {s t : State} (h : engineTurn s = .next t) : t.input = s.input := by
  rcases engineTurn_cases s with ⟨-, he⟩ | ⟨w, -, hc⟩
  · cases he.symm.trans h; rfl
  · rw [h] at hc; exact hc.input

/-- A step takes the event it performs off the list. -/
theorem step_input {s t : State} {e : Event} {es : List Event} (h : step { s with input := e :: es } = .next t) :
    t.input = es := by
  cases e with
  | engine => exact engineTurn_input (s := { s with input := es }) h
  | resetInput => cases h; rfl
  | host a =>
    rcases performAccess_cases (s := { s with input := es }) h with ⟨off, -, -, -, rfl⟩ | ⟨off, w, -, -, -, rfl⟩
    · obtain ⟨w, n, hr⟩ := hostRead_eq { s with input := es } (locate off)
      rw [hr]
    · exact (hostWrite_cases _ off w).input

/-- A turn of the engine with its event first on the list always answers, and leaves nothing in flight. -/
theorem engine_event_idle (s : State) (es : List Event) :
    ∃ t, step { s with input := .engine :: es } = .next t ∧ t.busy = false := by
  change ∃ t, engineTurn { s with input := es } = .next t ∧ _
  rcases engineTurn_cases { s with input := es } with ⟨hi, he⟩ | ⟨w, -, hc⟩
  · exact ⟨_, he, by rw [State.busy, hi]; rfl⟩
  · generalize engineTurn { s with input := es } = o at hc
    cases hc with
    | ok u hu => exact ⟨_, rfl, rfl⟩
    | fail c hc => exact ⟨_, rfl, rfl⟩

/-- One event of a run. -/
theorem programRun_cons {m : HostMove} {ms : List HostMove} {e : Event} {es : List Event} {s t : State}
    (h : programRun (m :: ms) (e :: es) s = some t) :
    ∃ left u, m.after ms s.busy e = some left ∧ step { s with input := e :: es } = .next u ∧
      programRun left es u = some t := by
  unfold programRun at h
  split at h
  · cases h
  · split at h
    · exact ⟨_, _, ‹_›, ‹_›, h⟩
    · cases h
    · cases h

theorem run_succ {M : Host.Core} {k : Nat} {s u : M.State} (h : M.step s = .next u) : M.run (k + 1) s = M.run k u := by
  rw [Host.Core.run, h]

/-- A run of a program is a run of the machine on the program's events. -/
theorem programRun_steps {es : List Event} :
    ∀ {ms : List HostMove} {s t : State}, programRun ms es s = some t →
      Sys2Proof.core.run es.length (s.withProgram es) = .next t := by
  induction es with
  | nil =>
    intro ms s t h
    cases ms with
    | nil => cases h; rfl
    | cons m ms => cases h
  | cons e es ih =>
    intro ms s t h
    cases ms with
    | nil => cases h
    | cons m ms =>
      obtain ⟨left, u, -, hu, hr⟩ := programRun_cons h
      have hi : u.withProgram es = u := by rw [State.withProgram, ← step_input hu]
      exact (run_succ (M := Sys2Proof.core) (s := s.withProgram (e :: es)) hu).trans (hi ▸ ih hr)

/-- A poll that is left behind found BUSY = 0; a read leaves BUSY. -/
theorem poll_left {s u : State} {ms left : List HostMove} {e : Event} {es : List Event}
    (h : HostMove.poll.after ms s.busy e = some left) (hu : step { s with input := e :: es } = .next u) :
    left = .poll :: ms ∨ (left = ms ∧ u.busy = false) := by
  cases e with
  | engine => cases h; exact .inl rfl
  | resetInput => cases h; exact .inl rfl
  | host a =>
    simp only [HostMove.after] at h
    split at h
    · rename_i ha
      subst ha
      cases hb : s.busy <;> simp only [hb] at h <;> cases h
      · refine .inr ⟨by simp, ?_⟩
        obtain ⟨w, n, hr⟩ := hostRead_eq { s with input := es } (locate 0x008)
        cases (performAccess_read (s := { s with input := es }) (off := 0x008) rfl (by decide)).symm.trans hu
        rw [hr]
        exact hb
      · exact .inl (by simp)
    · cases h

/-- 70_reset R376: a run that ends with a wait ends with no command in flight. -/
theorem programRun_idle {es : List Event} :
    ∀ {ms : List HostMove} {s t : State}, programRun (ms ++ [.poll]) es s = some t → t.busy = false := by
  induction es with
  | nil => intro ms s t h; cases ms <;> cases h
  | cons e es ih =>
    intro ms s t h
    cases ms with
    | nil =>
      obtain ⟨left, u, hl, hu, hr⟩ := programRun_cons h
      rcases poll_left hl hu with rfl | ⟨rfl, hb⟩
      · exact ih (ms := []) hr
      · cases es with
        | nil => cases hr; exact hb
        | cons e es => cases hr
    | cons m ms =>
      obtain ⟨left, u, hl, -, hr⟩ := programRun_cons h
      have : left = m :: (ms ++ [.poll]) ∨ left = ms ++ [.poll] := by
        cases e with
        | engine => cases hl; exact .inl rfl
        | resetInput => cases hl; exact .inl rfl
        | host a =>
          simp only [HostMove.after] at hl
          split at hl
          · cases hl; split
            · exact .inl rfl
            · exact .inr rfl
          · cases hl
      rcases this with rfl | rfl
      · exact ih (ms := m :: ms) hr
      · exact ih hr

/-! ### Every program has a run -/

/-- The outcome with another input list in its next state. -/
def Out.setInput (l : List Event) : Out → Out
  | .next t => .next { t with input := l }
  | .fault f => .fault f
  | .refused f => .refused f

/-- The end of a command whose body starts with a check of its operands. -/
theorem retire_bind_input {α : Type} {s : State} {l : List Event} (x : Except ErrCode α)
    {f g : α → Except ErrCode State}
    (h : ∀ a, retire { s with input := l } (f a) = Out.setInput l (retire s (g a))) :
    retire { s with input := l } (x >>= f) = Out.setInput l (retire s (x >>= g)) := by
  cases x with
  | error c => rfl
  | ok a => exact h a

/-- A command neither reads nor changes the input list. -/
theorem exec_input (i : Instr) (s : State) (l : List Event) :
    exec i { s with input := l } = Out.setInput l (exec i s) := by
  cases i with
  | nop => rfl
  | pinf d => rfl
  | pgen d => rfl
  | fadd d a b | fsub d a b | fmul d a b => exact retire_bind_input (needElem2 s a b) fun _ => rfl
  | fpow d a b => exact retire_bind_input (needData2 s a b) fun x => retire_bind_input (needCanon x.1) fun _ => rfl
  | finv d a => exact retire_bind_input (needElem s a) fun x => by dsimp only; split <;> rfl
  | fdiv d a b => exact retire_bind_input (needElem2 s a b) fun x => by dsimp only; split <;> rfl
  | pset d a b => exact retire_bind_input (needElem2 s a b) fun x => by dsimp only; split <;> rfl
  | pdec d a => exact retire_bind_input (needElem s a) fun x => by cases decompress x <;> rfl
  | fsqrt d a => exact retire_bind_input (needElem s a) fun _ => rfl
  | pmov d a | pneg d a | pisinf a => exact retire_bind_input (needPoint s a) fun _ => rfl
  | px d a | py d a => exact retire_bind_input (needPoint s a) fun q => retire_bind_input (needAffine q) fun _ => rfl
  | padd d a b => exact retire_bind_input (needPoint2 s a b) fun _ => rfl
  | peq a b => exact retire_bind_input (needPoint2 s a b) fun _ => rfl
  | pmul d a b => exact retire_bind_input (needData s a) fun _ => retire_bind_input (needPoint s b) fun _ => rfl
  | xor d a b => exact retire_bind_input (needData2 s a b) fun _ => rfl
  | kexp a | mov d a | asub d a | aisub d a | ashr d a | aishr d a | amix d a | aimix d a =>
    exact retire_bind_input (needData s a) fun _ => rfl
  | aese d a | aesd d a => exact retire_bind_input (needDataKey s a) fun _ => rfl
  | aark d a k =>
    change execAark d a k _ = Out.setInput l (execAark d a k s)
    unfold execAark
    split
    · exact retire_bind_input (needDataKey s a) fun _ => rfl
    · rfl
/-- The turn of the engine neither reads nor changes the input list. -/
theorem engineTurn_setInput (s : State) (l : List Event) :
    engineTurn { s with input := l } = Out.setInput l (engineTurn s) := by
  rcases s with ⟨r, v, p, pv, ks, ksv, eqFlag, irqen, done, err, ovr, ecode, cmdLast, cmdCnt, inflight, input, replies, n⟩
  cases inflight with
  | none => rfl
  | some w =>
    dsimp only [engineTurn]
    cases decode w with
    | ok i =>
      exact exec_input i ⟨r, v, p, pv, ks, ksv, eqFlag, irqen, done, err, ovr, ecode, cmdLast, cmdCnt, some w, input,
        replies, n⟩ l
    | error e => rfl

/-- Neither does a host access. -/
theorem performAccess_setInput (s : State) (a : HostAccess) (l : List Event) :
    performAccess { s with input := l } a = Out.setInput l (performAccess s a) := by
  have hw (reg w) : State.hostWrite { s with input := l } reg w = { s.hostWrite reg w with input := l } := by
    cases reg with
    | ctrl =>
      by_cases h : w.getLsbD 0 = true
      · rw [show s.hostWrite .ctrl w = _ from if_pos h]; exact if_pos h
      · rw [show s.hostWrite .ctrl w = _ from if_neg h]; exact if_neg h
    | status => dsimp only [State.hostWrite]; rw [writeStatus_eq, writeStatus_eq]
    | cmd =>
      by_cases h : (s.busy || s.err) = true
      · rw [show s.hostWrite .cmd w = _ from if_pos h]; exact if_pos h
      · rw [show s.hostWrite .cmd w = _ from if_neg h]; exact if_neg h
    | rwin i j =>
      by_cases h : s.busy = true
      · rw [show s.hostWrite (.rwin i j) w = _ from if_pos h]; exact if_pos h
      · rw [show s.hostWrite (.rwin i j) w = _ from if_neg h]; exact if_neg h
    | _ => rfl
  have hr (reg) : State.hostRead { s with input := l } reg = { s.hostRead reg with input := l } := by
    unfold State.hostRead
    change (match s.windowValue reg with | some w => _ | none => _) = _
    cases s.windowValue reg <;> rfl
  cases a <;> simp only [performAccess, checkedAccess, hw, hr] <;> split
  · rfl
  · split <;> rfl
  · rfl
  · split <;> rfl

/-- What a step does rests on its event alone, not on the events after it. -/
theorem step_event (s : State) (e : Event) (es : List Event) :
    step { s with input := e :: es } = Out.setInput es (step { s with input := [e] }) := by
  cases e with
  | engine => exact engineTurn_setInput { s with input := [] } es
  | resetInput => rfl
  | host a => exact performAccess_setInput { s with input := [] } a es

theorem programRun_input (ms : List HostMove) (es l : List Event) (s : State) :
    programRun ms es { s with input := l } = programRun ms es s := by
  cases ms <;> cases es <;> rfl

/-- An access that completes in every state: an aligned 32-bit access inside the window. -/
def HostAccess.Allowed : HostAccess → Prop
  | .read off width => width = 4 ∧ off % 4 = 0 ∧ off < 4096
  | .write off width _ => width = 4 ∧ off % 4 = 0 ∧ off < 4096

theorem step_allowed {a : HostAccess} (h : a.Allowed) (s : State) (es : List Event) :
    ∃ t, step { s with input := .host a :: es } = .next t := by
  cases a with
  | read off width =>
    obtain ⟨rfl, h1, h2⟩ := h
    exact ⟨_, performAccess_read (s := { s with input := es }) h1 h2⟩
  | write off width w =>
    obtain ⟨rfl, h1, h2⟩ := h
    exact ⟨_, performAccess_write (s := { s with input := es }) w h1 h2⟩

/-- Every program of allowed accesses has a run from every state: the one in which every command completes before the
next access. -/
theorem exists_programRun {ms : List HostMove} (h : ∀ m ∈ ms, m.hostAccess.Allowed) :
    ∀ s, ∃ es t, programRun ms es s = some t := by
  induction ms with
  | nil => exact fun s => ⟨[], _, rfl⟩
  | cons m ms ih =>
    intro s
    obtain ⟨t, ht, hb⟩ := engine_event_idle s []
    obtain ⟨u, hu⟩ := step_allowed (h m (by simp)) t []
    obtain ⟨es, v, hv⟩ := ih (fun m hm => h m (by simp [hm])) u
    refine ⟨.engine :: .host m.hostAccess :: es, v, ?_⟩
    have h1 : step { s with input := .engine :: .host m.hostAccess :: es } =
        .next { t with input := .host m.hostAccess :: es } := by rw [step_event, ht]; rfl
    have h2 : step { t with input := .host m.hostAccess :: es } = .next { u with input := es } := by
      rw [step_event, hu]; rfl
    have hb' : State.busy { t with input := .host m.hostAccess :: es } = false := hb
    simp only [programRun, HostMove.after, h1, hb', h2, programRun_input]
    simp [hv]

/-- A program's lines make allowed accesses only. -/
theorem programMoves_allowed (lines : List HostLine) : ∀ m ∈ programMoves lines, m.hostAccess.Allowed := by
  have hp : HostMove.poll.hostAccess.Allowed := ⟨rfl, rfl, by decide⟩
  have hc (i : Instr) : ∀ m ∈ commandMoves i, m.hostAccess.Allowed := by
    intro m hm
    rcases List.mem_cons.1 hm with rfl | hm
    · exact hp
    · obtain rfl := List.mem_singleton.1 hm
      exact ⟨rfl, rfl, by decide⟩
  intro m hm
  rcases List.mem_append.1 hm with hm | hm
  · obtain ⟨line, -, hm⟩ := List.mem_flatMap.1 hm
    cases line with
    | command i => exact hc i m hm
    | pseudo q =>
      obtain ⟨i, -, hm⟩ := List.mem_flatMap.1 hm
      exact hc i m hm
    | wr n v =>
      obtain ⟨j, hj, rfl⟩ := List.mem_map.1 hm
      have := List.mem_range.1 hj
      exact ⟨rfl, by omega, by omega⟩
    | rd n =>
      obtain ⟨j, hj, rfl⟩ := List.mem_map.1 hm
      have := List.mem_range.1 hj
      exact ⟨rfl, by omega, by omega⟩
    | wait => obtain rfl := List.mem_singleton.1 hm; exact hp
    | st => obtain rfl := List.mem_singleton.1 hm; exact ⟨rfl, rfl, by decide⟩
    | clr => obtain rfl := List.mem_singleton.1 hm; exact ⟨rfl, rfl, by decide⟩
    | ctrl v => obtain rfl := List.mem_singleton.1 hm; exact ⟨rfl, rfl, by decide⟩
  · obtain rfl := List.mem_singleton.1 hm
    exact hp

end Sys2Proof.Machine
end

