-- ==== Sys2Proof/Laws/PerInstr.lean ====
section
/-! SUPPORT. Statements made for every instruction, one lemma per constructor. -/

namespace Sys2Proof.Laws.EncodingRow

/-- The command's word keeps every bit that its row of the opcode map fixes (30_encoding R104: a word w encodes the
row when (w AND mask) = match), and the row found by OP is that row. -/
def Statement (i : Instr) : Prop :=
  ∃ row, rowOf (fieldOp (encode i)) = some row ∧ encode i &&& row.mask = row.pattern

/-- A word whose row is known keeps the row's bits if its fields do. -/
theorem of_fields {op d a b k : Nat} (row : OpRow) (h : rowOf (BitVec.ofNat 8 op) = some row)
    {mo : BitVec 8} {md ma mb mk : BitVec 4} {mz : BitVec 8}
    (hm : row.mask = (mo ++ md ++ ma ++ mb ++ mk ++ mz : BitVec 32))
    (hp : ((BitVec.ofNat 8 op &&& mo) ++ (BitVec.ofNat 4 d &&& md) ++ (BitVec.ofNat 4 a &&& ma) ++
      (BitVec.ofNat 4 b &&& mb) ++ (BitVec.ofNat 4 k &&& mk) ++ (0 : BitVec 8) : BitVec 32) = row.pattern) :
    ∃ r, rowOf (fieldOp (commandWord op d a b k)) = some r ∧ commandWord op d a b k &&& r.mask = r.pattern :=
  ⟨row, by rw [fieldOp_commandWord]; exact h, by rw [hm, commandWord_and]; exact hp⟩

theorem nop : Statement (.nop) :=
  of_fields _ rfl (mo := 0xFF) (md := 15) (ma := 15) (mb := 15) (mk := 15) (mz := 0xFF) (by decide)
    (by decide)

theorem fadd (d : DReg) (a : DReg) (b : DReg) : Statement (.fadd d a b) :=
  of_fields _ rfl (mo := 0xFF) (md := 0) (ma := 0) (mb := 0) (mk := 15) (mz := 0xFF) (by decide)
    (by simp only [anyField_free]; decide)

theorem fsub (d : DReg) (a : DReg) (b : DReg) : Statement (.fsub d a b) :=
  of_fields _ rfl (mo := 0xFF) (md := 0) (ma := 0) (mb := 0) (mk := 15) (mz := 0xFF) (by decide)
    (by simp only [anyField_free]; decide)

theorem fmul (d : DReg) (a : DReg) (b : DReg) : Statement (.fmul d a b) :=
  of_fields _ rfl (mo := 0xFF) (md := 0) (ma := 0) (mb := 0) (mk := 15) (mz := 0xFF) (by decide)
    (by simp only [anyField_free]; decide)

theorem fpow (d : DReg) (a : DReg) (b : DReg) : Statement (.fpow d a b) :=
  of_fields _ rfl (mo := 0xFF) (md := 0) (ma := 0) (mb := 0) (mk := 15) (mz := 0xFF) (by decide)
    (by simp only [anyField_free]; decide)

theorem finv (d : DReg) (a : DReg) : Statement (.finv d a) :=
  of_fields _ rfl (mo := 0xFF) (md := 0) (ma := 0) (mb := 15) (mk := 15) (mz := 0xFF) (by decide)
    (by simp only [anyField_free]; decide)

theorem fdiv (d : DReg) (a : DReg) (b : DReg) : Statement (.fdiv d a b) :=
  of_fields _ rfl (mo := 0xFF) (md := 0) (ma := 0) (mb := 0) (mk := 15) (mz := 0xFF) (by decide)
    (by simp only [anyField_free]; decide)

theorem fsqrt (d : DReg) (a : DReg) : Statement (.fsqrt d a) :=
  of_fields _ rfl (mo := 0xFF) (md := 0) (ma := 0) (mb := 15) (mk := 15) (mz := 0xFF) (by decide)
    (by simp only [anyField_free]; decide)

theorem pset (d : PReg) (a : DReg) (b : DReg) : Statement (.pset d a b) :=
  of_fields _ rfl (mo := 0xFF) (md := 8) (ma := 0) (mb := 0) (mk := 15) (mz := 0xFF) (by decide)
    (by simp only [pointField_bit3, anyField_free]; decide)

theorem pinf (d : PReg) : Statement (.pinf d) :=
  of_fields _ rfl (mo := 0xFF) (md := 8) (ma := 15) (mb := 15) (mk := 15) (mz := 0xFF) (by decide)
    (by simp only [pointField_bit3]; decide)

theorem pgen (d : PReg) : Statement (.pgen d) :=
  of_fields _ rfl (mo := 0xFF) (md := 8) (ma := 15) (mb := 15) (mk := 15) (mz := 0xFF) (by decide)
    (by simp only [pointField_bit3]; decide)

theorem pmov (d : PReg) (a : PReg) : Statement (.pmov d a) :=
  of_fields _ rfl (mo := 0xFF) (md := 8) (ma := 8) (mb := 15) (mk := 15) (mz := 0xFF) (by decide)
    (by simp only [pointField_bit3]; decide)

theorem px (d : DReg) (a : PReg) : Statement (.px d a) :=
  of_fields _ rfl (mo := 0xFF) (md := 0) (ma := 8) (mb := 15) (mk := 15) (mz := 0xFF) (by decide)
    (by simp only [pointField_bit3, anyField_free]; decide)

theorem py (d : DReg) (a : PReg) : Statement (.py d a) :=
  of_fields _ rfl (mo := 0xFF) (md := 0) (ma := 8) (mb := 15) (mk := 15) (mz := 0xFF) (by decide)
    (by simp only [pointField_bit3, anyField_free]; decide)

theorem pneg (d : PReg) (a : PReg) : Statement (.pneg d a) :=
  of_fields _ rfl (mo := 0xFF) (md := 8) (ma := 8) (mb := 15) (mk := 15) (mz := 0xFF) (by decide)
    (by simp only [pointField_bit3]; decide)

theorem padd (d : PReg) (a : PReg) (b : PReg) : Statement (.padd d a b) :=
  of_fields _ rfl (mo := 0xFF) (md := 8) (ma := 8) (mb := 8) (mk := 15) (mz := 0xFF) (by decide)
    (by simp only [pointField_bit3]; decide)

theorem peq (a : PReg) (b : PReg) : Statement (.peq a b) :=
  of_fields _ rfl (mo := 0xFF) (md := 15) (ma := 8) (mb := 8) (mk := 15) (mz := 0xFF) (by decide)
    (by simp only [pointField_bit3]; decide)

theorem pisinf (a : PReg) : Statement (.pisinf a) :=
  of_fields _ rfl (mo := 0xFF) (md := 15) (ma := 8) (mb := 15) (mk := 15) (mz := 0xFF) (by decide)
    (by simp only [pointField_bit3]; decide)

theorem pdec (d : PReg) (a : DReg) : Statement (.pdec d a) :=
  of_fields _ rfl (mo := 0xFF) (md := 8) (ma := 0) (mb := 15) (mk := 15) (mz := 0xFF) (by decide)
    (by simp only [pointField_bit3, anyField_free]; decide)

theorem pmul (d : PReg) (a : DReg) (b : PReg) : Statement (.pmul d a b) :=
  of_fields _ rfl (mo := 0xFF) (md := 8) (ma := 0) (mb := 8) (mk := 15) (mz := 0xFF) (by decide)
    (by simp only [pointField_bit3, anyField_free]; decide)

theorem kexp (a : DReg) : Statement (.kexp a) :=
  of_fields _ rfl (mo := 0xFF) (md := 15) (ma := 0) (mb := 15) (mk := 15) (mz := 0xFF) (by decide)
    (by simp only [anyField_free]; decide)

theorem aese (d : DReg) (a : DReg) : Statement (.aese d a) :=
  of_fields _ rfl (mo := 0xFF) (md := 0) (ma := 0) (mb := 15) (mk := 15) (mz := 0xFF) (by decide)
    (by simp only [anyField_free]; decide)

theorem aesd (d : DReg) (a : DReg) : Statement (.aesd d a) :=
  of_fields _ rfl (mo := 0xFF) (md := 0) (ma := 0) (mb := 15) (mk := 15) (mz := 0xFF) (by decide)
    (by simp only [anyField_free]; decide)

theorem asub (d : DReg) (a : DReg) : Statement (.asub d a) :=
  of_fields _ rfl (mo := 0xFF) (md := 0) (ma := 0) (mb := 15) (mk := 15) (mz := 0xFF) (by decide)
    (by simp only [anyField_free]; decide)

theorem aisub (d : DReg) (a : DReg) : Statement (.aisub d a) :=
  of_fields _ rfl (mo := 0xFF) (md := 0) (ma := 0) (mb := 15) (mk := 15) (mz := 0xFF) (by decide)
    (by simp only [anyField_free]; decide)

theorem ashr (d : DReg) (a : DReg) : Statement (.ashr d a) :=
  of_fields _ rfl (mo := 0xFF) (md := 0) (ma := 0) (mb := 15) (mk := 15) (mz := 0xFF) (by decide)
    (by simp only [anyField_free]; decide)

theorem aishr (d : DReg) (a : DReg) : Statement (.aishr d a) :=
  of_fields _ rfl (mo := 0xFF) (md := 0) (ma := 0) (mb := 15) (mk := 15) (mz := 0xFF) (by decide)
    (by simp only [anyField_free]; decide)

theorem amix (d : DReg) (a : DReg) : Statement (.amix d a) :=
  of_fields _ rfl (mo := 0xFF) (md := 0) (ma := 0) (mb := 15) (mk := 15) (mz := 0xFF) (by decide)
    (by simp only [anyField_free]; decide)

theorem aimix (d : DReg) (a : DReg) : Statement (.aimix d a) :=
  of_fields _ rfl (mo := 0xFF) (md := 0) (ma := 0) (mb := 15) (mk := 15) (mz := 0xFF) (by decide)
    (by simp only [anyField_free]; decide)

theorem aark (d : DReg) (a : DReg) (k : Imm4) : Statement (.aark d a k) :=
  of_fields _ rfl (mo := 0xFF) (md := 0) (ma := 0) (mb := 15) (mk := 0) (mz := 0xFF) (by decide)
    (by simp only [anyField_free]; decide)

theorem mov (d : DReg) (a : DReg) : Statement (.mov d a) :=
  of_fields _ rfl (mo := 0xFF) (md := 0) (ma := 0) (mb := 15) (mk := 15) (mz := 0xFF) (by decide)
    (by simp only [anyField_free]; decide)

theorem xor (d : DReg) (a : DReg) (b : DReg) : Statement (.xor d a b) :=
  of_fields _ rfl (mo := 0xFF) (md := 0) (ma := 0) (mb := 0) (mk := 15) (mz := 0xFF) (by decide)
    (by simp only [anyField_free]; decide)

end Sys2Proof.Laws.EncodingRow
end

