-- ==== Sys2Proof/Tests/Slice0.lean ====
section
/-! SUPPORT. Small tests: encodings written out from 30_encoding R104, one-step results from 95_test_vectors (the row
is named in each comment), and a witness for the hypotheses of each statement. -/

namespace Sys2Proof.Tests

-- One theorem after another: many at once, each with a stack of its own, exceed the memory limit.
set_option Elab.async false

open Sys2Proof.Machine

/-! ### Syntax, encoding and decoding -/

/-- The one check of `wellFormed`, AARK's round number (30_encoding R102, R107 item 5), refuses k = 15 and no other. -/
theorem test_aark_round_fifteen_is_ill_formed :
    (Instr.aark 2 1 15).wellFormed = false ∧ (Instr.aark 2 1 14).wellFormed = true := by decide

/-- A word of every command, put together from the patterns of 30_encoding R104. -/
theorem test_words_of_system_and_field :
    decode 0x00000000 = .ok .nop ∧ decode 0x10312000 = .ok (.fadd 3 1 2) ∧ decode 0x11F0E000 = .ok (.fsub 15 0 14) ∧
    decode 0x12312000 = .ok (.fmul 3 1 2) ∧ decode 0x13413000 = .ok (.fpow 4 1 3) ∧
    decode 0x14210000 = .ok (.finv 2 1) ∧ decode 0x15430000 = .ok (.fdiv 4 3 0) ∧
    decode 0x16210000 = .ok (.fsqrt 2 1) := by decide +kernel

theorem test_words_of_points :
    decode 0x20012000 = .ok (.pset 0 1 2) ∧ decode 0x21500000 = .ok (.pinf 5) ∧ decode 0x22700000 = .ok (.pgen 7) ∧
    decode 0x23100000 = .ok (.pmov 1 0) ∧ decode 0x24F70000 = .ok (.px 15 7) ∧ decode 0x25200000 = .ok (.py 2 0) ∧
    decode 0x26160000 = .ok (.pneg 1 6) ∧ decode 0x27123000 = .ok (.padd 1 2 3) ∧
    decode 0x28012000 = .ok (.peq 1 2) ∧ decode 0x29070000 = .ok (.pisinf 7) ∧ decode 0x2A340000 = .ok (.pdec 3 4) ∧
    decode 0x30180000 = .ok (.pmul 1 8 0) := by decide +kernel

theorem test_words_of_aes_and_moves :
    decode 0x40050000 = .ok (.kexp 5) ∧ decode 0x41210000 = .ok (.aese 2 1) ∧ decode 0x42320000 = .ok (.aesd 3 2) ∧
    decode 0x43410000 = .ok (.asub 4 1) ∧ decode 0x44310000 = .ok (.aisub 3 1) ∧
    decode 0x45210000 = .ok (.ashr 2 1) ∧ decode 0x46310000 = .ok (.aishr 3 1) ∧
    decode 0x47210000 = .ok (.amix 2 1) ∧ decode 0x48310000 = .ok (.aimix 3 1) ∧
    decode 0x49210E00 = .ok (.aark 2 1 14) ∧ decode 0x50410000 = .ok (.mov 4 1) ∧
    decode 0x51312000 = .ok (.xor 3 1 2) := by decide +kernel

/-- 95_test_vectors E10 to E26. -/
theorem test_illegal_words :
    ([0xFFF00000, 0x10312001, 0x10312100, 0x14212000, 0x20812000, 0x30108000, 0x28112000, 0x49210F00, 0x00000001,
      0x00100000, 0x17000000, 0x2B000000, 0x31000000, 0x4A000000, 0x52000000, 0x60000000, 0xFFFFFFFF] :
      List Word).all (fun w => (decode w).toOption == none) = true := by decide +kernel

/-- The command of the table's row runs as the very first step (log entry 8). -/
theorem test_fetch_word_runs :
    decodeTableWord 32 0x22500000 = some (.pgen 5) ∧
    (match step (State.reset.withFetchWord 32 0x22500000) with
      | .next t => t.p[5] == generator && t.pv[5] && t.done && t.inflight == none && t.cmdCnt == 1
      | _ => false) = true := by decide +kernel

/-! ### A small state -/

/-- 95_test_vectors 2.7: R0 = 0, R1 = 1, R2 = 2, R3 = p valid, KSV = 0; besides, P0 = G and P2 = INF. -/
def start : State :=
  ((((State.reset.writeData 0 0).writeData 1 1).writeData 2 2).writeData 3
    0xFFFFFFFFFFFFFFFFFFFFFFFFFFFFFFFFFFFFFFFFFFFFFFFFFFFFFFFEFFFFFC2F).writePoint 0 generator |>.writePoint 2 .inf

/-- `start` with R4 = 00 01 … 1F and R5 = G.x. -/
def filled : State :=
  (start.writeData 4 0x000102030405060708090A0B0C0D0E0F101112131415161718191A1B1C1D1E1F).writeData 5
    0x79BE667EF9DCBBAC55A06295CE870B07029BFCDB2DCE28D959F2815B16F81798

/-- `filled` with an all-zero schedule marked valid. -/
def keyed : State := { filled with ksv := true }

/-- Register d after a command, or 0xBAD where it does not complete. -/
def dataAfter (o : Out) (d : DReg) : Data :=
  match o with
  | .next t => if t.err then 0xBAD else t.r[d]
  | _ => 0xBAD

/-- Point register d after a command, if it completes without an error. -/
def pointAfter (o : Out) (d : PReg) : Option Point :=
  match o with
  | .next t => if t.err then none else some t.p[d]
  | _ => none

/-- STATUS after a step. -/
def statusAfter (o : Out) : Word :=
  match o with
  | .next t => t.statusWord
  | _ => 0xBAD

/-! ### Field arithmetic (95_test_vectors 2.2, 2.7) -/

/-- F2: p − 1 + 1 = 0, with R6 = p − 1. -/
theorem test_fadd_wraps :
    dataAfter (exec (.fadd 4 6 1) (filled.writeData 6
      0xFFFFFFFFFFFFFFFFFFFFFFFFFFFFFFFFFFFFFFFFFFFFFFFFFFFFFFFEFFFFFC2E)) 4 = 0 := by decide +kernel

/-- F11: 0 − 1 = p − 1. -/
theorem test_fsub_wraps :
    dataAfter (exec (.fsub 4 0 1) start) 4 = 0xFFFFFFFFFFFFFFFFFFFFFFFFFFFFFFFFFFFFFFFFFFFFFFFFFFFFFFFEFFFFFC2E := by
  decide +kernel

/-- F21: 2^128 squared. -/
theorem test_fmul_reduces_the_full_product :
    dataAfter (exec (.fmul 4 4 4) (start.writeData 4 (1 <<< 128))) 4 = 0x1000003D1 := by decide +kernel

/-- F45: 2^(2^256 − 1); F43: 0^0 = 1. -/
theorem test_fpow_exponent_is_any_integer :
    dataAfter (exec (.fpow 4 2 6) (start.writeData 6 (BitVec.allOnes 256))) 4 =
      0x8DEF9A2D066170A549DA6A66080937DB048EFE08772C8F7C20E351DFB71856E0 ∧
    dataAfter (exec (.fpow 4 0 0) start) 4 = 1 := by decide +kernel

/-- F51. -/
theorem test_finv_of_two :
    dataAfter (exec (.finv 4 2) start) 4 =
      0x7FFFFFFFFFFFFFFFFFFFFFFFFFFFFFFFFFFFFFFFFFFFFFFFFFFFFFFF7FFFFE18 := by decide +kernel

/-- F5F, F5D: RANGE before DIV0 (X3, X4 with their STATUS). -/
theorem test_fdiv_errors :
    statusAfter (exec (.fdiv 4 3 0) start) = 0x306 ∧ statusAfter (exec (.fdiv 4 1 0) start) = 0x406 := by
  decide +kernel

/-- F5A: 7 / (p − 1) = p − 7. -/
theorem test_fdiv_quotient :
    dataAfter (exec (.fdiv 4 6 7) ((start.writeData 6 7).writeData 7
      0xFFFFFFFFFFFFFFFFFFFFFFFFFFFFFFFFFFFFFFFFFFFFFFFFFFFFFFFEFFFFFC2E)) 4 =
      0xFFFFFFFFFFFFFFFFFFFFFFFFFFFFFFFFFFFFFFFFFFFFFFFFFFFFFFFEFFFFFC28 := by decide +kernel

/-- F65: the principal root of 9 is p − 3; F66: 7 has none, and the formula's value is written. -/
theorem test_fsqrt_is_the_principal_root :
    dataAfter (exec (.fsqrt 4 6) (start.writeData 6 9)) 4 =
      0xFFFFFFFFFFFFFFFFFFFFFFFFFFFFFFFFFFFFFFFFFFFFFFFFFFFFFFFEFFFFFC2C ∧
    dataAfter (exec (.fsqrt 4 6) (start.writeData 6 7)) 4 =
      0x8F537EEFDFC1606A0727CD69B4A7333D38ED44E3932A7179EECB4B6FBA9360DC := by decide +kernel

/-- X1, X2: UNINIT before RANGE, whichever source. -/
theorem test_fadd_uninit_before_range :
    statusAfter (exec (.fadd 4 5 3) start) = 0x206 ∧ statusAfter (exec (.fadd 4 3 5) start) = 0x206 := by
  decide +kernel

/-- X5, X6: only the base is checked. -/
theorem test_fpow_checks_the_base_only :
    statusAfter (exec (.fpow 4 1 3) start) = 0x002 ∧ statusAfter (exec (.fpow 4 3 1) start) = 0x306 := by
  decide +kernel

/-! ### Points (95_test_vectors 2.3, 2.4, 2.7) -/

/-- −G (95_test_vectors, constants). -/
def minusG : Point :=
  .affine generatorX ⟨0xB7C52588D95C3B9AA25B0403F1EEF75702E84BB7597AABE663B82F6F04EF2777, by decide⟩

/-- 2G (C14). -/
def twoG : Point :=
  .affine ⟨0xC6047F9441ED7D6D3045406E95C07CD85C778E4B8CEF3CA7ABAC09B95C709EE5, by decide⟩
    ⟨0x1AE168FEA63DC339A3C58419466CEAEEF7F632653266D0E1236431A950CFE52A, by decide⟩

/-- 3G (C15). -/
def threeG : Point :=
  .affine ⟨0xF9308A019258C31049344F85F89D5229B531C845836F99B08601F113BCE036F9, by decide⟩
    ⟨0x388F7B0F632DE8140FE337E62A37F3566500A99934C2231B6CB9FD7584B8E672, by decide⟩

/-- C4, and X7 with X8: CURVE, and RANGE before it. -/
theorem test_pset :
    pointAfter (exec (.pset 1 5 6) (filled.writeData 6
      0xB7C52588D95C3B9AA25B0403F1EEF75702E84BB7597AABE663B82F6F04EF2777)) 1 = some minusG ∧
    statusAfter (exec (.pset 0 1 2) start) = 0x506 ∧ statusAfter (exec (.pset 0 3 2) start) = 0x306 := by
  decide +kernel

/-- C2. -/
theorem test_pinf : pointAfter (exec (.pinf 5) start) 5 = some .inf := by decide +kernel

/-- C1. -/
theorem test_pgen : pointAfter (exec (.pgen 3) start) 3 = some generator := by decide +kernel

/-- C8, C9. -/
theorem test_pmov :
    pointAfter (exec (.pmov 1 0) start) 1 = some generator ∧ statusAfter (exec (.pmov 1 6) start) = 0x206 := by
  decide +kernel

/-- C30, C32, C34. -/
theorem test_px :
    dataAfter (exec (.px 1 0) start) 1 = 0x79BE667EF9DCBBAC55A06295CE870B07029BFCDB2DCE28D959F2815B16F81798 ∧
    statusAfter (exec (.px 1 2) start) = 0x606 ∧ statusAfter (exec (.px 1 7) start) = 0x206 := by decide +kernel

/-- C31, C33. -/
theorem test_py :
    dataAfter (exec (.py 2 0) start) 2 = 0x483ADA7726A3C4655DA4FBFC0E1108A8FD17B448A68554199C47D08FFB10D4B8 ∧
    statusAfter (exec (.py 1 2) start) = 0x606 := by decide +kernel

/-- C20, C22. -/
theorem test_pneg :
    pointAfter (exec (.pneg 1 0) start) 1 = some minusG ∧ pointAfter (exec (.pneg 1 2) start) 1 = some .inf := by
  decide +kernel

/-- C10, C13, C14. -/
theorem test_padd_doubles_and_cancels :
    pointAfter (exec (.padd 1 0 2) start) 1 = some generator ∧
    pointAfter (exec (.padd 2 0 1) (start.writePoint 1 minusG)) 2 = some .inf ∧
    pointAfter (exec (.padd 1 0 0) start) 1 = some twoG := by decide +kernel

/-- C15. -/
theorem test_padd_chord :
    pointAfter (exec (.padd 3 0 1) (start.writePoint 1 twoG)) 3 = some threeG := by decide +kernel

/-- C35, C36. -/
theorem test_peq :
    statusAfter (exec (.peq 0 1) (start.writePoint 1 generator)) = 0x012 ∧
    statusAfter (exec (.peq 0 1) (start.writePoint 1 minusG)) = 0x002 := by decide +kernel

/-- C38, and R196's example. -/
theorem test_pisinf :
    statusAfter (exec (.pisinf 0) start) = 0x002 ∧ statusAfter (exec (.pisinf 2) start) = 0x012 := by decide +kernel

/-- C41: x = 1. -/
theorem test_pdec_takes_the_principal_root :
    pointAfter (exec (.pdec 3 1) start) 3 = some (.affine ⟨1, by decide⟩
      ⟨0x4218F20AE6C646B363DB68605822FB14264CA8D2587FDD6FBC750D587E76A7EE, by decide⟩) := by decide +kernel

/-- C40 (X9): x = 0 has no root; C44f. -/
theorem test_pdec_errors :
    statusAfter (exec (.pdec 0 0) start) = 0x506 ∧ statusAfter (exec (.pdec 0 3) start) = 0x306 := by decide +kernel

/-- S4: 3·G. -/
theorem test_pmul_three :
    pointAfter (exec (.pmul 1 6 0) (start.writeData 6 3)) 1 = some threeG := by decide +kernel

/-- S9, S10: the scalar is reduced mod N. -/
theorem test_pmul_reduces_the_scalar :
    pointAfter (exec (.pmul 1 6 0) (start.writeData 6
      0xFFFFFFFFFFFFFFFFFFFFFFFFFFFFFFFEBAAEDCE6AF48A03BBFD25E8CD0364141)) 1 = some .inf ∧
    pointAfter (exec (.pmul 1 6 0) (start.writeData 6
      0xFFFFFFFFFFFFFFFFFFFFFFFFFFFFFFFEBAAEDCE6AF48A03BBFD25E8CD0364142)) 1 = some generator := by decide +kernel

/-! ### AES (95_test_vectors 2.5) -/

/-- The last round key under K0 = 00 01 … 1F, and its KSWIN word w59. -/
theorem test_kexp :
    (match exec (.kexp 4) filled with
      | .next t => t.ksv && (roundKey t.ks 14).toList == [0x24, 0xfc, 0x79, 0xcc, 0xbf, 0x09, 0x79, 0xe9, 0x37, 0x1a,
          0xc2, 0x3c, 0x6d, 0x68, 0xde, 0x36] && t.windowValue (locate 0x3EC) == some 0x6D68DE36
      | _ => false) = true := by decide +kernel

/-- A14: the all-zero vector, in both lanes. -/
theorem test_aese :
    (match exec (.kexp 0) start with
      | .next t => dataAfter (exec (.aese 4 0) t) 4
      | _ => 0) = 0xdc95c078a2408989ad48a21492842087dc95c078a2408989ad48a21492842087 := by decide +kernel

/-- A14 backwards. -/
theorem test_aesd :
    (match exec (.kexp 0) start with
      | .next t => dataAfter (exec (.aesd 4 6) (t.writeData 6
          0xdc95c078a2408989ad48a21492842087dc95c078a2408989ad48a21492842087)) 4
      | _ => 1) = 0 := by decide +kernel

/-- A30. -/
theorem test_asub :
    dataAfter (exec (.asub 2 4) filled) 2 =
      0x637c777bf26b6fc53001672bfed7ab76ca82c97dfa5947f0add4a2af9ca472c0 := by decide +kernel

/-- A31. -/
theorem test_aisub :
    dataAfter (exec (.aisub 3 4) filled) 3 =
      0x52096ad53036a538bf40a39e81f3d7fb7ce339829b2fff87348e4344c4dee9cb := by decide +kernel

/-- A32. -/
theorem test_ashr :
    dataAfter (exec (.ashr 2 4) filled) 2 =
      0x00050a0f04090e03080d02070c01060b10151a1f14191e13181d12171c11161b := by decide +kernel

/-- A33. -/
theorem test_aishr :
    dataAfter (exec (.aishr 3 4) filled) 3 =
      0x000d0a0704010e0b0805020f0c090603101d1a1714111e1b1815121f1c191613 := by decide +kernel

/-- A34. -/
theorem test_amix :
    dataAfter (exec (.amix 2 4) filled) 2 =
      0x02070005060304010a0f080d0e0b0c0912171015161314111a1f181d1e1b1c19 := by decide +kernel

/-- A35. -/
theorem test_aimix :
    dataAfter (exec (.aimix 3 4) filled) 3 =
      0x0a0f080d0e0b0c0902070005060304011a1f181d1e1b1c191217101516131411 := by decide +kernel

/-- A36: AARK 14 of zero under K0 gives RK(14) in both lanes. -/
theorem test_aark :
    (match exec (.kexp 4) filled with
      | .next t => dataAfter (exec (.aark 2 0 14) t) 2
      | _ => 0) = 0x24fc79ccbf0979e9371ac23c6d68de3624fc79ccbf0979e9371ac23c6d68de36 := by decide +kernel

/-- A40, A41, A42, A43: NOKEY, and UNINIT before it. -/
theorem test_aes_errors :
    statusAfter (exec (.aese 4 1) start) = 0x706 ∧ statusAfter (exec (.aark 4 1 0) start) = 0x706 ∧
    statusAfter (exec (.aesd 4 5) start) = 0x206 ∧ statusAfter (exec (.kexp 5) start) = 0x206 := by decide +kernel

/-! ### Data moves (95_test_vectors 2.6) -/

/-- D1: after reset. -/
theorem test_nop :
    (match step (State.reset.withFetchWord 32 0) with
      | .next t => t.statusWord == 2 && t.cmdCnt == 1 && t.cmdLast == 0
      | _ => false) = true := by decide +kernel

/-- D3, D7: MOV copies p, and does not make a register valid. -/
theorem test_mov :
    dataAfter (exec (.mov 4 3) start) 4 = 0xFFFFFFFFFFFFFFFFFFFFFFFFFFFFFFFFFFFFFFFFFFFFFFFFFFFFFFFEFFFFFC2F ∧
    statusAfter (exec (.mov 6 6) start) = 0x206 := by decide +kernel

/-- D4. -/
theorem test_xor :
    dataAfter (exec (.xor 3 4 6) (filled.writeData 6 (BitVec.allOnes 256))) 3 =
      0xFFFEFDFCFBFAF9F8F7F6F5F4F3F2F1F0EFEEEDECEBEAE9E8E7E6E5E4E3E2E1E0 := by decide +kernel

/-! ### The window and reset (95_test_vectors 2.8) -/

/-- A PMUL in flight (H4). -/
def flying : State := { start with inflight := some 0x30100000, cmdLast := 0x30100000, cmdCnt := 1 }

/-- H4, H5, H6: BUSY, and the drops. -/
theorem test_busy_and_drops :
    flying.statusWord = 0x1 ∧ statusAfter (stepOn (.host (.write 0x100 4 5)) flying) = 0x9 ∧
    stepOn (.host (.write 0x00C 4 0)) flying = .next { flying with ovr := true } :=
  ⟨by decide +kernel, by decide +kernel, rfl⟩

/-- H13, H16. -/
theorem test_status_writes :
    statusAfter (stepOn (.host (.write 0x008 4 0x4)) { start with err := true, ecode := .curve, done := true }) = 0x2 ∧
    statusAfter (stepOn (.host (.write 0x008 4 0x31)) { start with eqFlag := true, done := true }) = 0x12 := by
  decide +kernel

/-- H17: CMDCNT wraps. H18: CTRL = 3 resets, IRQEN comes out 0. -/
theorem test_cmdcnt_wraps_and_ctrl_resets :
    stepOn (.host (.write 0x00C 4 0)) { start with cmdCnt := 0xFFFFFFFF } =
      .next { start with cmdCnt := 0, inflight := some 0 } ∧
    stepOn (.host (.write 0x004 4 3)) { flying with irqen := true } = .next State.reset := ⟨rfl, rfl⟩

/-- H20, H21: word 7 completes a register. R370 item 5: a word can be rewritten. -/
theorem test_word_seven :
    (match stepOn (.host (.write 0x13C 4 9)) start with
      | .next t => t.r[1] == 9 && decide (Ready t 1)
      | _ => false) = true ∧
    (match stepOn (.host (.write 0x1A0 4 0x79BE667E)) start with
      | .next t => t.r[5] == (0x79BE667E : Data) <<< 224 && t.v[5][0] && !t.v[5][1]
      | _ => false) = true := by decide +kernel

/-! ### Host programs (30_encoding R126, R127; 70_reset R376) -/

/-- The table's ZERO R5 (D5) and ECDH, and a `.wr` of word 7 with the other words 0, word 0 first (P1). -/
theorem test_host_lines :
    (Pseudo.zero 5).expand = [.xor 5 5 5] ∧
    (Pseudo.ecdh 1 2 3 4).expand = [.pdec 4 2, .pmul 4 3 4, .px 1 4] ∧
    ((HostLine.wr 0 2).moves).take 1 = [.access (.write 0x100 4 0)] ∧
    ((HostLine.wr 0 2).moves).drop 7 = [.access (.write 0x11C 4 2)] ∧
    programMoves [.command (.pgen 0)] = [.poll, .access (.write 0x00C 4 0x22000000), .poll] := by decide +kernel

/-- The replies and OVR at the end of a run from reset, where the list is a run of the program. -/
def runReplies (lines : List HostLine) (es : List Event) : Option (List Word × Bool) :=
  (programRun (programMoves lines) es State.reset).map fun t => (t.replies, t.ovr)

/-- The read of STATUS as a move. -/
def readStatus : Event := .host (.read 0x008 4)

/-- R126: a wait reads STATUS until BUSY = 0, and no further. D1: STATUS is 2 after NOP. -/
theorem test_wait_ends_at_busy_zero :
    runReplies [.command .nop] [readStatus, .host (.write 0x00C 4 0), .engine, readStatus] = some ([2, 0], false) ∧
    runReplies [.command .nop] [readStatus, .host (.write 0x00C 4 0), readStatus, .engine, readStatus] =
      some ([2, 1, 0], false) ∧
    runReplies [.command .nop] [readStatus, .host (.write 0x00C 4 0), readStatus] = none ∧
    runReplies [.command .nop] [readStatus, .host (.write 0x00C 4 0), .engine, readStatus, readStatus] = none := by
  decide +kernel

/-- U19, H5: a `.wr` right after a command can come after the completion, and then writes, or before it, and then is
dropped with OVR. -/
theorem test_completion_falls_on_either_side :
    runReplies [.command .nop, .wr 0 2] ([readStatus, .host (.write 0x00C 4 0), .engine] ++
      (List.range 8).map (fun j => .host (.write (0x100 + 4 * j) 4 (if j = 7 then 2 else 0))) ++ [readStatus]) =
      some ([2, 0], false) ∧
    runReplies [.command .nop, .wr 0 2] ([readStatus, .host (.write 0x00C 4 0)] ++
      (List.range 8).map (fun j => .host (.write (0x100 + 4 * j) 4 (if j = 7 then 2 else 0))) ++
      [.engine, readStatus]) = some ([0xA, 0], true) := by decide +kernel

/-- R376: a register with one word written is not valid and is not observed; a valid one is. -/
theorem test_observation_covers_valid_registers :
    (match stepOn (.host (.write 0x1A0 4 7)) start with
      | .next t => (t.observation.1[5][0], t.observation.1[2][7])
      | _ => (none, none)) = (none, some 2) := by decide +kernel

/-- An ill-formed command line is rejected (R125). -/
theorem test_assembler_rejects_round_fifteen : (HostLine.command (.aark 2 1 15)).wellFormed = false := by decide

/-! ### Witnesses: for each statement with hypotheses, states and operands that meet them together, clause by clause

`start` has R0 to R3, P0 = G and P2 = INF valid (R3 = p), and R9 and P7 not valid. `keyed` has KSV = 1 besides. -/

theorem witness_CommandWordHasTheFieldLayout :
    (0xFF < 256 ∧ 15 < 16 ∧ 0 < 16) ∧ (0x49 < 256 ∧ 2 < 16 ∧ 14 < 16) := by decide

theorem witness_DecodeAndEncodeAgree :
    (Instr.aark 15 0 14).wellFormed = true ∧ decode 0x49F00E00 = .ok (.aark 15 0 14) := by decide +kernel

theorem witness_legal_word : IsLegalWord 0x49F00E00 :=
  ⟨.dataReg, .dataReg, .unused, .imm, rfl, by decide +kernel, trivial, trivial, (by decide +kernel : (0x49F00E00 : Word).extractLsb' 12 4 = 0),
    trivial, by decide +kernel⟩

/-- One word for each defect R107 lists: OP, Z, an unused field, a point field, AARK's K. -/
theorem witness_illegal_words :
    ¬IsLegalWord 0xFFF00000 ∧ ¬IsLegalWord 0x10312001 ∧ ¬IsLegalWord 0x14212000 ∧ ¬IsLegalWord 0x20812000 ∧
    ¬IsLegalWord 0x49210F00 := by
  refine ⟨?_, ?_, ?_, ?_, ?_⟩ <;> rintro ⟨d, a, b, k, h, hz, hd, ha, hb, hk, hr⟩
  · exact absurd (h.symm.trans (by decide +kernel : fieldKinds ((0xFFF00000 : Word).toNat / 2 ^ 24) = none)) nofun
  · exact absurd hz (by decide +kernel)
  · obtain ⟨rfl, rfl, rfl, rfl⟩ :
        FieldKind.dataReg = d ∧ FieldKind.dataReg = a ∧ FieldKind.unused = b ∧ FieldKind.unused = k := by
      injection h with h; injection h with h1 h; injection h with h2 h; injection h with h3 h4
      exact ⟨h1, h2, h3, h4⟩
    exact absurd hb (by unfold FieldKind.allows; decide +kernel)
  · obtain ⟨rfl, -⟩ : FieldKind.pointReg = d ∧ True := by
      injection h with h; injection h with h1 h
      exact ⟨h1, trivial⟩
    exact absurd hd (by unfold FieldKind.allows; decide +kernel)
  · exact absurd hr (by decide +kernel)

theorem witness_IllegalWordsCompleteWithIllegal :
    { start with inflight := some 0xFFF00000 }.inflight = some 0xFFF00000 := rfl

theorem witness_StepRunsTheDecodedCommand :
    flying.inflight = some 0x30100000 ∧ decode 0x30100000 = .ok (.pmul 1 0 0) ∧ flying.input = [] ∧
    { flying with input := [.engine] }.input = [.engine] := ⟨rfl, by decide +kernel, rfl, rfl⟩

theorem witness_AcceptanceRecordsTheCommand :
    { start with input := [.host (.write 0x00C 4 7)] }.input = [.host (.write 0x00C 4 7)] ∧ start.inflight = none ∧
    start.err = false := ⟨rfl, rfl, rfl⟩

/-- The drops (in flight, or ERR = 1), an ignored write, and the four ways OVR can stand or fall. -/
theorem witness_DroppedWritesSetOvr :
    flying.inflight = some 0x30100000 ∧ { start with err := true }.err = true ∧
    (0x0FC % 4 = 0 ∧ 0x0FC < 4096 ∧ 0x010 ≤ 0x0FC ∧ 0x0FC < 0x100) ∧ (0xFFC % 4 = 0 ∧ 0xFFC < 4096 ∧ 0x300 ≤ 0xFFC) ∧
    { start with ovr := true }.ovr = true ∧
    stepOn (.host (.write 0x008 4 0x8)) { start with ovr := true } = .next { start with ovr := false } :=
  ⟨rfl, rfl, by decide, by decide, rfl, rfl⟩

theorem witness_ErrIsSticky :
    { start with err := true }.err = true ∧ start.inflight = none ∧
    stepOn .engine { start with err := true } = .next { start with err := true } ∧
    stepOn (.host (.write 0x008 4 0x4)) { start with err := true } = .next { start with err := false } :=
  ⟨rfl, rfl, rfl, rfl⟩

theorem witness_EngineTurnCompletesTheCommand : flying.inflight = some 0x30100000 := rfl

/-- X15: an illegal word is accepted and fails. -/
theorem witness_ErrorsArePrecise :
    start.inflight = none ∧ start.err = false ∧
    stepOn (.host (.write 0x00C 4 0x10312001)) start = .next (start.accept 0x10312001) ∧
    stepOn .engine (start.accept 0x10312001) = .next ((start.accept 0x10312001).failCommand .illegal) ∧
    ((start.accept 0x10312001).failCommand .illegal).err = true := ⟨rfl, rfl, rfl, rfl, rfl⟩

theorem witness_CommandsRaiseOnlyTheirErrors : (Instr.fadd 4 1 2).wellFormed = true := by decide

theorem witness_InvalidSourcesRaiseUninit :
    (Instr.pmul 1 0 7).wellFormed = true ∧ ¬SourcesReady start (.pmul 1 0 7) ∧ ¬SourcesReady start (.aese 4 9) := by
  decide +kernel

/-- An accepted write, both resets, and a dropped write, which is neither. -/
theorem witness_CommandRegistersFollowAcceptance :
    Accepts start (.host (.write 0x00C 4 5)) 5 ∧ Resets .resetInput ∧ Resets (.host (.write 0x004 4 3)) ∧
    (stepOn (.host (.write 0x00C 4 5)) flying = .next { flying with ovr := true } ∧
      (∀ w, ¬Accepts flying (.host (.write 0x00C 4 5)) w) ∧ ¬Resets (.host (.write 0x00C 4 5))) := by
  refine ⟨⟨rfl, rfl, rfl⟩, .inl rfl, .inr ⟨3, rfl, rfl⟩, rfl, ?_, ?_⟩
  · rintro w ⟨-, h, -⟩
    cases h
  · rintro (h | ⟨w, h, -⟩) <;> cases h

/-- The ends of the two reserved ranges. -/
theorem witness_ReservedOffsetsReadZeroAndIgnoreWrites :
    (0x014 % 4 = 0 ∧ 0x014 ≤ 0x014 ∧ 0x014 < 0x100) ∧ (0x0FC % 4 = 0 ∧ 0x0FC < 0x100) ∧
    (0x3F0 % 4 = 0 ∧ 0x3F0 ≤ 0x3F0) ∧ (0xFFC % 4 = 0 ∧ 0xFFC < 0x1000) := by decide

theorem witness_CtrlHoldsIrqenAndResets :
    (0x3 : Word).getLsbD 0 = true ∧ (0x2 : Word).getLsbD 0 = false := by decide

theorem witness_ClearingErrResumesAcceptance : { start with err := true, ecode := .curve }.inflight = none := rfl

theorem witness_IrqFollowsCompletion :
    (flying.inflight = some 0x30100000) ∧
    stepOn .engine { flying with inflight := some 0 } = .next { flying with inflight := none, done := true } ∧
    stepOn (.host (.write 0x00C 4 0)) start = .next (start.accept 0) ∧
    ((0x2 : Word).getLsbD 1 = true ∧ stepOn (.host (.write 0x008 4 0x2)) start = .next start) ∧
    ((0x0 : Word).getLsbD 1 = false ∧ stepOn (.host (.write 0x004 4 0x0)) start = .next start) ∧
    stepOn (.host (.write 0x00C 4 0)) { start with err := true } = .next { start with err := true, ovr := true } :=
  ⟨rfl, rfl, rfl, ⟨rfl, rfl⟩, ⟨rfl, rfl⟩, rfl⟩

theorem witness_WindowWritesSetWords :
    start.inflight = none ∧ ∀ j : Fin 8, j ∈ ([7, 0, 3, 1, 2, 6, 5, 4, 7] : List (Fin 8)) := ⟨rfl, by decide⟩

/-- A valid word, an invalid word, a word while BUSY = 1, and the schedule's window with KSV = 1 and KSV = 0. -/
theorem witness_WindowReadsReturnValidWords :
    (start.inflight = none ∧ start.v[(0 : DReg)][(7 : Fin 8)] = true) ∧ start.v[(15 : DReg)][(0 : Fin 8)] = false ∧
    flying.inflight ≠ none ∧ (keyed.inflight = none ∧ keyed.ksv = true) ∧ start.ksv = false := by decide +kernel

/-- Both ends of the window. -/
theorem witness_ReadsHaveNoSideEffect : (0 % 4 = 0 ∧ 0 < 4096) ∧ (4092 % 4 = 0 ∧ 4092 < 4096) := by decide

/-- A byte access, a misaligned access, the last offset inside and the first outside. -/
theorem witness_OnlyAlignedWordAccessesInTheWindowComplete :
    (1 ≠ 4) ∧ (0x101 % 4 ≠ 0) ∧ (4092 % 4 = 0 ∧ 4092 < 4096) ∧ (4096 % 4 = 0 ∧ 4096 ≤ 4096) := by decide

theorem witness_OperandsCannotChangeInFlight :
    flying.inflight = some 0x30100000 ∧
    step { flying with input := [.host (.write 0x100 4 5)] } = .next { flying with ovr := true } := ⟨rfl, rfl⟩

theorem witness_ResetsAbandonAndInitialise : (0x3 : Word).getLsbD 0 = true := rfl

theorem witness_NopOnlyCompletes :
    ((0 : Word).toNat / 2 ^ 24 = 0) ∧ ((0x00100000 : Word).toNat / 2 ^ 24 = 0 ∧ (0x00100000 : Word) ≠ 0) ∧
    start.inflight = none ∧ start.err = false := by decide +kernel

/-- For MOV, XOR, KEXP, the key-free round steps and the scalar of PMUL. -/
theorem witness_data_sources : Ready start 3 ∧ Ready start 0 ∧ ¬Ready start 9 := by decide +kernel

/-- For FADD, FSUB, FMUL, FPOW, FINV, FDIV, FSQRT, PSET and PDEC: two field elements, one of them 0, and p, which is
none. -/
theorem witness_field_sources :
    (Ready start 1 ∧ Canonical start 1 ∧ start.r[(1 : DReg)].toNat ≠ 0) ∧
    (Ready start 0 ∧ Canonical start 0 ∧ start.r[(0 : DReg)].toNat = 0) ∧ (Ready start 3 ∧ ¬Canonical start 3) ∧
    ¬Ready start 9 := by decide +kernel

/-- A square (1 = 1·1) and its principal root in the state of another run. -/
theorem witness_PrincipalRootProperties :
    Ready start 1 ∧ Canonical start 1 ∧ (∃ z : Nat, z * z % fieldPrime = start.r[(1 : DReg)].toNat) ∧
    Ready keyed 1 ∧ keyed.r[(1 : DReg)] = start.r[(1 : DReg)] :=
  ⟨by decide +kernel, by decide +kernel, ⟨1, by decide +kernel⟩, by decide +kernel, by decide +kernel⟩

theorem witness_FieldLaws : generatorX.val ≠ 0 := by decide +kernel

/-- On the curve: (G.x, G.y) in R5, R6. Off it: (1, 2). -/
theorem witness_PsetBuildsOnlyCurvePoints :
    (Ready (filled.writeData 6 generatorY.toData) 5 ∧ Ready (filled.writeData 6 generatorY.toData) 6 ∧
      Canonical (filled.writeData 6 generatorY.toData) 5 ∧ Canonical (filled.writeData 6 generatorY.toData) 6 ∧
      (((filled.writeData 6 generatorY.toData).r[(6 : DReg)].toNat : Int) ^ 2 -
        ((filled.writeData 6 generatorY.toData).r[(5 : DReg)].toNat ^ 3 + 7)) % fieldPrime = 0) ∧
    ((start.r[(2 : DReg)].toNat : Int) ^ 2 - (start.r[(1 : DReg)].toNat ^ 3 + 7)) % fieldPrime ≠ 0 := by
  decide +kernel

/-- For PMOV, PX, PY, PNEG, PEQ, PISINF, PDEC after PX and PMUL: a valid affine point of the curve, a valid INF, and
a register that is not valid. -/
theorem witness_point_sources :
    (ReadyPoint start 0 ∧ start.p[(0 : PReg)] = .affine generatorX generatorY ∧
      pointOnCurve start.p[(0 : PReg)] = true) ∧
    (ReadyPoint start 2 ∧ start.p[(2 : PReg)] = .inf) ∧ ¬ReadyPoint start 7 := by decide +kernel

/-- The cases of PADD: an INF, opposite points, different x, and a point with itself. -/
theorem witness_PaddFollowsTheCases :
    (ReadyPoint start 0 ∧ ReadyPoint start 2 ∧ start.p[(2 : PReg)] = .inf) ∧
    (start.writePoint 1 minusG).p[(1 : PReg)] = minusG ∧
    (generatorY.val + 0xB7C52588D95C3B9AA25B0403F1EEF75702E84BB7597AABE663B82F6F04EF2777) % fieldPrime = 0 ∧
    (start.writePoint 1 twoG).p[(1 : PReg)] = twoG ∧
    generatorX.val ≠ 0xC6047F9441ED7D6D3045406E95C07CD85C778E4B8CEF3CA7ABAC09B95C709EE5 ∧ generatorY.val ≠ 0 ∧
    pointOnCurve generator = true ∧ pointOnCurve twoG = true := by decide +kernel

/-- x = 1 gives a root and x = 0 does not (C41, C40). -/
theorem witness_PdecDecompresses :
    (Ready start 1 ∧ Canonical start 1 ∧ (decompress ⟨1, by decide⟩).isSome = true) ∧
    (Ready start 0 ∧ Canonical start 0 ∧ decompress ⟨0, by decide⟩ = none) := by decide +kernel

theorem witness_CurveGroupLaws :
    pointOnCurve generator = true ∧ pointOnCurve minusG = true ∧ pointOnCurve twoG = true := by decide +kernel

/-- AESE, AESD, AARK with a schedule, and without one. -/
theorem witness_keyed_sources :
    (Ready keyed 4 ∧ keyed.ksv = true) ∧ (Ready start 1 ∧ start.ksv = false) ∧ ¬Ready start 9 ∧
    ((14 : Imm4).val ≤ 14 ∧ (15 : Imm4).val = 15) := by decide +kernel

theorem witness_OnlyComparisonsWriteEq :
    exec .nop start = .next start.complete ∧
    (start.err = false ∧ exec (.mov 4 9) start = .next (start.failCommand .uninit) ∧
      (start.failCommand .uninit).err = true) ∧
    stepOn (.host (.write 0x004 4 0)) start = .next start := ⟨rfl, ⟨rfl, rfl, rfl⟩, rfl⟩

theorem witness_OnlyKexpWritesTheSchedule :
    exec .nop keyed = .next keyed.complete ∧ keyed.ksv = true ∧
    stepOn (.host (.write 0x004 4 1)) keyed = .next State.reset := ⟨rfl, rfl, rfl⟩

theorem witness_EveryStepKeepsPointsOnTheCurve : PointsOnCurve start ∧ step start = .next start :=
  ⟨by decide +kernel, rfl⟩

theorem witness_EveryStepKeepsTheBookkeeping :
    HandshakeOk flying ∧ ErrorRecordOk flying ∧ ScheduleOk flying ∧
    step { flying with input := [.host (.read 0x008 4)] } = .next { flying with replies := [1] } := by
  refine ⟨?_, ⟨nofun, fun h => absurd rfl h⟩, nofun, rfl⟩
  rintro w h
  cases h
  exact ⟨rfl, rfl, rfl⟩

/-- R9 is not valid in `start`: another content there, the same in everything that can be observed. -/
theorem witness_InvalidContentIsUnobservable :
    SameValidContent start { start with r := start.r.set 9 77 } ∧ start ≠ { start with r := start.r.set 9 77 } :=
  ⟨{ v := rfl, pv := rfl, r := by decide +kernel, p := fun _ _ => rfl, ksv := rfl, ks := fun _ => rfl, eqFlag := rfl,
     irqen := rfl, done := rfl, err := rfl, ovr := rfl, ecode := rfl, cmdLast := rfl, cmdCnt := rfl, inflight := rfl,
     input := rfl, replies := rfl, freeCount := rfl }, by decide +kernel⟩

end Sys2Proof.Tests
end

section
/-! A source register that is not valid (00_scope R16): the operand reads that answer UNINIT because of it, the
sources of a command by their kind, and UNINIT as the first error of every command (60_exceptions R322). -/

namespace Sys2Proof.Machine

/-! ### Errors that end a command body -/

theorem bind_error_left {α β : Type} {c : ErrCode} {x : Except ErrCode α} {f : α → Except ErrCode β}
    (hx : x = .error c) : (x >>= f) = .error c := by
  rw [hx]; rfl

/-- Two operand reads in turn: with one of the operands not there, the error is raised whichever it is. -/
theorem bind_pair_error {α β γ : Type} {P Q : Prop} {c : ErrCode} {v : α} {x : Except ErrCode α}
    {y : Except ErrCode β} {f : α → β → Except ErrCode γ} (hP : P → x = .ok v) (hnP : ¬P → x = .error c)
    (hnQ : ¬Q → y = .error c) (h : ¬(P ∧ Q)) : (x >>= fun u => y >>= f u) = .error c := by
  by_cases hp : P
  · have hq : ¬Q := fun hq => h ⟨hp, hq⟩
    rw [hP hp, hnQ hq]; rfl
  · exact bind_error_left (hnP hp)

/-- 60_exceptions R324, R331. -/
theorem retire_error {s : State} {c : ErrCode} {x : Except ErrCode State} (hx : x = .error c) :
    retire s x = .next (s.endedError c) := by
  rw [hx]; rfl

/-! ### Operand reads with a register that is not valid -/

theorem needData2_not {s : State} {a b : DReg} (h : ¬(Ready s a ∧ Ready s b)) :
    needData2 s a b = .error .uninit :=
  bind_pair_error needData_ready needData_not needData_not h

theorem needPoint2_not {s : State} {a b : PReg} (h : ¬(ReadyPoint s a ∧ ReadyPoint s b)) :
    needPoint2 s a b = .error .uninit :=
  bind_pair_error needPoint_ready needPoint_not needPoint_not h

theorem needElem_not {s : State} {a : DReg} (h : ¬Ready s a) : needElem s a = .error .uninit :=
  bind_error_left (needData_not h)

theorem needElem2_not {s : State} {a b : DReg} (h : ¬(Ready s a ∧ Ready s b)) :
    needElem2 s a b = .error .uninit :=
  bind_error_left (needData2_not h)

theorem needDataKey_not {s : State} {a : DReg} (h : ¬Ready s a) : needDataKey s a = .error .uninit :=
  bind_error_left (needData_not h)

/-! ### Commands with a source that is not valid -/

theorem laneCommand_not {s : State} {a : DReg} (f : Lane → Lane) (d : DReg) (h : ¬Ready s a) :
    laneCommand f d a s = .next (s.endedError .uninit) :=
  retire_error (bind_error_left (needData_not h))

theorem keyedLaneCommand_not {s : State} {a : DReg} (f : Schedule → Lane → Lane) (d : DReg) (h : ¬Ready s a) :
    keyedLaneCommand f d a s = .next (s.endedError .uninit) :=
  retire_error (bind_error_left (needDataKey_not h))

theorem execAark_not {s : State} {a : DReg} {k : Imm4} (d : DReg) (hk : k.val ≤ 14) (h : ¬Ready s a) :
    execAark d a k s = .next (s.endedError .uninit) := by
  rw [execAark, dif_pos (Nat.lt_succ_of_le hk)]
  exact keyedLaneCommand_not _ d h

theorem execPmul_not {s : State} {a : DReg} {b : PReg} (d : PReg) (h : ¬(Ready s a ∧ ReadyPoint s b)) :
    execPmul d a b s = .next (s.endedError .uninit) :=
  retire_error (bind_pair_error needData_ready needData_not needPoint_not h)

/-! ### The sources of a command, by their kind -/

section
variable {s : State} {i : Instr}

theorem SourcesReady.of_none (hd : dataSources i = []) (hp : pointSources i = []) : SourcesReady s i := by
  simp [SourcesReady, hd, hp]

theorem not_ready_of_sources {a : DReg} (hd : dataSources i = [a]) (hp : pointSources i = [])
    (h : ¬SourcesReady s i) : ¬Ready s a := by
  simpa [SourcesReady, hd, hp] using h

theorem not_ready_pair_of_sources {a b : DReg} (hd : dataSources i = [a, b]) (hp : pointSources i = [])
    (h : ¬SourcesReady s i) : ¬(Ready s a ∧ Ready s b) := by
  simpa [SourcesReady, hd, hp] using h

theorem not_readyPoint_of_sources {a : PReg} (hd : dataSources i = []) (hp : pointSources i = [a])
    (h : ¬SourcesReady s i) : ¬ReadyPoint s a := by
  simpa [SourcesReady, hd, hp] using h

theorem not_readyPoint_pair_of_sources {a b : PReg} (hd : dataSources i = []) (hp : pointSources i = [a, b])
    (h : ¬SourcesReady s i) : ¬(ReadyPoint s a ∧ ReadyPoint s b) := by
  simpa [SourcesReady, hd, hp] using h

theorem not_ready_readyPoint_of_sources {a : DReg} {b : PReg} (hd : dataSources i = [a])
    (hp : pointSources i = [b]) (h : ¬SourcesReady s i) : ¬(Ready s a ∧ ReadyPoint s b) := by
  simpa [SourcesReady, hd, hp] using h

end

/-- Settles O12, by cases on the command: its sources are read, and found not valid, before any other check. -/
theorem invalidSourcesRaiseUninit : Obligations.InvalidSourcesRaiseUninit := by
  intro i s hwf h
  cases i with
  | nop | pinf _ | pgen _ => exact absurd (SourcesReady.of_none rfl rfl) h
  | fadd _ _ _ | fsub _ _ _ | fmul _ _ _ | fdiv _ _ _ | pset _ _ _ =>
    exact retire_error (bind_error_left (needElem2_not (not_ready_pair_of_sources rfl rfl h)))
  | fpow _ _ _ | xor _ _ _ =>
    exact retire_error (bind_error_left (needData2_not (not_ready_pair_of_sources rfl rfl h)))
  | finv _ _ | fsqrt _ _ | pdec _ _ =>
    exact retire_error (bind_error_left (needElem_not (not_ready_of_sources rfl rfl h)))
  | kexp _ | mov _ _ => exact retire_error (bind_error_left (needData_not (not_ready_of_sources rfl rfl h)))
  | asub _ _ | aisub _ _ | ashr _ _ | aishr _ _ | amix _ _ | aimix _ _ =>
    exact laneCommand_not _ _ (not_ready_of_sources rfl rfl h)
  | aese _ _ | aesd _ _ => exact keyedLaneCommand_not _ _ (not_ready_of_sources rfl rfl h)
  | aark d _ _ => exact execAark_not d (of_decide_eq_true hwf) (not_ready_of_sources rfl rfl h)
  | pmov _ _ | px _ _ | py _ _ | pneg _ _ | pisinf _ =>
    exact retire_error (bind_error_left (needPoint_not (not_readyPoint_of_sources rfl rfl h)))
  | padd _ _ _ | peq _ _ =>
    exact retire_error (bind_error_left (needPoint2_not (not_readyPoint_pair_of_sources rfl rfl h)))
  | pmul d _ _ => exact execPmul_not d (not_ready_readyPoint_of_sources rfl rfl h)

end Sys2Proof.Machine
end

section
/-! The words and bytes of a data register (10_state R32), what a write of one word leaves of the value, and reading a
register file after one register of it is written. -/

namespace Sys2Proof.Machine

/-! ### The words and bytes of a value -/

theorem wordOf_toNat (v : Data) (j : Nat) : (wordOf v j).toNat = v.toNat / 2 ^ (32 * (7 - j)) % 2 ^ 32 := by
  rw [wordOf, BitVec.extractLsb'_toNat, Nat.shiftRight_eq_div_pow]

/-- The last n digits in base b, summed with their weights. -/
theorem sum_digits_eq_mod (b v n : Nat) : ∑ i ∈ Finset.range n, v / b ^ i % b * b ^ i = v % b ^ n := by
  induction n with
  | zero => simp [Nat.mod_one]
  | succ n ih => rw [Finset.sum_range_succ, ih, Nat.mod_pow_succ, Nat.mul_comm]

theorem sum_words (v : Data) : v.toNat = ∑ j : Fin 8, (wordOf v j).toNat * 2 ^ (32 * (7 - j.val)) := by
  calc v.toNat = v.toNat % (2 ^ 32) ^ 8 := (Nat.mod_eq_of_lt (by rw [← pow_mul]; exact v.isLt)).symm
    _ = ∑ i ∈ Finset.range 8, v.toNat / (2 ^ 32) ^ i % 2 ^ 32 * (2 ^ 32) ^ i := (sum_digits_eq_mod _ _ _).symm
    _ = ∑ j ∈ Finset.range 8, v.toNat / (2 ^ 32) ^ (7 - j) % 2 ^ 32 * (2 ^ 32) ^ (7 - j) :=
      (Finset.sum_range_reflect (fun i => v.toNat / (2 ^ 32) ^ i % 2 ^ 32 * (2 ^ 32) ^ i) 8).symm
    _ = ∑ j : Fin 8, (wordOf v j).toNat * 2 ^ (32 * (7 - j.val)) := by
      simp only [Finset.sum_range, wordOf_toNat, pow_mul]

/-- Byte k of word j is byte 4j + k of the register. -/
theorem byteOf_word (v : Data) {j k : Nat} (hj : j < 8) (hk : k < 4) :
    (byteOf v (4 * j + k)).toNat = (wordOf v j).toNat / 256 ^ (3 - k) % 256 := by
  have hexp : 8 * (31 - (4 * j + k)) = 32 * (7 - j) + 8 * (3 - k) := by omega
  rw [byteOf, BitVec.extractLsb'_toNat, Nat.shiftRight_eq_div_pow, wordOf_toNat, hexp, pow_add,
    ← Nat.div_div_eq_div_mul, pow_mul 2 8]
  generalize v.toNat / 2 ^ (32 * (7 - j)) = x
  interval_cases k <;> omega

theorem word_bytes (v : Data) (j : Fin 8) :
    (wordOf v j).toNat = (byteOf v (4 * j)).toNat * 2 ^ 24 + (byteOf v (4 * j + 1)).toNat * 2 ^ 16 +
      (byteOf v (4 * j + 2)).toNat * 2 ^ 8 + (byteOf v (4 * j + 3)).toNat := by
  have h0 := byteOf_word v (k := 0) j.isLt (by decide)
  have h1 := byteOf_word v (k := 1) j.isLt (by decide)
  have h2 := byteOf_word v (k := 2) j.isLt (by decide)
  have h3 := byteOf_word v (k := 3) j.isLt (by decide)
  have hw := (wordOf v j).isLt
  simp only [Nat.add_zero] at h0
  omega

/-- Settles O19: the words are the digits of the value in base 2^32, the bytes those of a word in base 256. -/
theorem wordsAndBytesOfADataRegister : Obligations.WordsAndBytesOfADataRegister :=
  fun v => ⟨sum_words v, word_bytes v⟩

/-! ### Writing a word -/

/-- A register value is determined by its words. -/
theorem eq_of_words {v w : Data} (h : ∀ j : Fin 8, wordOf v j = wordOf w j) : v = w := by
  apply BitVec.eq_of_toNat_eq
  rw [sum_words v, sum_words w]
  exact Finset.sum_congr rfl fun j _ => by rw [h j]

theorem getLsbD_wordMask (i : Nat) : (0xFFFFFFFF : Data).getLsbD i = decide (i < 32) := by
  have hm : (0xFFFFFFFF : Data) = (BitVec.allOnes 32).setWidth 256 := by decide
  rw [hm, BitVec.getLsbD_setWidth, BitVec.getLsbD_allOnes, ← Bool.decide_and]
  exact decide_eq_decide.2 (by omega)

/-- The bits of word j are those of w, the others those of d. -/
theorem getLsbD_setWord (d : Data) (j : Nat) (w : Word) {i : Nat} (hi : i < 256) :
    (setWord d j w).getLsbD i =
      if 32 * (7 - j) ≤ i ∧ i < 32 * (7 - j) + 32 then w.getLsbD (i - 32 * (7 - j)) else d.getLsbD i := by
  simp only [setWord, BitVec.getLsbD_or, BitVec.getLsbD_and, BitVec.getLsbD_not, BitVec.getLsbD_shiftLeft,
    BitVec.getLsbD_setWidth, getLsbD_wordMask]
  generalize 32 * (7 - j) = n
  split
  · next h => simp [hi, show ¬ i < n by omega, show i - n < 256 by omega, show i - n < 32 by omega]
  · next h =>
    by_cases hn : i < n
    · simp [hi, hn]
    · have hge : 32 ≤ i - n := by omega
      simp [hi, hn, hge, show ¬ i - n < 32 by omega]

theorem wordOf_setWord_same (d : Data) (j : Fin 8) (w : Word) : wordOf (setWord d j w) j = w := by
  ext b hb
  rw [wordOf, BitVec.getElem_extractLsb', getLsbD_setWord d j w (by omega), if_pos (by omega), Nat.add_sub_cancel_left,
    BitVec.getLsbD_eq_getElem hb]

theorem wordOf_setWord_ne (d : Data) {j k : Fin 8} (w : Word) (h : k ≠ j) :
    wordOf (setWord d j w) k = wordOf d k := by
  ext b hb
  rw [wordOf, wordOf, BitVec.getElem_extractLsb', BitVec.getElem_extractLsb', getLsbD_setWord d j w (by omega),
    if_neg (by omega)]

/-! ### One register of a file -/

section
variable {α : Type} {n : Nat}

theorem vector_set_same (xs : Vector α n) (i : Fin n) (x : α) : (xs.set i x)[i] = x :=
  Vector.getElem_set_self i.isLt

theorem vector_set_ne (xs : Vector α n) {i k : Fin n} (x : α) (h : k ≠ i) : (xs.set i x)[k] = xs[k] :=
  Vector.getElem_set_ne i.isLt k.isLt fun e => h (Fin.ext e.symm)

end

end Sys2Proof.Machine
end

section
/-! What a command writes rests on its operands alone (45_data_system R300, R301): from two states that answer every
read of an operand alike a command writes the same effect, or raises the same error, and nothing else is read. -/

namespace Sys2Proof.Machine

/-- What a command that completes without an error has written (45_data_system R301): the value, apart from the
state it is written to. -/
inductive Effect where
  | nothing
  | data (d : DReg) (x : Data)
  | point (d : PReg) (q : Point)
  | eq (b : Bool)
  | schedule (k : Schedule)

/-- The state with the effect written. -/
def Effect.apply (s : State) : Effect → State
  | .nothing => s
  | .data d x => s.writeData d x
  | .point d q => s.writePoint d q
  | .eq b => s.writeEq b
  | .schedule k => s.writeSchedule k

/-- Which commands can write EQ and the key schedule. Nothing is said here of who writes registers. -/
def Effect.PossibleFor (i : Instr) : Effect → Prop
  | .nothing | .data _ _ | .point _ _ => True
  | .eq _ => (∃ a b, i = .peq a b) ∨ ∃ a, i = .pisinf a
  | .schedule _ => ∃ a, i = .kexp a

/-- The two states answer every read of an operand alike. -/
structure SameOperands (s t : State) : Prop where
  data : ∀ a, needData s a = needData t a
  point : ∀ a, needPoint s a = needPoint t a
  key : needKey s = needKey t

theorem SameOperands.refl (s : State) : SameOperands s s := ⟨fun _ => rfl, fun _ => rfl, rfl⟩

namespace SameOperands
variable {s t : State} (h : SameOperands s t)
include h

theorem data2 (a b : DReg) : needData2 s a b = needData2 t a b := by rw [needData2, h.data, h.data]; rfl
theorem point2 (a b : PReg) : needPoint2 s a b = needPoint2 t a b := by rw [needPoint2, h.point, h.point]; rfl
theorem elem (a : DReg) : needElem s a = needElem t a := by rw [needElem, h.data]; rfl
theorem elem2 (a b : DReg) : needElem2 s a b = needElem2 t a b := by rw [needElem2, h.data2]; rfl
theorem dataKey (a : DReg) : needDataKey s a = needDataKey t a := by rw [needDataKey, h.data, h.key]; rfl

end SameOperands

/-- The outcomes of command i from s and from t: the same effect written to both, or the same error recorded. -/
def CompletesAlike (i : Instr) (s t : State) (o o' : Out) : Prop :=
  (∃ e : Effect, e.PossibleFor i ∧ o = .next (e.apply s).complete ∧ o' = .next (e.apply t).complete) ∨
    ∃ c, o = .next (s.failCommand c) ∧ o' = .next (t.failCommand c)

namespace CompletesAlike
variable {i : Instr} {s t : State}

theorem nothing : CompletesAlike i s t (retire s (.ok s)) (retire t (.ok t)) :=
  .inl ⟨.nothing, trivial, rfl, rfl⟩

theorem data (d : DReg) (x : Data) :
    CompletesAlike i s t (retire s (.ok (s.writeData d x))) (retire t (.ok (t.writeData d x))) :=
  .inl ⟨.data d x, trivial, rfl, rfl⟩

theorem point (d : PReg) (q : Point) :
    CompletesAlike i s t (retire s (.ok (s.writePoint d q))) (retire t (.ok (t.writePoint d q))) :=
  .inl ⟨.point d q, trivial, rfl, rfl⟩

theorem error (c : ErrCode) : CompletesAlike i s t (retire s (.error c)) (retire t (.error c)) :=
  .inr ⟨c, rfl, rfl⟩

/-- A body that starts with a check of its operands, which answers alike in both states. -/
theorem bind {α : Type} {x y : Except ErrCode α} {f g : α → Except ErrCode State} (hxy : x = y)
    (hf : ∀ a, CompletesAlike i s t (retire s (f a)) (retire t (g a))) :
    CompletesAlike i s t (retire s (x >>= f)) (retire t (y >>= g)) := by
  subst hxy
  cases x with
  | error c => exact error c
  | ok a => exact hf a

theorem ofLane (h : SameOperands s t) (f : Lane → Lane) (d a : DReg) :
    CompletesAlike i s t (laneCommand f d a s) (laneCommand f d a t) :=
  bind (h.data a) fun _ => data d _

theorem ofKeyedLane (h : SameOperands s t) (f : Schedule → Lane → Lane) (d a : DReg) :
    CompletesAlike i s t (keyedLaneCommand f d a s) (keyedLaneCommand f d a t) :=
  bind (h.dataKey a) fun _ => data d _

end CompletesAlike

open CompletesAlike in
/-- A command's outcome rests on its operands alone (45_data_system R300, R301). -/
theorem exec_completesAlike {s t : State} (h : SameOperands s t) (i : Instr) :
    CompletesAlike i s t (exec i s) (exec i t) := by
  cases i with
  | nop => exact nothing
  | pinf d | pgen d => exact point d _
  | fadd d a b | fsub d a b | fmul d a b => exact bind (h.elem2 a b) fun _ => data d _
  | fpow d a b => exact bind (h.data2 a b) fun _ => bind rfl fun _ => data d _
  | finv d a =>
    refine bind (h.elem a) fun x => ?_
    dsimp only
    split
    · exact error .div0
    · exact data d _
  | fdiv d a b =>
    refine bind (h.elem2 a b) fun x => ?_
    dsimp only
    split
    · exact error .div0
    · exact data d _
  | fsqrt d a => exact bind (h.elem a) fun _ => data d _
  | pset d a b =>
    refine bind (h.elem2 a b) fun x => ?_
    dsimp only
    split
    · exact point d _
    · exact error .curve
  | pdec d a =>
    refine bind (h.elem a) fun x => ?_
    cases decompress x with
    | none => exact error .curve
    | some q => exact point d q
  | pmov d a | pneg d a => exact bind (h.point a) fun _ => point d _
  | px d a | py d a => exact bind (h.point a) fun _ => bind rfl fun _ => data d _
  | padd d a b => exact bind (h.point2 a b) fun _ => point d _
  | peq a b => exact bind (h.point2 a b) fun _ => .inl ⟨.eq _, .inl ⟨a, b, rfl⟩, rfl, rfl⟩
  | pisinf a => exact bind (h.point a) fun _ => .inl ⟨.eq _, .inr ⟨a, rfl⟩, rfl, rfl⟩
  | pmul d a b => exact bind (h.data a) fun _ => bind (h.point b) fun _ => point d _
  | kexp a => exact bind (h.data a) fun _ => .inl ⟨.schedule _, ⟨a, rfl⟩, rfl, rfl⟩
  | aese d a | aesd d a => exact ofKeyedLane h _ d a
  | asub d a | aisub d a | ashr d a | aishr d a | amix d a | aimix d a => exact ofLane h _ d a
  | aark d a k =>
    change CompletesAlike _ s t (execAark d a k s) (execAark d a k t)
    unfold execAark
    split
    · exact ofKeyedLane h _ d a
    · exact error .illegal
  | mov d a => exact bind (h.data a) fun _ => data d _
  | xor d a b => exact bind (h.data2 a b) fun _ => data d _

/-- A command writes one effect, of a kind it can have, or records an error. -/
theorem exec_effect {i : Instr} {s t : State} (h : exec i s = .next t) :
    (∃ e : Effect, e.PossibleFor i ∧ t = (e.apply s).complete) ∨ ∃ c, t = s.failCommand c := by
  obtain ⟨e, hi, hs, -⟩ | ⟨c, hs, -⟩ := exec_completesAlike (.refl s) i <;> cases hs.symm.trans h
  · exact .inl ⟨e, hi, rfl⟩
  · exact .inr ⟨c, rfl⟩

end Sys2Proof.Machine
end

section
/-! Two states that agree on their valid content (10_state R48, 70_reset R376) show the host the same, and every
operation on the state, every host access and every move keeps the agreement. -/

namespace Sys2Proof.Machine

/-- The checks on an access look at the access alone. -/
theorem checkedAccess_sameOutcome (off width : Nat) {k k' : WindowReg → State}
    (hk : ∀ reg, SameValidContent (k reg) (k' reg)) :
    SameOutcome (checkedAccess off width k) (checkedAccess off width k') := by
  unfold checkedAccess
  split
  · rfl
  · split
    · rfl
    · exact hk _

namespace SameValidContent
variable {s t : State} (h : SameValidContent s t)
include h

theorem ready_iff (a : DReg) : Ready s a ↔ Ready t a := by simp only [Ready, h.v]

theorem readyPoint_iff (a : PReg) : ReadyPoint s a ↔ ReadyPoint t a := by simp only [ReadyPoint, h.pv]

/-- An operand is read only where it is valid, and there the states agree. -/
theorem sameOperands : SameOperands s t where
  data a := by
    by_cases ha : Ready s a
    · have hr : s.r[a] = t.r[a] := eq_of_words fun j => h.r a j (ha j)
      rw [needData_ready ha, needData_ready ((h.ready_iff a).1 ha), hr]
    · rw [needData_not ha, needData_not (mt (h.ready_iff a).2 ha)]
  point a := by
    by_cases ha : ReadyPoint s a
    · rw [needPoint_ready ha, needPoint_ready ((h.readyPoint_iff a).1 ha), h.p a ha]
    · rw [needPoint_not ha, needPoint_not (mt (h.readyPoint_iff a).2 ha)]
  key := by
    by_cases hk : s.ksv = true
    · rw [needKey_ready hk, needKey_ready (h.ksv ▸ hk), h.ks hk]
    · rw [needKey_not hk, needKey_not (h.ksv ▸ hk)]

/-! ### Operations on the state -/

theorem setInput (l : List Event) : SameValidContent { s with input := l } { t with input := l } :=
  { h with input := rfl }

theorem complete : SameValidContent s.complete t.complete := { h with done := rfl, inflight := rfl }

theorem failCommand (c : ErrCode) : SameValidContent (s.failCommand c) (t.failCommand c) :=
  { h with err := rfl, ecode := rfl, done := rfl, inflight := rfl }

theorem resetUnit : SameValidContent s.resetUnit t.resetUnit where
  v := rfl
  pv := rfl
  r _ _ _ := rfl
  p _ _ := rfl
  ksv := rfl
  ks _ := rfl
  eqFlag := rfl
  irqen := rfl
  done := rfl
  err := rfl
  ovr := rfl
  ecode := rfl
  cmdLast := rfl
  cmdCnt := rfl
  inflight := rfl
  input := h.input
  replies := h.replies
  freeCount := h.freeCount

/-- R[i] written in both states, with contents that agree in the words that are valid after the write. -/
theorem setData (i : DReg) (vs : Vector Bool 8) {x y : Data}
    (hxy : ∀ j : Fin 8, vs[j] = true → wordOf x j = wordOf y j) :
    SameValidContent { s with r := s.r.set i x, v := s.v.set i vs } { t with r := t.r.set i y, v := t.v.set i vs } :=
  { h with
    v := by simp only [h.v]
    r := fun k j hj => by
      by_cases hk : k = i
      · subst hk
        rw [vector_set_same] at hj
        rw [vector_set_same, vector_set_same]
        exact hxy j hj
      · rw [vector_set_ne _ _ hk] at hj
        rw [vector_set_ne _ _ hk, vector_set_ne _ _ hk]
        exact h.r k j hj }

theorem setPoint (i : PReg) (q : Point) : SameValidContent (s.writePoint i q) (t.writePoint i q) :=
  { h with
    pv := by simp only [State.writePoint_pv, h.pv]
    p := fun k hk => by
      rw [State.writePoint_p, State.writePoint_p]
      by_cases hd : k = i
      · subst hd
        rw [vector_set_same, vector_set_same]
      · rw [State.writePoint_pv, vector_set_ne _ _ hd] at hk
        rw [vector_set_ne _ _ hd, vector_set_ne _ _ hd]
        exact h.p k hk }

theorem applyEffect (e : Effect) : SameValidContent (e.apply s) (e.apply t) := by
  cases e with
  | nothing => exact h
  | data d x => exact h.setData d allValid fun _ _ => rfl
  | point d q => exact h.setPoint d q
  | eq b => exact { h with eqFlag := rfl }
  | schedule k => exact { h with ksv := rfl, ks := fun _ => rfl }

theorem dataValid (a : DReg) : s.dataValid a = t.dataValid a := by simp only [State.dataValid, h.v]

theorem busy : s.busy = t.busy := by simp only [State.busy, h.inflight]

/-! ### Host accesses -/

theorem statusWord : s.statusWord = t.statusWord := by
  simp only [State.statusWord, h.ecode, h.ksv, h.eqFlag, h.ovr, h.err, h.done, h.busy]

theorem windowValue (reg : WindowReg) : s.windowValue reg = t.windowValue reg := by
  cases reg with
  | id | reserved => rfl
  | ctrl => simp only [State.windowValue, State.ctrlWord, h.irqen]
  | status => simp only [State.windowValue, h.statusWord]
  | cmd => simp only [State.windowValue, h.cmdLast]
  | cmdcnt => simp only [State.windowValue, h.cmdCnt]
  | rwin i j =>
    by_cases hv : s.v[i][j] = true
    · simp only [State.windowValue, h.busy, ← h.v, h.r i j hv]
    · simp only [State.windowValue, h.busy, ← h.v, hv, Bool.and_false, Bool.false_eq_true, if_false]
  | kswin j =>
    by_cases hk : s.ksv = true
    · simp only [State.windowValue, h.busy, ← h.ksv, h.ks hk]
    · simp only [State.windowValue, h.busy, ← h.ksv, hk, Bool.and_false, Bool.false_eq_true, if_false]

theorem observation : s.observation = t.observation := by
  simp only [State.observation, h.windowValue, h.statusWord, h.cmdLast, h.cmdCnt, h.dataValid]

theorem hostRead (reg : WindowReg) : SameValidContent (s.hostRead reg) (t.hostRead reg) := by
  unfold State.hostRead
  rw [h.windowValue reg]
  split
  · exact { h with replies := by simp [h.replies] }
  · exact { h with replies := by simp [h.replies, h.freeCount], freeCount := by simp [h.freeCount] }

theorem writeCtrl (w : Word) : SameValidContent (s.writeCtrl w) (t.writeCtrl w) := by
  unfold State.writeCtrl
  split
  · exact h.resetUnit
  · exact { h with irqen := rfl }

theorem writeStatus (w : Word) : SameValidContent (s.writeStatus w) (t.writeStatus w) := by
  rw [writeStatus_eq, writeStatus_eq]
  exact { h with
    done := by simp only [h.done]
    err := by simp only [h.err]
    ecode := by simp only [h.ecode]
    ovr := by simp only [h.ovr] }

theorem issue (w : Word) : SameValidContent (s.issue w) (t.issue w) := by
  unfold State.issue
  rw [h.busy, h.err]
  split
  · exact { h with ovr := rfl }
  · exact { h with cmdLast := rfl, cmdCnt := by simp [h.cmdCnt], done := rfl, inflight := rfl }

theorem writeWindowWord (i : DReg) (j : Fin 8) (w : Word) :
    SameValidContent (s.writeWindowWord i j w) (t.writeWindowWord i j w) := by
  have hv : t.v[i] = s.v[i] := by rw [h.v]
  unfold State.writeWindowWord
  rw [h.busy, hv]
  split
  · exact { h with ovr := rfl }
  · refine h.setData i _ fun k hk => ?_
    by_cases hkj : k = j
    · rw [hkj, wordOf_setWord_same, wordOf_setWord_same]
    · rw [vector_set_ne _ _ hkj] at hk
      rw [wordOf_setWord_ne _ w hkj, wordOf_setWord_ne _ w hkj]
      exact h.r i k hk

theorem hostWrite (reg : WindowReg) (w : Word) : SameValidContent (s.hostWrite reg w) (t.hostWrite reg w) := by
  cases reg with
  | ctrl => exact h.writeCtrl w
  | status => exact h.writeStatus w
  | cmd => exact h.issue w
  | rwin i j => exact h.writeWindowWord i j w
  | id | cmdcnt | kswin _ | reserved => exact h

/-! ### Moves -/

theorem performAccess_sameOutcome (a : HostAccess) : SameOutcome (performAccess s a) (performAccess t a) := by
  cases a with
  | read off width => exact checkedAccess_sameOutcome off width h.hostRead
  | write off width w => exact checkedAccess_sameOutcome off width fun reg => h.hostWrite reg w

theorem exec_sameOutcome (i : Instr) : SameOutcome (exec i s) (exec i t) := by
  obtain ⟨e, -, hs, ht⟩ | ⟨c, hs, ht⟩ := exec_completesAlike h.sameOperands i <;> rw [hs, ht]
  · exact (h.applyEffect e).complete
  · exact h.failCommand c

theorem engineTurn_sameOutcome : SameOutcome (engineTurn s) (engineTurn t) := by
  unfold engineTurn
  rw [h.inflight]
  split
  · exact h
  · split
    · exact h.exec_sameOutcome _
    · exact h.failCommand .illegal

theorem performEvent_sameOutcome (e : Event) : SameOutcome (performEvent s e) (performEvent t e) := by
  cases e with
  | host a => exact h.performAccess_sameOutcome a
  | engine => exact h.engineTurn_sameOutcome
  | resetInput => exact h.resetUnit

theorem step_sameOutcome : SameOutcome (step s) (step t) := by
  unfold step nextMove
  rw [h.input]
  split
  · exact h.engineTurn_sameOutcome
  · exact (h.setInput _).performEvent_sameOutcome _

end SameValidContent

/-- Settles O60: what is not valid is neither shown to the host nor read by a move, which keeps the agreement. -/
theorem invalidContentIsUnobservable : Obligations.InvalidContentIsUnobservable :=
  fun _ _ h => ⟨h.observation, h.step_sameOutcome⟩

end Sys2Proof.Machine
end

section
/-! The moves as steps: what a turn of the engine answers, the write that is accepted, the writes that reset, and what
every other access leaves. -/

namespace Sys2Proof.Machine

/-- A turn of the engine leaves the state, or completes a command. -/
theorem engineTurn_next {s t : State} (h : engineTurn s = .next t) : t = s ∨ Completes s (.next t) := by
  obtain ⟨-, he⟩ | ⟨w, -, hc⟩ := engineTurn_cases s
  · cases he.symm.trans h
    exact .inl rfl
  · exact .inr (h ▸ hc)

theorem stepOn_read (s : State) {off : Nat} (h : off % 4 = 0) (h' : off < 4096) :
    stepOn (.host (.read off 4)) s = .next (s.hostRead (locate off)) :=
  performAccess_read h h'

theorem stepOn_write (s : State) (w : Word) {off : Nat} (h : off % 4 = 0) (h' : off < 4096) :
    stepOn (.host (.write off 4 w)) s = .next (s.hostWrite (locate off) w) :=
  performAccess_write w h h'

theorem issue_accepts {s : State} (w : Word) (hb : s.inflight = none) (he : s.err = false) :
    s.issue w = s.accept w := by
  simp [State.issue, State.busy, hb, he]

theorem stepOn_cmd_accepts {s : State} (w : Word) (hb : s.inflight = none) (he : s.err = false) :
    stepOn (.host (.write 0x00C 4 w)) s = .next (s.accept w) :=
  (stepOn_write s w (by decide) (by decide)).trans (congrArg _ (issue_accepts w hb he))

theorem stepOn_ctrl_reset (s : State) {w : Word} (hw : w.getLsbD 0 = true) :
    stepOn (.host (.write 0x004 4 w)) s = .next s.resetUnit :=
  (stepOn_write s w (by decide) (by decide)).trans (congrArg _ (if_pos hw))

theorem stepOn_ctrl_irqen (s : State) {w : Word} (hw : w.getLsbD 0 = false) :
    stepOn (.host (.write 0x004 4 w)) s = .next { s with irqen := w.getLsbD 1 } :=
  (stepOn_write s w (by decide) (by decide)).trans (congrArg _ (if_neg (Bool.not_eq_true _ ▸ hw)))

theorem stepOn_resets {s : State} {e : Event} (h : Resets e) : stepOn e s = .next s.resetUnit := by
  obtain rfl | ⟨w, rfl, hw⟩ := h
  · rfl
  · exact stepOn_ctrl_reset s hw

theorem HostWrote.frame {s t : State} {off : Nat} {w : Word} (h : HostWrote s off w t) :
    (t.p = s.p ∧ t.ks = s.ks ∧ t.ksv = s.ksv ∧ t.eqFlag = s.eqFlag) ∨
      (t = s.resetUnit ∧ off = 0x004 ∧ w.getLsbD 0 = true) := by
  cases h with
  | reset ho hw => exact .inr ⟨rfl, ho, hw⟩
  | _ => exact .inl ⟨rfl, rfl, rfl, rfl⟩

/-- What a host access leaves unless it is a write to CTRL with SRST = 1. -/
theorem access_frame {s t : State} {a : HostAccess} (h : performAccess s a = .next t) :
    (t.p = s.p ∧ t.ks = s.ks ∧ t.ksv = s.ksv ∧ t.eqFlag = s.eqFlag) ∨
      (t = s.resetUnit ∧ ∃ w : Word, a = .write 0x004 4 w ∧ w.getLsbD 0 = true) := by
  obtain ⟨off, rfl, -, -, rfl⟩ | ⟨off, w, rfl, -, -, rfl⟩ := performAccess_cases h
  · obtain ⟨w, n, hread⟩ := hostRead_eq s (locate off)
    rw [hread]
    exact .inl ⟨rfl, rfl, rfl, rfl⟩
  · obtain hframe | ⟨ht, rfl, hw⟩ := (hostWrite_cases s off w).frame
    · exact .inl hframe
    · exact .inr ⟨ht, w, rfl, hw⟩

end Sys2Proof.Machine
end

section
/-! The control registers: CMD_LAST and CMDCNT, CTRL, STATUS (10_state R41 to R45). -/

namespace Sys2Proof.Machine

/-! ### CMD_LAST and CMDCNT -/

theorem Completes.commandRegisters {s t : State} (h : Completes s (.next t)) :
    t.cmdCnt = s.cmdCnt ∧ t.cmdLast = s.cmdLast := by
  cases h with
  | ok u hu => cases hu <;> exact ⟨rfl, rfl⟩
  | fail c hc => exact ⟨rfl, rfl⟩

theorem engineTurn_commandRegisters {s t : State} (h : engineTurn s = .next t) :
    t.cmdCnt = s.cmdCnt ∧ t.cmdLast = s.cmdLast := by
  obtain rfl | hc := engineTurn_next h
  · exact ⟨rfl, rfl⟩
  · exact hc.commandRegisters

theorem HostWrote.commandRegisters {s t : State} {off : Nat} {w : Word} (h : HostWrote s off w t)
    (ha : ¬Accepts s (.host (.write off 4 w)) w) (hr : ¬Resets (.host (.write off 4 w))) :
    t.cmdCnt = s.cmdCnt ∧ t.cmdLast = s.cmdLast := by
  cases h with
  | accepted ho hb he => exact absurd ⟨ho ▸ rfl, hb, he⟩ ha
  | reset ho hw => exact absurd (.inr ⟨w, ho ▸ rfl, hw⟩) hr
  | _ => exact ⟨rfl, rfl⟩

theorem access_commandRegisters {s t : State} {a : HostAccess} (h : performAccess s a = .next t)
    (ha : ∀ w, ¬Accepts s (.host a) w) (hr : ¬Resets (.host a)) : t.cmdCnt = s.cmdCnt ∧ t.cmdLast = s.cmdLast := by
  obtain ⟨off, rfl, -, -, rfl⟩ | ⟨off, w, rfl, -, -, rfl⟩ := performAccess_cases h
  · obtain ⟨w, n, hread⟩ := hostRead_eq s (locate off)
    rw [hread]
    exact ⟨rfl, rfl⟩
  · exact (hostWrite_cases s off w).commandRegisters (ha w) hr

/-- Settles O13: an acceptance and a reset write both registers, and by the inversion lemmas nothing else does. -/
theorem commandRegistersFollowAcceptance : Obligations.CommandRegistersFollowAcceptance := by
  refine ⟨fun s => stepOn_read s (by decide) (by decide), fun s => stepOn_read s (by decide) (by decide),
    fun s => stepOn_read s (by decide) (by decide), fun s w => stepOn_write s w (by decide) (by decide),
    fun s w => stepOn_write s w (by decide) (by decide), ?_, ?_, ?_⟩
  · rintro s e w ⟨rfl, hb, he⟩
    exact ⟨_, stepOn_cmd_accepts w hb he, BitVec.toNat_add s.cmdCnt 1, rfl⟩
  · intro s e he
    exact ⟨_, stepOn_resets he, rfl, rfl⟩
  · intro s t e h ha hr
    cases e with
    | host a => exact access_commandRegisters h ha hr
    | engine => exact engineTurn_commandRegisters h
    | resetInput => exact absurd (.inl rfl) hr

/-! ### CTRL and STATUS -/

theorem ctrlWord_eq (s : State) : s.ctrlWord = if s.irqen then 2 else 0 := by
  unfold State.ctrlWord
  cases s.irqen <;> rfl

/-- Settles O15: the three accesses to CTRL. -/
theorem ctrlHoldsIrqenAndResets : Obligations.CtrlHoldsIrqenAndResets := by
  refine ⟨fun s w hw => ⟨_, stepOn_ctrl_reset s hw, rfl, rfl⟩, fun s w hw => stepOn_ctrl_irqen s hw, fun s => ?_⟩
  rw [← ctrlWord_eq]
  exact stepOn_read s (by decide) (by decide)

/-- Cutting the low part off an appended bit vector. -/
theorem toNat_append_div {n m : Nat} (x : BitVec n) (y : BitVec m) : (x ++ y).toNat / 2 ^ m = x.toNat := by
  rw [BitVec.toNat_append, ← Nat.shiftRight_eq_div_pow, Nat.shiftRight_or_distrib, Nat.shiftLeft_shiftRight,
    Nat.shiftRight_eq_zero _ _ y.isLt, Nat.or_zero]

theorem statusWord_bits (s : State) :
    (s.statusWord.getLsbD 0 = true ↔ s.inflight ≠ none) ∧ s.statusWord.getLsbD 1 = s.done ∧
      s.statusWord.getLsbD 2 = s.err ∧ s.statusWord.getLsbD 3 = s.ovr ∧ s.statusWord.getLsbD 4 = s.eqFlag ∧
      s.statusWord.getLsbD 5 = s.ksv ∧ s.statusWord.getLsbD 6 = false ∧ s.statusWord.getLsbD 7 = false := by
  simp only [State.statusWord, BitVec.getLsbD_append]
  simp [Option.isSome_iff_ne_none]

theorem statusWord_ecode (s : State) : s.statusWord.toNat / 2 ^ 8 = s.ecode.toBits.toNat := by
  calc s.statusWord.toNat / 2 ^ 8
      = s.statusWord.toNat / 2 ^ 1 / 2 ^ 1 / 2 ^ 1 / 2 ^ 1 / 2 ^ 1 / 2 ^ 1 / 2 ^ 2 := by omega
    _ = ((0 : BitVec 20) ++ s.ecode.toBits).toNat := by simp only [State.statusWord, toNat_append_div]
    _ = s.ecode.toBits.toNat := by rw [BitVec.toNat_append]; simp

/-- Settles O16: the bits of the STATUS word, and what a write of it clears. -/
theorem statusReadsAndClearsItsFields : Obligations.StatusReadsAndClearsItsFields := by
  refine ⟨fun s => ⟨s.statusWord, stepOn_read s (by decide) (by decide), ?_⟩, fun s w => ?_⟩
  · obtain ⟨hbusy, hdone, herr, hovr, heq, hksv, h6, h7⟩ := statusWord_bits s
    refine ⟨hbusy, hdone, herr, hovr, heq, hksv, h6, h7, ?_⟩
    rw [statusWord_ecode]
    cases s.ecode <;> rfl
  · rw [← writeStatus_eq]
    exact stepOn_write s w (by decide) (by decide)

end Sys2Proof.Machine
end

section
/-! Who writes the flag EQ and the key schedule (10_state R38 to R40). -/

namespace Sys2Proof.Machine

/-! ### EQ -/

theorem exec_eqFlag {i : Instr} {s t : State} (h : exec i s = .next t) (hq : ∀ a b, i ≠ .peq a b)
    (hi : ∀ a, i ≠ .pisinf a) : t.eqFlag = s.eqFlag := by
  obtain ⟨e, he, rfl⟩ | ⟨c, rfl⟩ := exec_effect h
  · cases e with
    | eq b =>
      obtain ⟨a, b, hab⟩ | ⟨a, ha⟩ := he
      · exact absurd hab (hq a b)
      · exact absurd ha (hi a)
    | _ => rfl
  · rfl

theorem exec_eqFlag_of_error {i : Instr} {s t : State} (hs : s.err = false) (h : exec i s = .next t)
    (ht : t.err = true) : t.eqFlag = s.eqFlag := by
  obtain ⟨e, -, rfl⟩ | ⟨c, rfl⟩ := exec_effect h
  · have herr : (e.apply s).complete.err = s.err := by cases e <;> rfl
    rw [herr, hs] at ht
    cases ht
  · rfl

/-- No command reads EQ. -/
theorem exec_setEq {i : Instr} {s t : State} (b : Bool) (h : exec i s = .next t) :
    ∃ b', exec i { s with eqFlag := b } = .next { t with eqFlag := b' } := by
  have hops : SameOperands s { s with eqFlag := b } := ⟨fun _ => rfl, fun _ => rfl, rfl⟩
  obtain ⟨e, -, hs, ht⟩ | ⟨c, hs, ht⟩ := exec_completesAlike hops i <;> cases hs.symm.trans h
  · cases e with
    | eq b' => exact ⟨b', ht⟩
    | _ => exact ⟨b, ht⟩
  · exact ⟨b, ht⟩

/-- Settles O55, from the effects a command can have and what a host access leaves. -/
theorem onlyComparisonsWriteEq : Obligations.OnlyComparisonsWriteEq := by
  refine ⟨fun i s t => exec_eqFlag, fun i s t => exec_eqFlag_of_error, fun i s t b => exec_setEq b, fun s t a h => ?_⟩
  obtain ⟨-, -, -, heq⟩ | ⟨rfl, hreset⟩ := access_frame h
  · exact .inl heq
  · exact .inr ⟨rfl, hreset⟩

/-! ### The key schedule -/

theorem exec_schedule {i : Instr} {s t : State} (h : exec i s = .next t) (hk : ∀ a, i ≠ .kexp a) :
    t.ks = s.ks ∧ t.ksv = s.ksv := by
  obtain ⟨e, he, rfl⟩ | ⟨c, rfl⟩ := exec_effect h
  · cases e with
    | schedule k =>
      obtain ⟨a, ha⟩ := he
      exact absurd ha (hk a)
    | _ => exact ⟨rfl, rfl⟩
  · exact ⟨rfl, rfl⟩

theorem exec_keeps_ksv {i : Instr} {s t : State} (h : exec i s = .next t) (hs : s.ksv = true) : t.ksv = true := by
  obtain ⟨e, -, rfl⟩ | ⟨c, rfl⟩ := exec_effect h
  · cases e with
    | schedule k => rfl
    | _ => exact hs
  · exact hs

/-- Settles O56, from the effects a command can have and what a host access leaves. -/
theorem onlyKexpWritesTheSchedule : Obligations.OnlyKexpWritesTheSchedule := by
  refine ⟨fun i s t => exec_schedule, fun i s t => exec_keeps_ksv, fun s t a h => ?_⟩
  obtain ⟨-, hks, hksv, -⟩ | ⟨rfl, hreset⟩ := access_frame h
  · exact .inl ⟨hks, hksv⟩
  · exact .inr ⟨rfl, hreset⟩

end Sys2Proof.Machine
end

section
/-! Every point register holds INF or a point of the curve (10_state R35), and the state after reset (10_state R48). -/

namespace Sys2Proof.Machine

/-! ### The point registers -/

theorem PointsOnCurve.writePoint {s : State} (hs : PointsOnCurve s) (d : PReg) {q : Point} (hq : pointOnCurve q = true) :
    PointsOnCurve (s.writePoint d q) := by
  intro i
  rw [State.writePoint_p]
  by_cases hi : i = d
  · rw [hi, vector_set_same]
    exact hq
  · rw [vector_set_ne _ _ hi]
    exact hs i

theorem PointsOnCurve.resetUnit (s : State) : PointsOnCurve s.resetUnit := by
  intro i
  simp [pointOnCurve]

theorem Completes.pointsOnCurve {s t : State} (h : Completes s (.next t)) (hs : PointsOnCurve s) : PointsOnCurve t := by
  cases h with
  | ok u hu =>
    cases hu with
    | point d q hq => exact hs.writePoint d (hq hs)
    | _ => exact hs
  | fail c hc => exact hs

theorem engineTurn_pointsOnCurve {s t : State} (h : engineTurn s = .next t) (hs : PointsOnCurve s) :
    PointsOnCurve t := by
  obtain rfl | hc := engineTurn_next h
  · exact hs
  · exact hc.pointsOnCurve hs

theorem access_pointsOnCurve {s t : State} {a : HostAccess} (h : performAccess s a = .next t)
    (hs : PointsOnCurve s) : PointsOnCurve t := by
  obtain ⟨hp, -⟩ | ⟨rfl, -⟩ := access_frame h
  · intro i
    rw [hp]
    exact hs i
  · exact .resetUnit s

/-- Settles O57, by cases on the move: only a command writes a point register, and it writes INF or a point of the
curve. -/
theorem everyStepKeepsPointsOnTheCurve : Obligations.EveryStepKeepsPointsOnTheCurve := by
  intro s t hs h
  obtain ⟨-, he⟩ | ⟨rest, -, he⟩ | ⟨a, rest, -, he⟩ | ⟨rest, -, he⟩ := step_cases s <;> rw [he] at h
  · exact engineTurn_pointsOnCurve h hs
  · exact engineTurn_pointsOnCurve h hs
  · exact access_pointsOnCurve h hs
  · cases h
    exact .resetUnit _

/-! ### The state after reset -/

/-- Settles O25: no word and no point of the two files is valid, and the rest is written in `State.reset`. -/
theorem resetStateHasTheResetValues : Obligations.ResetStateHasTheResetValues := by
  refine ⟨fun i j => ?_, fun i => ?_, rfl, rfl, rfl, rfl, rfl, rfl, rfl, rfl, rfl, rfl, rfl, rfl, rfl⟩
  · simp [State.reset]
  · simp [State.reset]

/-- Settles O59: INF is on the curve, nothing is in flight, ERR and KSV are 0. -/
theorem resetMeetsTheInvariants : Obligations.ResetMeetsTheInvariants :=
  ⟨.resetUnit .reset, nofun, ⟨nofun, fun h => absurd rfl h⟩, nofun⟩

end Sys2Proof.Machine
end

section
/-! The accesses to the register window (20_memory): which of them are performed, and what a read of each part of the
window returns (R70 to R75, R79, R81). -/

namespace Sys2Proof.Machine

/-! ### The checks on an access -/

theorem checkedAccess_refused {off width : Nat} (k : WindowReg → State) (h : width ≠ 4 ∨ off % 4 ≠ 0) :
    checkedAccess off width k = .refused (.badAccess off width) := if_pos h

theorem checkedAccess_outside {off : Nat} (k : WindowReg → State) (h : off % 4 = 0) (h' : 4096 ≤ off) :
    checkedAccess off 4 k = .fault (.outsideWindow off) := by
  rw [checkedAccess, if_neg (by omega), if_pos h']

/-- Settles O23: a read and a write go through the same checks. -/
theorem onlyAlignedWordAccessesInTheWindowComplete : Obligations.OnlyAlignedWordAccessesInTheWindowComplete := by
  refine fun s off width w => ⟨fun h => ⟨checkedAccess_refused s.hostRead h,
    checkedAccess_refused (s.hostWrite · w) h⟩, ?_, ?_⟩
  · rintro rfl h h'
    exact ⟨⟨_, stepOn_read s h h'⟩, _, stepOn_write s w h h'⟩
  · rintro rfl h h'
    exact ⟨checkedAccess_outside s.hostRead h h', checkedAccess_outside (s.hostWrite · w) h h'⟩

/-! ### Reads -/

/-- Settles O22: a host read changes only what the host has learnt. -/
theorem readsHaveNoSideEffect : Obligations.ReadsHaveNoSideEffect := by
  intro s off h h'
  obtain ⟨w, n, hread⟩ := hostRead_eq s (locate off)
  exact ⟨w, n, hread ▸ stepOn_read s h h'⟩

theorem stepOn_read_value {s : State} {off : Nat} {reg : WindowReg} {w : Word} (h : off % 4 = 0) (h' : off < 4096)
    (hl : locate off = reg) (hw : s.windowValue reg = some w) :
    stepOn (.host (.read off 4)) s = .next (s.reply w) := by
  rw [stepOn_read s h h', hl, State.hostRead, hw]

theorem stepOn_read_any {s : State} {off : Nat} {reg : WindowReg} (h : off % 4 = 0) (h' : off < 4096)
    (hl : locate off = reg) (hw : s.windowValue reg = none) :
    stepOn (.host (.read off 4)) s = .next s.replyAny := by
  rw [stepOn_read s h h', hl, State.hostRead, hw]

theorem readable_of_idle {s : State} {valid : Bool} (hb : s.inflight = none) (hv : valid = true) :
    (!s.busy && valid) = true := by
  simp [hb, hv]

theorem not_readable {s : State} {valid : Bool} (h : s.inflight ≠ none ∨ valid = false) :
    ¬(!s.busy && valid) = true := by
  obtain hb | hv := h
  · simp [hb]
  · simp [hv]

theorem windowValue_rwin_valid {s : State} {i : DReg} {j : Fin 8} (hb : s.inflight = none) (hv : s.v[i][j] = true) :
    s.windowValue (.rwin i j) = some (wordOf s.r[i] j) :=
  if_pos (readable_of_idle hb hv)

theorem windowValue_rwin_undefined {s : State} {i : DReg} {j : Fin 8} (h : s.inflight ≠ none ∨ s.v[i][j] = false) :
    s.windowValue (.rwin i j) = none :=
  if_neg (not_readable h)

theorem windowValue_kswin_valid {s : State} (j : Fin 60) (hb : s.inflight = none) (hk : s.ksv = true) :
    s.windowValue (.kswin j) = some (scheduleWord s.ks j) :=
  if_pos (readable_of_idle hb hk)

theorem windowValue_kswin_undefined {s : State} (j : Fin 60) (h : s.inflight ≠ none ∨ s.ksv = false) :
    s.windowValue (.kswin j) = none :=
  if_neg (not_readable h)

theorem toNat_append_eq_add {n m : Nat} (x : BitVec n) (y : BitVec m) :
    (x ++ y).toNat = x.toNat * 2 ^ m + y.toNat := by
  rw [BitVec.toNat_append, ← Nat.shiftLeft_add_eq_or_of_lt y.isLt, Nat.shiftLeft_eq]

theorem scheduleWord_toNat (ks : Schedule) (j : Fin 60) :
    (scheduleWord ks j).toNat = ks[4 * j.val].toNat * 2 ^ 24 + ks[4 * j.val + 1].toNat * 2 ^ 16 +
      ks[4 * j.val + 2].toNat * 2 ^ 8 + ks[4 * j.val + 3].toNat := by
  simp only [scheduleWord, toNat_append_eq_add]
  omega

/-- Settles O21, from the value of each window register and from KSWIN being read-only. -/
theorem windowReadsReturnValidWords : Obligations.WindowReadsReturnValidWords := by
  refine ⟨fun s i j hb hv => ?_, fun s i j h => ?_, fun s j hb hk => ?_, fun s j h => ?_, fun s j w => ?_⟩
  · exact stepOn_read_value (by omega) (by omega) (locate_rwin i j) (windowValue_rwin_valid hb hv)
  · exact stepOn_read_any (by omega) (by omega) (locate_rwin i j) (windowValue_rwin_undefined h)
  · exact ⟨scheduleWord s.ks j,
      stepOn_read_value (by omega) (by omega) (locate_kswin j) (windowValue_kswin_valid j hb hk),
      scheduleWord_toNat s.ks j⟩
  · exact stepOn_read_any (by omega) (by omega) (locate_kswin j) (windowValue_kswin_undefined j h)
  · rw [stepOn_write s w (by omega) (by omega), locate_kswin j]
    rfl

/-- Settles O14, from where the offsets lead. -/
theorem reservedOffsetsReadZeroAndIgnoreWrites : Obligations.ReservedOffsetsReadZeroAndIgnoreWrites := by
  refine ⟨fun s off h hr => ?_, fun s w =>
    ⟨stepOn_write s w (by decide) (by decide), stepOn_write s w (by decide) (by decide)⟩⟩
  have hl : locate off = .reserved := locate_reserved (by omega)
  refine ⟨stepOn_read_value h (by omega) hl rfl, fun w => ?_⟩
  rw [stepOn_write s w h (by omega), hl]
  rfl

end Sys2Proof.Machine
end

section
/-! Writes to the words of a data register: with nothing in flight each sets its word and valid bit, with a command in
flight it is dropped, and what a command reads stays while it is in flight (20_memory R72, R76). -/

namespace Sys2Proof.Machine

/-! ### One word -/

theorem stepOn_write_rwin (s : State) (i : DReg) (j : Fin 8) (w : Word) :
    stepOn (.host (.write (0x100 + 32 * i + 4 * j) 4 w)) s = .next (s.writeWindowWord i j w) := by
  rw [stepOn_write s w (by omega) (by omega), locate_rwin i j]
  rfl

theorem writeWindowWord_idle {s : State} (i : DReg) (j : Fin 8) (w : Word) (hb : s.inflight = none) :
    s.writeWindowWord i j w =
      { s with r := s.r.set i (setWord s.r[i] j w), v := s.v.set i (s.v[i].set j true) } :=
  if_neg (by simp [hb])

theorem writeWindowWord_busy {s : State} {u : Word} (i : DReg) (j : Fin 8) (w : Word) (hb : s.inflight = some u) :
    s.writeWindowWord i j w = s.dropWrite :=
  if_pos (by simp [hb])

/-! ### All the words of a register -/

/-- Word j of R[i] is valid and holds w. -/
def HoldsWord (s : State) (i : DReg) (j : Fin 8) (w : Word) : Prop := s.v[i][j] = true ∧ wordOf s.r[i] j = w

theorem holdsWord_writeWindowWord_same {s : State} (i : DReg) (j : Fin 8) (w : Word) (hb : s.inflight = none) :
    HoldsWord (s.writeWindowWord i j w) i j w := by
  rw [writeWindowWord_idle i j w hb, HoldsWord, vector_set_same, vector_set_same, vector_set_same]
  exact ⟨rfl, wordOf_setWord_same _ j w⟩

theorem holdsWord_writeWindowWord_ne {s : State} {i : DReg} {j k : Fin 8} {u : Word} (w : Word)
    (hb : s.inflight = none) (hk : k ≠ j) (h : HoldsWord s i k u) : HoldsWord (s.writeWindowWord i j w) i k u := by
  rw [writeWindowWord_idle i j w hb, HoldsWord, vector_set_same, vector_set_same, vector_set_ne _ _ hk,
    wordOf_setWord_ne _ w hk]
  exact h

/-- The words written, in whatever order and however often, are those the register holds, and a word that it held
before stays when none of the writes is another value for it. -/
theorem writeWords_holds (i : DReg) (ws : Fin 8 → Word) (order : List (Fin 8)) {s : State} (hb : s.inflight = none) :
    ∃ t, writeWords i ws order s = .next t ∧
      ∀ k, k ∈ order ∨ HoldsWord s i k (ws k) → HoldsWord t i k (ws k) := by
  induction order generalizing s with
  | nil => exact ⟨s, rfl, fun k hk => hk.resolve_left List.not_mem_nil⟩
  | cons j js ih =>
    have hb' : (s.writeWindowWord i j (ws j)).inflight = none := by
      rw [writeWindowWord_idle i j (ws j) hb]
      exact hb
    obtain ⟨t, ht, hold⟩ := ih hb'
    refine ⟨t, by rw [writeWords, stepOn_write_rwin]; exact ht, fun k hk => hold k ?_⟩
    by_cases hkj : k = j
    · subst hkj
      exact .inr (holdsWord_writeWindowWord_same i k (ws k) hb)
    · obtain hk | hk := hk
      · exact .inl ((List.mem_cons.1 hk).resolve_left hkj)
      · exact .inr (holdsWord_writeWindowWord_ne (ws j) hb hkj hk)

/-- Settles O20: the order is taken by induction, and the value is the sum of its words. -/
theorem windowWritesSetWords : Obligations.WindowWritesSetWords := by
  refine ⟨fun s i j w hb => ⟨setWord s.r[i] j w, ?_, wordOf_setWord_same _ j w, fun k => wordOf_setWord_ne _ w⟩,
    fun s i ws order hb hall => ?_⟩
  · rw [stepOn_write_rwin, writeWindowWord_idle i j w hb]
  · obtain ⟨t, ht, hold⟩ := writeWords_holds i ws order hb
    have hwords : ∀ j, HoldsWord t i j (ws j) := fun j => hold j (.inl (hall j))
    refine ⟨t, ht, fun j => (hwords j).1, ?_⟩
    rw [sum_words t.r[i]]
    exact Finset.sum_congr rfl fun j _ => by rw [(hwords j).2]

/-! ### While a command is in flight -/

/-- The command in flight in s is in flight in t, and what a command can read is the same in both. -/
structure SameCommandAndOperands (s t : State) : Prop where
  inflight : t.inflight = s.inflight
  r : t.r = s.r
  v : t.v = s.v
  p : t.p = s.p
  pv : t.pv = s.pv
  ks : t.ks = s.ks
  ksv : t.ksv = s.ksv
  eqFlag : t.eqFlag = s.eqFlag

theorem Completes.inflight {s t : State} (h : Completes s (.next t)) : t.inflight = none := by
  cases h <;> rfl

theorem engineTurn_inflight {s t : State} (h : engineTurn s = .next t) : t.inflight = none := by
  obtain ⟨hb, he⟩ | ⟨w, -, hc⟩ := engineTurn_cases s
  · cases he.symm.trans h
    exact hb
  · exact (h ▸ hc).inflight

theorem hostRead_keeps (s : State) (reg : WindowReg) : SameCommandAndOperands s (s.hostRead reg) := by
  obtain ⟨w, n, hread⟩ := hostRead_eq s reg
  rw [hread]
  exact ⟨rfl, rfl, rfl, rfl, rfl, rfl, rfl, rfl⟩

/-- With a command in flight a write resets the unit, or it leaves the command and what it reads: the acceptance of a
command and the write of a word need an idle unit. -/
theorem HostWrote.reset_or_keeps {s t : State} {off : Nat} {w : Word} (h : HostWrote s off w t)
    (hs : s.inflight ≠ none) : t.inflight = none ∨ SameCommandAndOperands s t := by
  cases h with
  | accepted _ hb _ | word _ _ _ hb => exact absurd hb hs
  | reset => exact .inl rfl
  | _ => exact .inr ⟨rfl, rfl, rfl, rfl, rfl, rfl, rfl, rfl⟩

theorem access_reset_or_keeps {s t : State} {a : HostAccess} (h : performAccess s a = .next t)
    (hs : s.inflight ≠ none) : t.inflight = none ∨ SameCommandAndOperands s t := by
  obtain ⟨off, rfl, -, -, rfl⟩ | ⟨off, w, rfl, -, -, rfl⟩ := performAccess_cases h
  · exact .inr (hostRead_keeps s _)
  · exact (hostWrite_cases s off w).reset_or_keeps hs

/-- A step completes the command in flight, abandons it, or leaves it and what it reads. -/
theorem step_ends_or_keeps {s t : State} (h : step s = .next t) (hs : s.inflight ≠ none) :
    t.inflight = none ∨ SameCommandAndOperands s t := by
  obtain ⟨-, he⟩ | ⟨rest, -, he⟩ | ⟨a, rest, -, he⟩ | ⟨rest, -, he⟩ := step_cases s <;> rw [he] at h
  · exact .inl (engineTurn_inflight h)
  · exact .inl (engineTurn_inflight h)
  · exact (access_reset_or_keeps h hs).imp_right fun k => { k with }
  · cases h
    exact .inl rfl

/-- Settles O24: the write is dropped, and a step that ends no command leaves what it reads. -/
theorem operandsCannotChangeInFlight : Obligations.OperandsCannotChangeInFlight := by
  refine ⟨fun s u w i j hb => ?_, fun s t w w' hs h ht => ?_⟩
  · rw [stepOn_write_rwin, writeWindowWord_busy i j w hb]
    rfl
  · obtain hnone | k := step_ends_or_keeps h (by simp [hs])
    · cases ht.symm.trans hnone
    · have hw : some w' = some w := by rw [← ht, k.inflight, hs]
      exact ⟨Option.some.inj hw, k.r, k.v, k.p, k.pv, k.ks, k.ksv, k.eqFlag⟩

end Sys2Proof.Machine
end

section
/-! The opcode map by the kinds of its fields (30_encoding R101, R102, R104): the bits of a field that must be 0 are
those the mask of its row fixes, and a word with those bits 0 is put together again from the operands read from it. -/

open Sys2Proof Sys2Proof.Machine

namespace FieldKind

/-- The bits of a field of this kind that must be 0 (30_encoding R102). -/
def mask : FieldKind → BitVec 4
  | dataReg | imm => 0
  | pointReg => 8
  | unused => 15

/-- The operand that a field of this kind gives a command; an unused field gives none and is encoded as 0. -/
def operand : FieldKind → BitVec 4 → Nat
  | dataReg, f => asDReg f
  | pointReg, f => asPReg f
  | imm, f => asImm4 f
  | unused, _ => 0

theorem and_mask_eq_zero_iff (kind : FieldKind) (f : BitVec 4) : f &&& kind.mask = 0 ↔ kind.allows f := by
  cases kind with
  | dataReg | imm => exact iff_of_true BitVec.and_zero trivial
  | pointReg =>
    change f &&& 8 = 0 ↔ f.getLsbD 3 = false
    revert f; decide
  | unused =>
    change f &&& 15 = 0 ↔ f = 0
    revert f; decide

/-- Encoding the operand of a legal field gives the field back. -/
theorem ofNat_operand {kind : FieldKind} {f : BitVec 4} (h : kind.allows f) :
    BitVec.ofNat 4 (kind.operand f) = f := by
  cases kind with
  | dataReg | imm => exact BitVec.eq_of_toNat_eq (Nat.mod_eq_of_lt f.isLt)
  | pointReg =>
    change f.getLsbD 3 = false at h
    revert f; decide
  | unused => exact h.symm

end FieldKind

namespace Sys2Proof

/-! ### A word and its six fields -/

/-- The word with the given fields, Z included. -/
def wordOfFields (op : BitVec 8) (d a b k : BitVec 4) (z : BitVec 8) : Word := op ++ d ++ a ++ b ++ k ++ z

theorem wordOfFields_self (w : Word) :
    wordOfFields (fieldOp w) (fieldD w) (fieldA w) (fieldB w) (fieldK w) (w.extractLsb' 0 8) = w :=
  (word_eq_fields w).symm

theorem commandWord_eq_wordOfFields (op d a b k : Nat) :
    commandWord op d a b k = wordOfFields (BitVec.ofNat 8 op) (BitVec.ofNat 4 d) (BitVec.ofNat 4 a)
      (BitVec.ofNat 4 b) (BitVec.ofNat 4 k) 0 := rfl

theorem append_eq_append_iff {m n : Nat} {x x' : BitVec m} {y y' : BitVec n} :
    x ++ y = x' ++ y' ↔ x = x' ∧ y = y' := by
  refine ⟨fun h => ⟨?_, ?_⟩, by rintro ⟨rfl, rfl⟩; rfl⟩
  · simpa [BitVec.extractLsb'_append_eq_left] using congrArg (BitVec.extractLsb' n m) h
  · simpa [BitVec.extractLsb'_append_eq_right] using congrArg (BitVec.extractLsb' 0 n) h

section
variable (op op' : BitVec 8) (d d' a a' b b' k k' : BitVec 4) (z z' : BitVec 8)

theorem wordOfFields_and : wordOfFields op d a b k z &&& wordOfFields op' d' a' b' k' z' =
    wordOfFields (op &&& op') (d &&& d') (a &&& a') (b &&& b') (k &&& k') (z &&& z') := by
  refine Eq.trans (show ((_ : BitVec (8 + 4 + 4 + 4 + 4 + 8)) &&& _) = _ from BitVec.and_append) ?_
  simp only [BitVec.and_append, wordOfFields]

theorem wordOfFields_inj : wordOfFields op d a b k z = wordOfFields op' d' a' b' k' z' ↔
    op = op' ∧ d = d' ∧ a = a' ∧ b = b' ∧ k = k' ∧ z = z' := by
  refine Iff.trans (show ((_ : BitVec (8 + 4 + 4 + 4 + 4 + 8)) = _) ↔ _ from append_eq_append_iff) ?_
  simp only [append_eq_append_iff, and_assoc]

end

/-! ### The bits a row fixes -/

/-- The kinds of the fields D, A, B and K. -/
abbrev FieldKinds := FieldKind × FieldKind × FieldKind × FieldKind

/-- The bits that a row of the opcode map fixes: OP, Z, and those of each field that must be 0. -/
def rowMask : FieldKinds → Word
  | (d, a, b, k) => wordOfFields 0xFF d.mask a.mask b.mask k.mask 0xFF

/-- Z and every bit of a field that must be 0 are 0 (30_encoding R107, items 2 to 4). -/
def FieldsAllowed : FieldKinds → Word → Prop
  | (d, a, b, k), w =>
    d.allows (fieldD w) ∧ a.allows (fieldA w) ∧ b.allows (fieldB w) ∧ k.allows (fieldK w) ∧ w.extractLsb' 0 8 = 0

/-- The word with the given OP and the operands that the fields of w give. -/
def operandWord (op : BitVec 8) : FieldKinds → Word → Word
  | (d, a, b, k), w =>
    commandWord op.toNat (d.operand (fieldD w)) (a.operand (fieldA w)) (b.operand (fieldB w)) (k.operand (fieldK w))

theorem and_rowMask_eq_iff (kinds : FieldKinds) (w : Word) :
    w &&& rowMask kinds = wordOfFields (fieldOp w) 0 0 0 0 0 ↔ FieldsAllowed kinds w := by
  obtain ⟨d, a, b, k⟩ := kinds
  have hand : w &&& rowMask (d, a, b, k) =
      wordOfFields (fieldOp w &&& 0xFF) (fieldD w &&& d.mask) (fieldA w &&& a.mask) (fieldB w &&& b.mask)
        (fieldK w &&& k.mask) (w.extractLsb' 0 8 &&& 0xFF) := by
    rw [← wordOfFields_and, wordOfFields_self, rowMask]
  have hones (x : BitVec 8) : x &&& 0xFF = x := BitVec.and_allOnes
  simp only [hand, wordOfFields_inj, hones, FieldKind.and_mask_eq_zero_iff, FieldsAllowed, true_and]

theorem operandWord_self {kinds : FieldKinds} {w : Word} (h : FieldsAllowed kinds w) :
    operandWord (fieldOp w) kinds w = w := by
  obtain ⟨d, a, b, k⟩ := kinds
  obtain ⟨hd, ha, hb, hk, hz⟩ := h
  rw [operandWord, commandWord_eq_wordOfFields, FieldKind.ofNat_operand hd, FieldKind.ofNat_operand ha,
    FieldKind.ofNat_operand hb, FieldKind.ofNat_operand hk, BitVec.ofNat_toNat, BitVec.setWidth_eq, ← hz,
    wordOfFields_self]

/-! ### The rows of the opcode map -/

/-- Every OP: whether the map has a row for it, and which bits the row fixes, follow from the kinds of its fields. -/
theorem rowOf_layout (op : BitVec 8) :
    (rowOf op).map (fun row => (row.pattern, row.mask)) =
      (fieldKinds op.toNat).map fun kinds => (wordOfFields op 0 0 0 0 0, rowMask kinds) := by
  revert op; decide +kernel

/-- A row's command has as its word the row's OP and the operands read from the fields. -/
def OpRow.BuildsFromFields (row : OpRow) : Prop :=
  ∃ kinds, fieldKinds (fieldOp row.pattern).toNat = some kinds ∧
    ∀ w, encode (row.build w) = operandWord (fieldOp row.pattern) kinds w

theorem opRows_buildFromFields : ∀ row ∈ opRows, row.BuildsFromFields := by
  simp only [opRows, systemRows, fieldRows, pointRows, scalarRows, aesRows, moveRows, List.cons_append,
    List.nil_append, List.forall_mem_cons, List.not_mem_nil, false_imp_iff, forall_true_iff, and_true]
  and_intros
  all_goals exact ⟨_, rfl, fun _ => rfl⟩

theorem rowOf_spec {op : BitVec 8} {row : OpRow} (h : rowOf op = some row) :
    row ∈ opRows ∧ fieldOp row.pattern = op := by
  unfold rowOf at h
  exact ⟨List.mem_of_find?_eq_some h, by simpa using List.find?_some h⟩

/-- The row of a word's OP, by the kinds of its fields: which words have the bits it fixes, and the word of the command
it builds. -/
theorem kinds_of_rowOf {w : Word} {row : OpRow} (h : rowOf (fieldOp w) = some row) :
    ∃ kinds, fieldKinds (fieldOp w).toNat = some kinds ∧
      (w &&& row.mask = row.pattern ↔ FieldsAllowed kinds w) ∧
      encode (row.build w) = operandWord (fieldOp w) kinds w := by
  obtain ⟨hmem, hop⟩ := rowOf_spec h
  obtain ⟨kinds, hkinds, henc⟩ := opRows_buildFromFields row hmem
  rw [hop] at hkinds henc
  have hlayout := rowOf_layout (fieldOp w)
  simp only [h, hkinds, Option.map_some, Option.some.injEq, Prod.mk.injEq] at hlayout
  obtain ⟨hpattern, hmask⟩ := hlayout
  exact ⟨kinds, hkinds, by rw [hmask, hpattern, and_rowMask_eq_iff], henc w⟩

theorem exists_rowOf {op : BitVec 8} {kinds : FieldKinds} (h : fieldKinds op.toNat = some kinds) :
    ∃ row, rowOf op = some row := by
  have hsome := congrArg Option.isSome (rowOf_layout op)
  rw [Option.isSome_map, Option.isSome_map, h] at hsome
  exact Option.isSome_iff_exists.1 hsome

/-! ### What decodes -/

/-- A word decodes if its OP has a row, the bits that the row fixes are as it says, and K is no 15 in AARK
(30_encoding R106). -/
theorem decode_ok_iff {w : Word} {i : Instr} : decode w = .ok i ↔
    ∃ row, rowOf (fieldOp w) = some row ∧ w &&& row.mask = row.pattern ∧ ¬(fieldOp w = 0x49 ∧ fieldK w = 15) ∧
      row.build w = i := by
  rw [decode_eq]
  cases rowOf (fieldOp w) with
  | none => exact ⟨nofun, nofun⟩
  | some row =>
    simp only [Option.some.injEq, exists_eq_left']
    split_ifs with hm hk
    · exact ⟨nofun, fun ⟨h, _⟩ => absurd h hm⟩
    · exact ⟨nofun, fun ⟨_, h, _⟩ => absurd hk h⟩
    · exact ⟨fun h => ⟨not_not.1 hm, hk, Except.ok.inj h⟩, fun ⟨_, _, h⟩ => congrArg _ h⟩

/-- The decoder's check of K is the one check of `wellFormed` (30_encoding R103, R107 item 5). -/
theorem wellFormed_iff (i : Instr) :
    i.wellFormed = true ↔ ¬(fieldOp (encode i) = 0x49 ∧ fieldK (encode i) = 15) := by
  cases i with
  | aark d a k =>
    rw [encode, fieldOp_commandWord, fieldK_commandWord, Instr.wellFormed]
    revert k; decide
  | _ =>
    rw [encode, fieldOp_commandWord]
    exact iff_of_true rfl fun ⟨h, _⟩ => absurd h (by decide)

/-! ### The word of a command decodes to it -/

theorem asDReg_ofNat (r : DReg) : asDReg (BitVec.ofNat 4 r) = r := by revert r; decide
theorem asPReg_ofNat (r : PReg) : asPReg (BitVec.ofNat 4 r) = r := by revert r; decide
theorem asImm4_ofNat (r : Imm4) : asImm4 (BitVec.ofNat 4 r) = r := by revert r; decide

open Laws.EncodingRow in
theorem encodingRow : ∀ i : Instr, Statement i
  | .nop => nop | .fadd .. => fadd .. | .fsub .. => fsub .. | .fmul .. => fmul .. | .fpow .. => fpow ..
  | .finv .. => finv .. | .fdiv .. => fdiv .. | .fsqrt .. => fsqrt .. | .pset .. => pset .. | .pinf .. => pinf ..
  | .pgen .. => pgen .. | .pmov .. => pmov .. | .px .. => px .. | .py .. => py .. | .pneg .. => pneg ..
  | .padd .. => padd .. | .peq .. => peq .. | .pisinf .. => pisinf .. | .pdec .. => pdec .. | .pmul .. => pmul ..
  | .kexp .. => kexp .. | .aese .. => aese .. | .aesd .. => aesd .. | .asub .. => asub .. | .aisub .. => aisub ..
  | .ashr .. => ashr .. | .aishr .. => aishr .. | .amix .. => amix .. | .aimix .. => aimix .. | .aark .. => aark ..
  | .mov .. => mov .. | .xor .. => xor ..

/-- The row that a command's OP leads to reads the command's operands back from its word. -/
theorem build_encode (i : Instr) : (rowOf (fieldOp (encode i))).map (·.build (encode i)) = some i := by
  cases i
  all_goals
    rw [encode, fieldOp_commandWord]
    refine congrArg some (?_ : OpRow.build _ _ = _)
    simp only [OpRow.ddd, OpRow.dd, fieldD_commandWord, fieldA_commandWord, fieldB_commandWord, fieldK_commandWord,
      asDReg_ofNat, asPReg_ofNat, asImm4_ofNat]

theorem decode_encode {i : Instr} (h : i.wellFormed = true) : decode (encode i) = .ok i := by
  obtain ⟨row, hrow, hmask⟩ := encodingRow i
  have hbuild := build_encode i
  rw [hrow] at hbuild
  exact decode_ok_iff.2 ⟨row, hrow, hmask, (wellFormed_iff i).1 h, Option.some.inj hbuild⟩

theorem encode_of_decode {w : Word} {i : Instr} (h : decode w = .ok i) : encode i = w := by
  obtain ⟨row, hrow, hmask, -, rfl⟩ := decode_ok_iff.1 h
  obtain ⟨kinds, -, hfields, henc⟩ := kinds_of_rowOf hrow
  rw [henc, operandWord_self (hfields.1 hmask)]

theorem wellFormed_of_decode {w : Word} {i : Instr} (h : decode w = .ok i) : i.wellFormed = true := by
  obtain ⟨_, -, -, hk, -⟩ := decode_ok_iff.1 h
  rw [wellFormed_iff, encode_of_decode h]
  exact hk

/-- Settles O2: the row of a command's OP reads its operands back, and a word whose fixed bits are those of its row is
the one put together from them. -/
theorem decodeAndEncodeAgree : Obligations.DecodeAndEncodeAgree :=
  ⟨fun _ => decode_encode, fun _ _ h => ⟨wellFormed_of_decode h, encode_of_decode h⟩⟩

/-! ### Illegal words -/

theorem fieldOp_toNat (w : Word) : (fieldOp w).toNat = w.toNat / 2 ^ 24 := by
  rw [fieldOp, BitVec.extractLsb'_toNat, Nat.shiftRight_eq_div_pow]
  omega

theorem fieldOp_eq_iff (w : Word) (op : BitVec 8) : fieldOp w = op ↔ w.toNat / 2 ^ 24 = op.toNat := by
  rw [← fieldOp_toNat, BitVec.toNat_inj]

theorem fieldZ_eq_zero_iff (w : Word) : w.extractLsb' 0 8 = 0 ↔ w.toNat % 2 ^ 8 = 0 := by
  rw [← BitVec.toNat_inj, BitVec.extractLsb'_toNat, Nat.shiftRight_zero]
  rfl

theorem isLegalWord_iff (w : Word) : IsLegalWord w ↔
    ∃ kinds, fieldKinds (fieldOp w).toNat = some kinds ∧ FieldsAllowed kinds w ∧
      ¬(fieldOp w = 0x49 ∧ fieldK w = 15) := by
  have hcheck : (fieldOp w = 0x49 ∧ fieldK w = 15) ↔ w.toNat / 2 ^ 24 = 0x49 ∧ fieldK w = 15 := by
    rw [fieldOp_eq_iff]; rfl
  rw [hcheck, fieldOp_toNat]
  constructor
  · rintro ⟨d, a, b, k, hkinds, hz, hd, ha, hb, hk, hround⟩
    exact ⟨(d, a, b, k), hkinds, ⟨hd, ha, hb, hk, (fieldZ_eq_zero_iff w).2 hz⟩, hround⟩
  · rintro ⟨⟨d, a, b, k⟩, hkinds, ⟨hd, ha, hb, hk, hz⟩, hround⟩
    exact ⟨d, a, b, k, hkinds, (fieldZ_eq_zero_iff w).1 hz, hd, ha, hb, hk, hround⟩

theorem isLegalWord_iff_decodes (w : Word) : IsLegalWord w ↔ ∃ i, decode w = .ok i := by
  rw [isLegalWord_iff]
  constructor
  · rintro ⟨kinds, hkinds, hfields, hk⟩
    obtain ⟨row, hrow⟩ := exists_rowOf hkinds
    obtain ⟨kinds', hkinds', hmask, -⟩ := kinds_of_rowOf hrow
    cases hkinds.symm.trans hkinds'
    exact ⟨_, decode_ok_iff.2 ⟨row, hrow, hmask.2 hfields, hk, rfl⟩⟩
  · rintro ⟨i, h⟩
    obtain ⟨row, hrow, hmask, hk, -⟩ := decode_ok_iff.1 h
    obtain ⟨kinds, hkinds, hfields, -⟩ := kinds_of_rowOf hrow
    exact ⟨kinds, hkinds, hfields.1 hmask, hk⟩

theorem exists_decode_error {w : Word} (h : ¬IsLegalWord w) : ∃ e, decode w = .error e := by
  rw [isLegalWord_iff_decodes] at h
  cases hd : decode w with
  | ok i => exact absurd ⟨i, hd⟩ h
  | error e => exact ⟨e, rfl⟩

theorem engineTurn_of_decode_error {s : State} {w : Word} {e : DecodeError} (hs : s.inflight = some w)
    (h : decode w = .error e) : engineTurn s = .next (s.endedError .illegal) := by
  simp only [engineTurn, hs, h]
  rfl

/-- Settles O4: by the layout of the rows the legal words are those that decode. -/
theorem illegalWordsCompleteWithIllegal : Obligations.IllegalWordsCompleteWithIllegal := by
  refine ⟨rfl, fun w => (isLegalWord_iff_decodes w).1, fun w h => ?_⟩
  obtain ⟨e, he⟩ := exists_decode_error h
  exact ⟨⟨e, he⟩, fun s hs => engineTurn_of_decode_error hs he⟩

/-! ### The layout of a word and samples -/

theorem toNat_append_eq_add {m n : Nat} (x : BitVec m) (y : BitVec n) :
    (x ++ y).toNat = x.toNat * 2 ^ n + y.toNat := by
  rw [BitVec.toNat_append, ← Nat.shiftLeft_add_eq_or_of_lt y.isLt, Nat.shiftLeft_eq]

/-- Settles O1: each field in turn is appended to those above it. -/
theorem commandWordHasTheFieldLayout : Obligations.CommandWordHasTheFieldLayout := by
  intro op d a b k hop hd ha hb hk
  simp only [commandWord, toNat_append_eq_add, BitVec.ofNat_eq_ofNat, BitVec.toNat_ofNat]
  omega

/-- Settles O3: each of the nine words is the word of its command. -/
theorem sampleWordsDecode : Obligations.SampleWordsDecode :=
  ⟨decode_encode (i := .nop) rfl, decode_encode (i := .fadd 3 1 2) rfl, decode_encode (i := .finv 2 1) rfl,
    decode_encode (i := .pset 0 1 2) rfl, decode_encode (i := .padd 1 0 0) rfl, decode_encode (i := .peq 1 2) rfl,
    decode_encode (i := .pmul 1 8 0) rfl, decode_encode (i := .aark 2 1 14) rfl, decode_encode (i := .xor 3 1 2) rfl⟩

end Sys2Proof
end

section
/-! The field commands (41_field): reading field-element sources, the completions that write a field element, the
values written as residues modulo p, and the laws that the values obey. -/

namespace Sys2Proof.Machine

/-! ### Reading the sources -/

theorem bind_ok_left {α β : Type} {v : α} {x : Except ErrCode α} {f : α → Except ErrCode β} (hx : x = .ok v) :
    (x >>= f) = f v := by
  rw [hx]; rfl

section
variable {s : State} {a b : DReg}

theorem needData2_ready (ha : Ready s a) (hb : Ready s b) : needData2 s a b = .ok (s.r[a], s.r[b]) :=
  (bind_ok_left (needData_ready ha)).trans (bind_ok_left (needData_ready hb))

theorem needElem_ready (ha : Ready s a) : needElem s a = needCanon s.r[a] := bind_ok_left (needData_ready ha)

theorem needElem_canonical (ha : Ready s a) (hca : Canonical s a) : needElem s a = .ok ⟨s.r[a].toNat, hca⟩ :=
  (needElem_ready ha).trans (needCanon_lt hca)

theorem needElem_not_canonical (ha : Ready s a) (hca : ¬Canonical s a) : needElem s a = .error .range :=
  (needElem_ready ha).trans (needCanon_not hca)

theorem needElem2_canonical (ha : Ready s a) (hb : Ready s b) (hca : Canonical s a) (hcb : Canonical s b) :
    needElem2 s a b = .ok (⟨s.r[a].toNat, hca⟩, ⟨s.r[b].toNat, hcb⟩) :=
  (bind_ok_left (needData2_ready ha hb)).trans <|
    (bind_ok_left (needCanon_lt hca)).trans (bind_ok_left (needCanon_lt hcb))

theorem needElem2_not_canonical (ha : Ready s a) (hb : Ready s b) (h : ¬(Canonical s a ∧ Canonical s b)) :
    needElem2 s a b = .error .range := by
  refine (bind_ok_left (needData2_ready ha hb)).trans ?_
  by_cases hca : Canonical s a
  · have hcb : ¬Canonical s b := fun hcb => h ⟨hca, hcb⟩
    exact (bind_ok_left (needCanon_lt hca)).trans (bind_error_left (needCanon_not hcb))
  · exact bind_error_left (needCanon_not hca)

theorem canonical_of_eq_zero (h : s.r[a].toNat = 0) : Canonical s a := h.trans_lt fieldPrime_pos

end

/-- 60_exceptions R331, with R[d] the only result. -/
theorem retire_writeData {s : State} {d : DReg} {v : Data} {x : Except ErrCode State}
    (hx : x = .ok (s.writeData d v)) : retire s x = .next (s.endedData d v) := by
  rw [hx]; rfl

/-! ### Sums, differences and products -/

/-- R140: p by its formula. -/
theorem fieldPrime_eq : (fieldPrime : Int) = 2 ^ 256 - 2 ^ 32 - 977 := by decide

/-- A command that writes the residue of f of its two field elements. -/
theorem fieldCommand_of_residue {op : Nat} {i : DReg → DReg → DReg → Instr} {f : Int → Int → Int}
    (hdecode : ∀ d a b : DReg, decode (commandWord op d a b 0) = .ok (i d a b))
    (hexec : ∀ d a b s, exec (i d a b) s = retire s (needElem2 s a b >>= fun x =>
      .ok (s.writeData d (residue (f x.1.val x.2.val)).toData))) :
    FieldCommand op i f := by
  intro d a b s
  rw [hexec]
  refine ⟨hdecode d a b, fun ha hb hca hcb => ?_, fun h => retire_error (bind_error_left (needElem2_not h)),
    fun ha hb h => retire_error (bind_error_left (needElem2_not_canonical ha hb h))⟩
  refine ⟨_, retire_writeData (bind_ok_left (needElem2_canonical ha hb hca hcb)), ?_⟩
  rw [toData_toNat, residue_val, fieldPrime_eq]

/-- Settles O30: each of the three writes the residue of its operation on integers. -/
theorem faddFsubFmulComputeModP : Obligations.FaddFsubFmulComputeModP :=
  ⟨fieldCommand_of_residue (fun d a b => decode_encode (i := .fadd d a b) rfl) fun _ _ _ _ => rfl,
    fieldCommand_of_residue (fun d a b => decode_encode (i := .fsub d a b) rfl) fun _ _ _ _ => rfl,
    fieldCommand_of_residue (fun d a b => decode_encode (i := .fmul d a b) rfl) fun _ _ _ _ => rfl⟩

/-! ### Powers, inverses, quotients -/

/-- R151: the parameter ZERO_POW_ZERO has the value of the power it stands for. -/
theorem fePowParam_val (x : FieldElem) {e : Nat} (he : e < 2 ^ 256) :
    (fePowParam x e).val = x.val ^ e % fieldPrime := by
  unfold fePowParam
  split
  · next h =>
    obtain ⟨hx, rfl⟩ := h
    rw [pow_zero]
    exact residue_natCast_val 1
  · exact fePow_val x e he

theorem feInv_val (x : FieldElem) : (feInv x).val = x.val ^ (fieldPrime - 2) % fieldPrime :=
  fePow_val x _ (by decide)

theorem feSqrt_val (x : FieldElem) : (feSqrt x).val = x.val ^ ((fieldPrime + 1) / 4) % fieldPrime :=
  fePow_val x _ (by decide)

theorem feMul_val (x y : FieldElem) : (feMul x y).val = x.val * y.val % fieldPrime := by
  rw [← residue_natCast_val, Nat.cast_mul]; rfl

theorem feDiv_val (x y : FieldElem) :
    (feDiv x y).val = x.val * y.val ^ (fieldPrime - 2) % fieldPrime := by
  rw [feDiv, feMul_val, feInv_val, Nat.mul_mod_mod]

theorem feDiv_mul_mod (x y : FieldElem) (hy : y.val ≠ 0) :
    (feDiv x y).val * y.val % fieldPrime = x.val := by
  calc (feDiv x y).val * y.val % fieldPrime
      = x.val * (feInv y).val * y.val % fieldPrime := by rw [feDiv, feMul_val, Nat.mod_mul_mod]
    _ = x.val * (y.val * (feInv y).val % fieldPrime) % fieldPrime := by
      rw [Nat.mul_mod_mod, mul_assoc, mul_comm (feInv y).val]
    _ = x.val := by rw [mul_feInv_mod y hy, mul_one, Nat.mod_eq_of_lt x.isLt]

/-- Settles O31: the exponent is read without a check, and the base alone is checked against p. -/
theorem fpowComputesThePower : Obligations.FpowComputesThePower := by
  intro d a b s
  refine ⟨decode_encode (i := .fpow d a b) rfl, fun ha hb hca => ?_,
    fun h => retire_error (bind_error_left (needData2_not h)), fun ha hb hca => ?_⟩
  · refine ⟨_, retire_writeData <| (bind_ok_left (needData2_ready ha hb)).trans <|
      bind_ok_left (needCanon_lt hca), ?_⟩
    rw [toData_toNat, fePowParam_val _ s.r[b].isLt]
  · exact retire_error ((bind_ok_left (needData2_ready ha hb)).trans (bind_error_left (needCanon_not hca)))

/-- Settles O32: Fermat's little theorem makes the power the inverse. -/
theorem finvComputesTheInverse : Obligations.FinvComputesTheInverse := by
  intro d a s
  refine ⟨decode_encode (i := .finv d a) rfl, fun ha hca h0 => ?_,
    fun h => retire_error (bind_error_left (needElem_not h)),
    fun ha hca => retire_error (bind_error_left (needElem_not_canonical ha hca)), fun ha h0 => ?_⟩
  · refine ⟨(feInv ⟨s.r[a].toNat, hca⟩).toData,
      retire_writeData ((bind_ok_left (needElem_canonical ha hca)).trans (if_neg h0)), ?_⟩
    rw [toData_toNat]
    exact ⟨feInv_val _, mul_feInv_mod ⟨s.r[a].toNat, hca⟩ h0⟩
  · have hx := needElem_canonical ha (canonical_of_eq_zero h0)
    exact retire_error ((bind_ok_left hx).trans (if_pos h0))

/-- Settles O33: the quotient is the product with the inverse of the divisor. -/
theorem fdivComputesTheQuotient : Obligations.FdivComputesTheQuotient := by
  intro d a b s
  refine ⟨decode_encode (i := .fdiv d a b) rfl, fun ha hb hca hcb h0 => ?_,
    fun h => retire_error (bind_error_left (needElem2_not h)),
    fun ha hb h => retire_error (bind_error_left (needElem2_not_canonical ha hb h)), fun ha hb hca h0 => ?_⟩
  · refine ⟨(feDiv ⟨s.r[a].toNat, hca⟩ ⟨s.r[b].toNat, hcb⟩).toData,
      retire_writeData ((bind_ok_left (needElem2_canonical ha hb hca hcb)).trans (if_neg h0)), ?_⟩
    rw [toData_toNat]
    exact ⟨feDiv_val _ _, feDiv_mul_mod _ _ h0⟩
  · have hx := needElem2_canonical ha hb hca (canonical_of_eq_zero h0)
    exact retire_error ((bind_ok_left hx).trans (if_pos h0))

/-! ### The principal root -/

theorem exec_fsqrt {s : State} {a : DReg} {x : FieldElem} (d : DReg) (hx : needElem s a = .ok x) :
    exec (.fsqrt d a) s = .next (s.endedData d (feSqrt x).toData) :=
  retire_writeData (bind_ok_left hx)

/-- Settles O34: no check stands between the operand and the formula's value. -/
theorem fsqrtWritesTheFormula : Obligations.FsqrtWritesTheFormula := by
  intro d a s
  refine ⟨decode_encode (i := .fsqrt d a) rfl, fun ha hca => ⟨_, exec_fsqrt d (needElem_canonical ha hca), ?_⟩,
    fun h => retire_error (bind_error_left (needElem_not h)),
    fun ha hca => retire_error (bind_error_left (needElem_not_canonical ha hca))⟩
  rw [toData_toNat, feSqrt_val]

theorem mod_eq_val_iff (n : Nat) (x : FieldElem) : n % fieldPrime = x.val ↔ (n : Zp) = x.toZ := by
  rw [FieldElem.toZ, ZMod.natCast_eq_natCast_iff', Nat.mod_eq_of_lt x.isLt]

theorem mul_self_mod_eq_val_iff (n : Nat) (x : FieldElem) :
    n * n % fieldPrime = x.val ↔ (n : Zp) * n = x.toZ := by
  rw [mod_eq_val_iff, Nat.cast_mul]

theorem exists_mul_self_mod_iff (x : FieldElem) : (∃ z : Nat, z * z % fieldPrime = x.val) ↔ IsSquare x.toZ := by
  have := fieldPrime_fact
  simp only [mul_self_mod_eq_val_iff]
  constructor
  · rintro ⟨z, hz⟩
    exact ⟨z, hz.symm⟩
  · rintro ⟨c, hc⟩
    exact ⟨c.val, by rw [ZMod.natCast_zmod_val, hc]⟩

/-- The root of a square squares back to it: for a = c·c the square of the root is c^(p+1) = c^p·c. -/
theorem toZ_feSqrt_mul_self {x : FieldElem} (hx : IsSquare x.toZ) :
    (feSqrt x).toZ * (feSqrt x).toZ = x.toZ := by
  have := fieldPrime_fact
  obtain ⟨c, hc⟩ := hx
  calc (feSqrt x).toZ * (feSqrt x).toZ
      = (c * c) ^ ((fieldPrime + 1) / 4) * (c * c) ^ ((fieldPrime + 1) / 4) := by
        rw [feSqrt, toZ_fePow _ _ (by decide), hc]
    _ = c ^ (4 * ((fieldPrime + 1) / 4)) := by ring
    _ = c ^ (fieldPrime + 1) := by rw [Nat.mul_div_cancel' (by decide)]
    _ = x.toZ := by rw [pow_succ, ZMod.pow_card, hc]

theorem feSqrt_mul_self_iff (x : FieldElem) :
    (feSqrt x).val * (feSqrt x).val % fieldPrime = x.val ↔ IsSquare x.toZ := by
  rw [mul_self_mod_eq_val_iff]
  exact ⟨fun h => ⟨_, h.symm⟩, toZ_feSqrt_mul_self⟩

theorem feSqrt_mul_self_of_not_isSquare {x : FieldElem} (hx : ¬IsSquare x.toZ) :
    (feSqrt x).val * (feSqrt x).val % fieldPrime = fieldPrime - x.val := by
  have h0 : x.val ≠ 0 := fun h => hx (toZ_eq_zero.2 h ▸ IsSquare.zero)
  have hneg : (feSqrt x).toZ * (feSqrt x).toZ = -x.toZ := by
    rw [← pow_two]
    exact (toZ_feSqrt_sq x).resolve_left fun h => hx ⟨_, by rw [← h, pow_two]⟩
  refine (mul_self_mod_eq_val_iff _ ⟨fieldPrime - x.val, Nat.sub_lt fieldPrime_pos (Nat.pos_of_ne_zero h0)⟩).2 ?_
  refine hneg.trans ?_
  rw [FieldElem.toZ, FieldElem.toZ, Nat.cast_sub x.isLt.le, ZMod.natCast_self, zero_sub]

/-- R157 property (2): the exponent (p + 1)/4 is even. -/
theorem isSquare_feSqrt (x : FieldElem) : IsSquare (feSqrt x).toZ := by
  rw [feSqrt, toZ_fePow _ _ (by decide)]
  exact Even.isSquare_pow (by decide) _

/-- Settles O35: the laws of the root in ZMod p, read as equations of residues. -/
theorem principalRootProperties : Obligations.PrincipalRootProperties := by
  intro d a s ha hca
  have hsquare := exists_mul_self_mod_iff ⟨s.r[a].toNat, hca⟩
  refine ⟨_, exec_fsqrt d (needElem_canonical ha hca), ?_⟩
  rw [toData_toNat]
  refine ⟨hsquare.trans (feSqrt_mul_self_iff _).symm, fun h => feSqrt_mul_self_of_not_isSquare (mt hsquare.2 h),
    (exists_mul_self_mod_iff _).2 (isSquare_feSqrt _), fun d' a' s' ha' heq => exec_fsqrt d' ?_⟩
  rw [needElem_ready ha', heq, needCanon_lt hca]

/-! ### The field laws -/

theorem toZ_residue_sub (x : FieldElem) : (residue (fieldPrime - x.val)).toZ = -x.toZ := by
  rw [toZ_residue, Int.cast_sub, Int.cast_natCast, ZMod.natCast_self, zero_sub]; rfl

/-- Settles O36: the operations stand for those of the field ZMod p, where the laws hold. -/
theorem fieldLaws : Obligations.FieldLaws := by
  intro x y z
  simp only [← toZ_inj, toZ_feAdd, toZ_feMul, toZ_residue 0, toZ_residue 1, toZ_residue_sub, Int.cast_zero,
    Int.cast_one]
  exact ⟨add_comm _ _, mul_comm _ _, add_assoc _ _ _, mul_assoc _ _ _, add_zero _, mul_one _, mul_add _ _ _,
    fun hx => ⟨add_neg_cancel _, toZ_mul_feInv x hx⟩⟩

end Sys2Proof.Machine
end

section
/-! The point commands (42_curve): reading point sources, the completions that write a point or EQ, the curve equation
and the formulas of the addition on integers, decompression, and the group laws of `pointAdd`. -/

namespace Sys2Proof.Machine

/-! ### Reading point sources, and writing results -/

/-- 60_exceptions R331, with P[d] the only result. -/
theorem retire_writePoint {s : State} {d : PReg} {q : Point} {x : Except ErrCode State}
    (hx : x = .ok (s.writePoint d q)) : retire s x = .next (s.endedPoint d q) := by
  rw [hx]; rfl

/-- 60_exceptions R331, with EQ the only result. -/
theorem retire_writeEq {s : State} {e : Bool} {x : Except ErrCode State} (hx : x = .ok (s.writeEq e)) :
    retire s x = .next (s.endedEq e) := by
  rw [hx]; rfl

section
variable {s : State} {a b : PReg}

theorem needPoint2_ready (ha : ReadyPoint s a) (hb : ReadyPoint s b) : needPoint2 s a b = .ok (s.p[a], s.p[b]) :=
  (bind_ok_left (needPoint_ready ha)).trans (bind_ok_left (needPoint_ready hb))

theorem needPoint_eq {q : Point} (ha : ReadyPoint s a) (hq : s.p[a] = q) : needPoint s a = .ok q :=
  hq ▸ needPoint_ready ha

end

theorem readyPoint_endedPoint (s : State) (d : PReg) (q : Point) : ReadyPoint (s.endedPoint d q) d :=
  vector_set_same s.pv d true

theorem endedPoint_p_same (s : State) (d : PReg) (q : Point) : (s.endedPoint d q).p[d] = q :=
  vector_set_same s.p d q

theorem ready_endedData (s : State) (d : DReg) (x : Data) : Ready (s.endedData d x) d := by
  intro j
  rw [State.endedData, vector_set_same]
  exact Vector.getElem_replicate j.isLt

theorem endedData_r_same (s : State) (d : DReg) (x : Data) : (s.endedData d x).r[d] = x :=
  vector_set_same s.r d x

/-! ### PINF, PGEN, PMOV, PX, PY -/

/-- Settles O38: PINF and PGEN read nothing, and PMOV writes the point it reads. -/
theorem pinfPgenPmovWritePoints : Obligations.PinfPgenPmovWritePoints := by
  refine ⟨fun d s => ⟨decode_encode (i := .pinf d) rfl, retire_writePoint rfl⟩,
    fun d s => ⟨decode_encode (i := .pgen d) rfl, generatorX, generatorY, retire_writePoint rfl, rfl, rfl⟩,
    fun d a s => ⟨decode_encode (i := .pmov d a) rfl, fun ha => ?_, fun ha => ?_⟩⟩
  · exact retire_writePoint (bind_ok_left (needPoint_ready ha))
  · exact retire_error (bind_error_left (needPoint_not ha))

theorem exec_px {s : State} {a : PReg} {x y : FieldElem} (d : DReg) (ha : ReadyPoint s a) (hq : s.p[a] = .affine x y) :
    exec (.px d a) s = .next (s.endedData d x.toData) :=
  retire_writeData (bind_ok_left (needPoint_eq ha hq))

theorem exec_py {s : State} {a : PReg} {x y : FieldElem} (d : DReg) (ha : ReadyPoint s a) (hq : s.p[a] = .affine x y) :
    exec (.py d a) s = .next (s.endedData d y.toData) :=
  retire_writeData (bind_ok_left (needPoint_eq ha hq))

/-- Settles O39: the point is read first, and its coordinates only after that. -/
theorem pxPyWriteCoordinates : Obligations.PxPyWriteCoordinates := by
  refine fun d a s => ⟨decode_encode (i := .px d a) rfl, decode_encode (i := .py d a) rfl,
    fun x y ha hq => ⟨exec_px d ha hq, exec_py d ha hq⟩, fun ha hq => ?_, fun ha => ?_⟩
  · have hinf := needPoint_eq ha hq
    exact ⟨retire_error (bind_ok_left hinf), retire_error (bind_ok_left hinf)⟩
  · have huninit := needPoint_not ha
    exact ⟨retire_error (bind_error_left huninit), retire_error (bind_error_left huninit)⟩

/-! ### PEQ, PISINF -/

/-- 42_curve R195: equality of points is structural. -/
theorem point_beq_iff (q t : Point) : (q == t) = true ↔ (q = .inf ∧ t = .inf) ∨
    ∃ x1 y1 x2 y2, q = .affine x1 y1 ∧ t = .affine x2 y2 ∧ x1 = x2 ∧ y1 = y2 := by
  rw [beq_iff_eq]
  constructor
  · rintro rfl
    cases q with
    | inf => exact .inl ⟨rfl, rfl⟩
    | affine x y => exact .inr ⟨x, y, x, y, rfl, rfl, rfl, rfl⟩
  · rintro (⟨rfl, rfl⟩ | ⟨x, y, _, _, rfl, rfl, rfl, rfl⟩) <;> rfl

/-- Settles O42: both commands write the result of a structural test. -/
theorem peqPisinfWriteEq : Obligations.PeqPisinfWriteEq := by
  refine ⟨fun a b s => ⟨decode_encode (i := .peq a b) rfl, fun ha hb => ?_, fun h => ?_⟩,
    fun a s => ⟨decode_encode (i := .pisinf a) rfl, fun ha => ?_, fun ha => ?_⟩⟩
  · exact ⟨_, retire_writeEq (bind_ok_left (needPoint2_ready ha hb)), point_beq_iff _ _⟩
  · exact retire_error (bind_error_left (needPoint2_not h))
  · exact ⟨_, retire_writeEq (bind_ok_left (needPoint_ready ha)), beq_iff_eq⟩
  · exact retire_error (bind_error_left (needPoint_not ha))

/-! ### PNEG -/

theorem exec_pneg {s : State} {a : PReg} (d : PReg) (ha : ReadyPoint s a) :
    exec (.pneg d a) s = .next (s.endedPoint d (pointNeg s.p[a])) :=
  retire_writePoint (bind_ok_left (needPoint_ready ha))

theorem residue_prime_sub_val (y : FieldElem) :
    (residue (fieldPrime - y.val)).val = (fieldPrime - y.val) % fieldPrime := by
  rw [← Nat.cast_sub y.isLt.le, residue_natCast_val]

theorem residue_prime_sub_eq_iff (y z : FieldElem) : residue (fieldPrime - y.val) = z ↔ -y.toZ = z.toZ := by
  rw [← toZ_inj, toZ_residue_sub]

/-- 42_curve R192, for every value, on the curve or not. -/
theorem pointNeg_pointNeg (q : Point) : pointNeg (pointNeg q) = q := by
  cases q with
  | inf => rfl
  | affine x y =>
    refine congrArg (Point.affine x) ((residue_prime_sub_eq_iff _ y).2 ?_)
    rw [toZ_residue_sub, neg_neg]

/-- Settles O40: PNEG writes the negative, and the negative of the negative is the value. -/
theorem pnegNegates : Obligations.PnegNegates := by
  refine fun d a s => ⟨decode_encode (i := .pneg d a) rfl, fun ha hq => ?_, fun x y ha hq => ?_,
    fun ha => retire_error (bind_error_left (needPoint_not ha)), fun ha => ?_⟩
  · rw [exec_pneg d ha, hq]; rfl
  · exact ⟨_, by rw [exec_pneg d ha, hq]; rfl, residue_prime_sub_val y⟩
  · refine ⟨_, _, exec_pneg d ha, exec_pneg d (readyPoint_endedPoint s d _), ?_⟩
    rw [endedPoint_p_same, endedPoint_p_same, pointNeg_pointNeg]

/-! ### PADD -/

theorem exec_padd {s : State} {a b : PReg} (d : PReg) (ha : ReadyPoint s a) (hb : ReadyPoint s b) :
    exec (.padd d a b) s = .next (s.endedPoint d (pointAdd s.p[a] s.p[b])) :=
  retire_writePoint (bind_ok_left (needPoint2_ready ha hb))

theorem pointAdd_inf_left (q : Point) : pointAdd .inf q = q := rfl

theorem pointAdd_inf_right (q : Point) : pointAdd q .inf = q := by cases q <;> rfl

section
variable {x1 y1 x2 y2 : FieldElem}

theorem pointAdd_opposite (hx : x1 = x2) (hy : (y1.val + y2.val) % fieldPrime = 0) :
    pointAdd (.affine x1 y1) (.affine x2 y2) = .inf :=
  if_pos ⟨hx, hy⟩

theorem pointAdd_chord (hx : x1 ≠ x2) :
    pointAdd (.affine x1 y1) (.affine x2 y2) = thirdPoint (chordSlope x1 y1 x2 y2) x1 y1 x2 :=
  (if_neg fun h => hx h.1).trans (if_pos hx)

end

theorem double_mod_ne_zero {y : FieldElem} (hy : y.val ≠ 0) : (y.val + y.val) % fieldPrime ≠ 0 := by
  have := fieldPrime_fact
  have htwo : (2 : Zp) ≠ 0 := by exact_mod_cast fieldPrime_ne 2 (by decide) (by decide)
  rw [Ne, toZ_add_eq_zero, ← two_mul]
  exact mul_ne_zero htwo (mt toZ_eq_zero.1 hy)

theorem pointAdd_tangent (x : FieldElem) {y : FieldElem} (hy : y.val ≠ 0) :
    pointAdd (.affine x y) (.affine x y) = thirdPoint (tangentSlope x y) x y x := by
  rw [pointAdd, if_neg fun h => double_mod_ne_zero hy h.2, if_neg (not_not.2 rfl), if_neg fun h => hy h.2, if_pos rfl]

theorem feInv_residue_val (z : Int) :
    ((feInv (residue z)).val : Int) = (z % fieldPrime) ^ (fieldPrime - 2) % fieldPrime := by
  rw [feInv_val, Int.natCast_mod, Nat.cast_pow, residue_val]

theorem chordSlope_val (x1 y1 x2 y2 : FieldElem) : ((chordSlope x1 y1 x2 y2).val : Int) =
    (y2.val - y1.val) * (((x2.val - x1.val) % fieldPrime) ^ (fieldPrime - 2) % fieldPrime) % fieldPrime := by
  rw [chordSlope, residue_val, feInv_residue_val]

theorem tangentSlope_val (x y : FieldElem) : ((tangentSlope x y).val : Int) =
    3 * (x.val : Int) ^ 2 * ((2 * (y.val : Int) % fieldPrime) ^ (fieldPrime - 2) % fieldPrime) % fieldPrime := by
  rw [tangentSlope, residue_val, feInv_residue_val, curveA, Nat.cast_zero, add_zero, pow_two]

theorem thirdPoint_spec (s x1 y1 x2 : FieldElem) :
    ∃ x3 y3 : FieldElem, thirdPoint s x1 y1 x2 = .affine x3 y3 ∧
      IsThirdPoint s.val x1.val y1.val x2.val x3.val y3.val :=
  ⟨_, _, rfl, by rw [residue_val, pow_two], residue_val _⟩

/-- Settles O41: each case of the rule is a case of `pointAdd`, and the sum of curve points is their sum in the group
of the curve. -/
theorem paddFollowsTheCases : Obligations.PaddFollowsTheCases := by
  refine fun d a b s => ⟨decode_encode (i := .padd d a b) rfl,
    fun h => retire_error (bind_error_left (needPoint2_not h)), fun ha hb => ?_⟩
  rw [exec_padd d ha hb]
  refine ⟨fun hq => ?_, fun ht => ?_, fun x1 y1 x2 y2 hq ht => ?_,
    fun hq ht => ⟨_, rfl, pointAdd_onCurve hq ht⟩⟩
  · rw [hq, pointAdd_inf_left]
  · rw [ht, pointAdd_inf_right]
  · rw [hq, ht]
    refine ⟨fun hx hy => ?_, fun hx => ?_, ?_⟩
    · rw [pointAdd_opposite hx hy]
    · obtain ⟨x3, y3, h3, hspec⟩ := thirdPoint_spec (chordSlope x1 y1 x2 y2) x1 y1 x2
      exact ⟨_, x3, y3, by rw [pointAdd_chord hx, h3], chordSlope_val x1 y1 x2 y2, hspec⟩
    · rintro rfl rfl hy
      obtain ⟨x3, y3, h3, hspec⟩ := thirdPoint_spec (tangentSlope x1 y1) x1 y1 x1
      exact ⟨_, x3, y3, by rw [pointAdd_tangent x1 hy, h3], tangentSlope_val x1 y1, hspec⟩

/-! ### The group laws -/

/-- Settles O45: curve points stand for the elements of the group of the curve, one each, and `pointAdd` for its
addition. -/
theorem curveGroupLaws : Obligations.CurveGroupLaws := by
  intro q t u hq ht hu
  have := fieldPrime_fact
  obtain ⟨A, hA⟩ := (pointOnCurve_iff q).1 hq
  obtain ⟨B, hB⟩ := (pointOnCurve_iff t).1 ht
  obtain ⟨C, hC⟩ := (pointOnCurve_iff u).1 hu
  refine ⟨pointAdd_inf_right q, pointAdd_inf_left q, ?_, ?_, ?_⟩
  · exact (add_neg_cancel A ▸ hA.add hA.neg).inj rep_inf
  · exact (hA.add hB).inj (add_comm B A ▸ hB.add hA)
  · exact ((hA.add hB).add hC).inj (add_assoc A B C ▸ hA.add (hB.add hC))

/-! ### PSET -/

/-- 42_curve R180, on integers. -/
theorem onCurve_iff_emod (x y : FieldElem) :
    onCurve x y = true ↔ ((y.val : Int) ^ 2 - (x.val ^ 3 + 7)) % fieldPrime = 0 := by
  rw [onCurve_iff, ← sub_eq_zero, ← Int.dvd_iff_emod_eq_zero, ← ZMod.intCast_zmod_eq_zero_iff_dvd]
  push_cast
  rfl

/-- Settles O37: the sources are read and checked, and then the equation decides. -/
theorem psetBuildsOnlyCurvePoints : Obligations.PsetBuildsOnlyCurvePoints := by
  refine fun d a b s => ⟨decode_encode (i := .pset d a b) rfl,
    fun h => retire_error (bind_error_left (needElem2_not h)),
    fun ha hb h => retire_error (bind_error_left (needElem2_not_canonical ha hb h)), fun ha hb hca hcb => ?_⟩
  have hread := needElem2_canonical ha hb hca hcb
  have hcurve := onCurve_iff_emod ⟨s.r[a].toNat, hca⟩ ⟨s.r[b].toNat, hcb⟩
  exact ⟨fun h => retire_writePoint ((bind_ok_left hread).trans (if_pos (hcurve.2 h))),
    fun h => retire_error ((bind_ok_left hread).trans (if_neg (mt hcurve.1 h)))⟩

/-! ### PDEC -/

theorem curveRhs_val (x : FieldElem) : (curveRhs x).val = (x.val ^ 3 + 7) % fieldPrime := by
  rw [← residue_natCast_val, curveRhs, curveA, curveB]
  congr 2
  push_cast
  ring

theorem decompress_of_root {x : FieldElem} (h : feMul (feSqrt (curveRhs x)) (feSqrt (curveRhs x)) = curveRhs x) :
    decompress x = some (.affine x (feSqrt (curveRhs x))) := by
  rw [decompress, if_neg (not_not.2 h)]

theorem decompress_of_not_root {x : FieldElem}
    (h : feMul (feSqrt (curveRhs x)) (feSqrt (curveRhs x)) ≠ curveRhs x) : decompress x = none := by
  rw [decompress, if_pos h]

theorem feMul_self_eq_iff (y c : FieldElem) : feMul y y = c ↔ y.val ^ 2 % fieldPrime = c.val := by
  rw [Fin.ext_iff, feMul_val, pow_two]

section
variable {s : State} {a : DReg} {x : FieldElem} (d : PReg) (hx : needElem s a = .ok x)
include hx

theorem exec_pdec_some {q : Point} (hq : decompress x = some q) :
    exec (.pdec d a) s = .next (s.endedPoint d q) := by
  refine retire_writePoint ((bind_ok_left hx).trans ?_)
  rw [hq]; rfl

theorem exec_pdec_none (hq : decompress x = none) : exec (.pdec d a) s = .next (s.endedError .curve) := by
  refine retire_error ((bind_ok_left hx).trans ?_)
  rw [hq]; rfl

end

/-- Settles O43: the formula's value is the second coordinate if it is a root. -/
theorem pdecDecompresses : Obligations.PdecDecompresses := by
  refine fun d a s => ⟨decode_encode (i := .pdec d a) rfl,
    fun h => retire_error (bind_error_left (needElem_not h)),
    fun ha hca => retire_error (bind_error_left (needElem_not_canonical ha hca)), ?_⟩
  intro ha hca c y hc hy
  have hread := needElem_canonical ha hca
  have hrhs : (curveRhs ⟨s.r[a].toNat, hca⟩).val = c := (curveRhs_val _).trans hc.symm
  have hroot : (feSqrt (curveRhs ⟨s.r[a].toNat, hca⟩)).val = y := by rw [feSqrt_val, hrhs, hy]
  have hiff := feMul_self_eq_iff (feSqrt (curveRhs ⟨s.r[a].toNat, hca⟩)) (curveRhs ⟨s.r[a].toNat, hca⟩)
  rw [hroot, hrhs] at hiff
  exact ⟨fun h => ⟨_, _, exec_pdec_some d hread (decompress_of_root (hiff.2 h)), rfl, hroot⟩,
    fun h => exec_pdec_none d hread (decompress_of_not_root (mt hiff.1 h))⟩

/-- 42_curve R201: the right side of the equation is the square of y, so its principal root is y or −y. -/
theorem decompress_of_onCurve {x y : FieldElem} (h : onCurve x y = true) :
    ∃ q, decompress x = some q ∧ (q = .affine x y ∨ q = pointNeg (.affine x y)) := by
  have := fieldPrime_fact
  have hsq : (curveRhs x).toZ = y.toZ * y.toZ := by rw [toZ_curveRhs, ← (onCurve_iff x y).1 h, pow_two]
  have hroot := toZ_feSqrt_mul_self ⟨_, hsq⟩
  refine ⟨_, decompress_of_root (toZ_inj.1 ((toZ_feMul _ _).trans hroot)), ?_⟩
  refine (mul_self_eq_mul_self_iff.1 (hroot.trans hsq)).imp (fun hy => ?_) fun hy => ?_
  · rw [toZ_inj.1 hy]
  · rw [pointNeg, (residue_prime_sub_eq_iff _ _).2 hy.symm]

theorem needElem_of_toData {s : State} {a : DReg} {x : FieldElem} (ha : Ready s a) (hr : s.r[a] = x.toData) :
    needElem s a = .ok x := by
  have hval : s.r[a].toNat = x.val := by rw [hr, toData_toNat]
  rw [needElem_canonical ha (hval.trans_lt x.isLt)]
  exact congrArg _ (Fin.ext hval)

/-- Settles O44: the coordinate that PX writes is the element that PDEC reads. -/
theorem pdecRecoversThePointUpToSign : Obligations.PdecRecoversThePointUpToSign := by
  intro d q a s x y hready hq hcurve
  rw [hq] at hcurve ⊢
  obtain ⟨t, ht, hsign⟩ := decompress_of_onCurve hcurve
  have hread := needElem_of_toData (ready_endedData s a x.toData) (endedData_r_same s a x.toData)
  refine ⟨_, _, exec_px a hready hq, exec_pdec_some d hread ht, ?_, readyPoint_endedPoint _ d t⟩
  rwa [endedPoint_p_same]

end Sys2Proof.Machine
end

section
/-! Scalar multiplication (43_scalar): the completion of PMUL, its loop that stops when the remaining scalar is 0 as the
loop over all 256 bits, and the repeated sum in the group of the curve. -/

namespace Sys2Proof.Machine

theorem exec_pmul {s : State} {a : DReg} {b : PReg} (d : PReg) (ha : Ready s a) (hb : ReadyPoint s b) :
    exec (.pmul d a b) s = .next (s.endedPoint d (scalarMul s.r[a].toNat s.p[b])) :=
  retire_writePoint ((bind_ok_left (needData_ready ha)).trans (bind_ok_left (needPoint_ready hb)))

/-! ### The loop over the bits of the scalar -/

/-- Iteration i of the loop of 43_scalar R221, on the accumulator and the addend. -/
def addDouble (k : Nat) (sq : Point × Point) (i : Nat) : Point × Point :=
  (if k.testBit i then pointAdd sq.1 sq.2 else sq.1, pointAdd sq.2 sq.2)

theorem addDouble_zero (k : Nat) (s q : Point) :
    addDouble k (s, q) 0 = (if k % 2 = 1 then pointAdd s q else s, pointAdd q q) := by
  simp [addDouble]

theorem addDouble_succ (k : Nat) (sq : Point × Point) (i : Nat) :
    addDouble k sq (i + 1) = addDouble (k / 2) sq i := by
  rw [addDouble, Nat.testBit_succ, addDouble]

/-- 43_scalar R221: when the remaining scalar is 0, no further iteration changes the accumulator. -/
theorem foldl_addDouble_of_zero (is : List Nat) (sq : Point × Point) : (is.foldl (addDouble 0) sq).1 = sq.1 := by
  induction is generalizing sq with
  | nil => rfl
  | cons i is ih => rw [List.foldl_cons, ih, addDouble, Nat.zero_testBit, if_neg Bool.false_ne_true]

/-- The remaining iterations are those of the loop on the halved scalar. -/
theorem foldl_addDouble_range_succ (n k : Nat) (sq : Point × Point) :
    (List.range (n + 1)).foldl (addDouble k) sq = (List.range n).foldl (addDouble (k / 2)) (addDouble k sq 0) := by
  simp only [List.range_succ_eq_map, List.foldl_cons, List.foldl_map, Nat.succ_eq_add_one, addDouble_succ]

theorem scalarLoop_eq_foldl (n k : Nat) (q s : Point) :
    scalarLoop n k q s = ((List.range n).foldl (addDouble k) (s, q)).1 := by
  induction n generalizing k q s with
  | zero => rfl
  | succ n ih =>
    rw [scalarLoop]
    split
    · next hk => rw [hk, foldl_addDouble_of_zero]
    · rw [ih, foldl_addDouble_range_succ, addDouble_zero]

/-- Settles O46: the early end of the model's loop leaves the accumulator as the 256 iterations do. -/
theorem pmulIsTheDoubleAndAddLoop : Obligations.PmulIsTheDoubleAndAddLoop := by
  refine fun d a b s => ⟨decode_encode (i := .pmul d a b) rfl, fun ha hb k hk => ?_, execPmul_not d⟩
  have hloop : scalarMul s.r[a].toNat s.p[b] = ((List.range 256).foldl (addDouble k) (.inf, s.p[b])).1 := by
    rw [hk]
    exact scalarLoop_eq_foldl 256 _ _ _
  rw [exec_pmul d ha hb, hloop]
  rfl

/-! ### The multiple in the group -/

/-- Adding a curve point k times is the multiple by k of its group element. -/
theorem multiple_rep [Fact fieldPrime.Prime] (k : Nat) {q : Point} {A : SecpPoint} (hq : Rep q A) :
    Rep (multiple k q) (k • A) := by
  induction k with
  | zero => rw [zero_nsmul]; exact rep_inf
  | succ k ih => rw [succ_nsmul]; exact ih.add hq

/-- 43_scalar R223: both stand for the same element of the group of the curve. -/
theorem scalarMul_eq_multiple (k : Nat) {q : Point} (hq : pointOnCurve q = true) :
    scalarMul k q = multiple (k % groupOrder) q := by
  have := fieldPrime_fact
  obtain ⟨A, hA⟩ := (pointOnCurve_iff q).1 hq
  exact (scalarMul_rep k hA).inj (multiple_rep _ hA)

/-- Settles O47: on the curve the loop and the repeated addition are the same point. -/
theorem pmulIsTheGroupMultiple : Obligations.PmulIsTheGroupMultiple := by
  intro d a b s ha hb hq
  rw [exec_pmul d ha hb, scalarMul_eq_multiple _ hq]

end Sys2Proof.Machine
end

section
/-! The round transforms on the bytes of a lane (44_aes R251 to R256, R259), the inverse pairs and the commutations
(R260). The two matrices of R246 are inverse as circulants: their product has first row (1, 0, 0, 0). -/

namespace Sys2Proof.Machine

/-! ### The transforms on bytes -/

/-- The lane of the first 16 bytes of a string. -/
def Lane.ofBytes (b : Nat → Byte) : Lane := .build fun i => b i

theorem Lane.ofBytes_get (b : Nat → Byte) {n : Nat} (hn : n < 16) : (Lane.ofBytes b)[n] = b n :=
  Lane.build_get _ n hn

theorem Lane.ofBytes_congr {b c : Nat → Byte} (h : ∀ n < 16, b n = c n) : Lane.ofBytes b = Lane.ofBytes c :=
  congrArg Lane.build (funext fun i => h i i.isLt)

theorem Lane.exists_ofBytes (s : Lane) : ∃ b, s = Lane.ofBytes b := by
  refine ⟨fun n => s.toList.getD n 0, Lane.ext fun i => ?_⟩
  rw [Fin.getElem_fin, Fin.getElem_fin, Lane.ofBytes_get _ i.isLt]
  simp

theorem lane0_eq_ofBytes (v : Data) : lane0 v = .ofBytes fun n => byteOf v n := rfl

theorem lane1_eq_ofBytes (v : Data) : lane1 v = .ofBytes fun n => byteOf v (16 + n) := rfl

theorem subBytes_ofBytes (b : Nat → Byte) : subBytes (.ofBytes b) = .ofBytes fun n => sbox (b n) := rfl

theorem invSubBytes_ofBytes (b : Nat → Byte) : invSubBytes (.ofBytes b) = .ofBytes fun n => isbox (b n) := rfl

/-- Where ShiftRows takes byte n from (44_aes R253). -/
def shiftIndex (n : Nat) : Nat := n % 4 + 4 * ((n / 4 + n % 4) % 4)

/-- Where InvShiftRows takes byte n from (44_aes R254). -/
def invShiftIndex (n : Nat) : Nat := n % 4 + 4 * ((n / 4 + 4 - n % 4) % 4)

theorem shiftRows_ofBytes (b : Nat → Byte) : shiftRows (.ofBytes b) = .ofBytes fun n => b (shiftIndex n) :=
  congrArg Lane.build (funext fun _ => Lane.ofBytes_get b _)

theorem invShiftRows_ofBytes (b : Nat → Byte) : invShiftRows (.ofBytes b) = .ofBytes fun n => b (invShiftIndex n) :=
  congrArg Lane.build (funext fun _ => Lane.ofBytes_get b _)

/-- The first row of the matrix of MixColumns (44_aes R246). -/
def mixRow (k : Nat) : Byte := [2, 3, 1, 1].getD k 0

/-- The first row of the matrix of InvMixColumns (44_aes R246). -/
def invMixRow (k : Nat) : Byte := [14, 11, 13, 9].getD k 0

theorem gmul_one (a : Byte) : gmul a 1#8 = a := by revert a; decide +kernel

theorem mixByte_eq_circulant (b : Nat → Byte) (n : Nat) :
    mixByte (b (4 * (n / 4))) (b (4 * (n / 4) + 1)) (b (4 * (n / 4) + 2)) (b (4 * (n / 4) + 3)) (n % 4) =
      circulant mixRow b n := by
  have hr : n % 4 < 4 := Nat.mod_lt n (by decide)
  rw [circulant]
  interval_cases n % 4 <;> simp [mixByte, mixRow, gmul_one]

theorem invMixByte_eq_circulant (b : Nat → Byte) (n : Nat) :
    invMixByte (b (4 * (n / 4))) (b (4 * (n / 4) + 1)) (b (4 * (n / 4) + 2)) (b (4 * (n / 4) + 3)) (n % 4) =
      circulant invMixRow b n := by
  have hr : n % 4 < 4 := Nat.mod_lt n (by decide)
  rw [circulant]
  interval_cases n % 4 <;> rfl

theorem onColumns_ofBytes (f : Byte → Byte → Byte → Byte → Nat → Byte) (b : Nat → Byte) :
    onColumns f (.ofBytes b) = .ofBytes fun n =>
      f (b (4 * (n / 4))) (b (4 * (n / 4) + 1)) (b (4 * (n / 4) + 2)) (b (4 * (n / 4) + 3)) (n % 4) :=
  congrArg Lane.build (funext fun _ => by simp only [Lane.ofBytes_get])

theorem mixColumns_ofBytes (b : Nat → Byte) : mixColumns (.ofBytes b) = .ofBytes (circulant mixRow b) :=
  (onColumns_ofBytes mixByte b).trans (Lane.ofBytes_congr fun n _ => mixByte_eq_circulant b n)

theorem invMixColumns_ofBytes (b : Nat → Byte) : invMixColumns (.ofBytes b) = .ofBytes (circulant invMixRow b) :=
  (onColumns_ofBytes invMixByte b).trans (Lane.ofBytes_congr fun n _ => invMixByte_eq_circulant b n)

theorem scheduleByte_eq (ks : Schedule) {n : Nat} (hn : n < 240) : scheduleByte ks n = ks[n] := by
  simp [scheduleByte, hn]

theorem addRoundKey_ofBytes (ks : Schedule) (k : Fin 15) (b : Nat → Byte) :
    addRoundKey ks k (.ofBytes b) = .ofBytes fun n => b n ^^^ scheduleByte ks (16 * k + n) :=
  congrArg Lane.build (funext fun i => by
    rw [Lane.ofBytes_get b i.isLt, roundKey, Lane.build_get, ← scheduleByte_eq])

/-! ### Products of circulant matrices -/

/-- The row product of a circulant matrix: its first row times a column. -/
def rowProduct (m : Nat → Byte) (a b c d : Byte) : Byte :=
  gmul a (m 0) ^^^ gmul b (m 1) ^^^ gmul c (m 2) ^^^ gmul d (m 3)

/-- Entry j of byte i's column, counted from byte i on. -/
def columnFrom (s : Nat → Byte) (i j : Nat) : Byte := s (4 * (i / 4) + (i + j) % 4)

theorem columnFrom_zero (s : Nat → Byte) (i : Nat) : columnFrom s i 0 = s i :=
  congrArg s (Nat.div_add_mod i 4)

theorem columnFrom_add_four (s : Nat → Byte) (i j : Nat) : columnFrom s i (j + 4) = columnFrom s i j := by
  rw [columnFrom, ← Nat.add_assoc, Nat.add_mod_right]
  rfl

/-- Row r of a circulant matrix is its first row, on the column counted from byte r on. -/
theorem circulant_eq_rowProduct (m s : Nat → Byte) (i : Nat) :
    circulant m s i = rowProduct m (columnFrom s i 0) (columnFrom s i 1) (columnFrom s i 2) (columnFrom s i 3) := by
  have hr : i % 4 < 4 := Nat.mod_lt i (by decide)
  simp only [circulant, rowProduct, columnFrom, Nat.add_mod i]
  interval_cases i % 4 <;> simp only [Nat.reduceAdd, Nat.reduceSub, Nat.reduceMod, Nat.add_zero] <;> ac_rfl

theorem columnFrom_circulant (m s : Nat → Byte) (i j : Nat) :
    columnFrom (circulant m s) i j =
      rowProduct m (columnFrom s i j) (columnFrom s i (j + 1)) (columnFrom s i (j + 2)) (columnFrom s i (j + 3)) := by
  have hfrom (k : Nat) : columnFrom s (4 * (i / 4) + (i + j) % 4) k = columnFrom s i (j + k) :=
    congrArg s (by omega)
  rw [columnFrom, circulant_eq_rowProduct, hfrom, hfrom, hfrom, hfrom]
  rfl

/-- Entry k of the first row of the product of the circulant matrices of m and n, applied to a byte. -/
def productEntry (m n : Nat → Byte) (k : Nat) (a : Byte) : Byte :=
  gmul (gmul a (n (k % 4))) (m 0) ^^^ gmul (gmul a (n ((k + 3) % 4))) (m 1) ^^^
    gmul (gmul a (n ((k + 2) % 4))) (m 2) ^^^ gmul (gmul a (n ((k + 1) % 4))) (m 3)

theorem rowProduct_rowProduct (m n : Nat → Byte) (a b c d : Byte) :
    rowProduct m (rowProduct n a b c d) (rowProduct n b c d a) (rowProduct n c d a b) (rowProduct n d a b c) =
      productEntry m n 0 a ^^^ productEntry m n 1 b ^^^ productEntry m n 2 c ^^^ productEntry m n 3 d := by
  simp only [rowProduct, productEntry, gmul_xor, Nat.reduceAdd, Nat.reduceMod]
  ac_rfl

/-- The product of the circulant matrices of m and n is the identity. -/
def CirculantInverse (m n : Nat → Byte) : Prop :=
  ∀ a, productEntry m n 0 a = a ∧ productEntry m n 1 a = 0#8 ∧ productEntry m n 2 a = 0#8 ∧
    productEntry m n 3 a = 0#8

theorem circulantInverse_mixRow : CirculantInverse mixRow invMixRow := by unfold CirculantInverse; decide +kernel

theorem circulantInverse_invMixRow : CirculantInverse invMixRow mixRow := by unfold CirculantInverse; decide +kernel

theorem CirculantInverse.circulant_circulant {m n : Nat → Byte} (h : CirculantInverse m n) (b : Nat → Byte) :
    circulant m (circulant n b) = b := by
  funext i
  obtain ⟨h0, -⟩ := h (columnFrom b i 0)
  obtain ⟨-, h1, -⟩ := h (columnFrom b i 1)
  obtain ⟨-, -, h2, -⟩ := h (columnFrom b i 2)
  obtain ⟨-, -, -, h3⟩ := h (columnFrom b i 3)
  simp only [circulant_eq_rowProduct m, columnFrom_circulant, Nat.reduceAdd, columnFrom_add_four b i 0,
    columnFrom_add_four b i 1, columnFrom_add_four b i 2, rowProduct_rowProduct, h0, h1, h2, h3, BitVec.xor_zero]
  exact columnFrom_zero b i

/-! ### Inverse pairs -/

theorem invSubBytes_subBytes (s : Lane) : invSubBytes (subBytes s) = s := by
  obtain ⟨b, rfl⟩ := s.exists_ofBytes
  simp only [subBytes_ofBytes, invSubBytes_ofBytes, isbox_sbox]

theorem subBytes_invSubBytes (s : Lane) : subBytes (invSubBytes s) = s := by
  obtain ⟨b, rfl⟩ := s.exists_ofBytes
  simp only [subBytes_ofBytes, invSubBytes_ofBytes, sbox_isbox]

theorem shiftIndex_invShiftIndex {n : Nat} (hn : n < 16) : shiftIndex (invShiftIndex n) = n := by
  unfold shiftIndex invShiftIndex; omega

theorem invShiftIndex_shiftIndex {n : Nat} (hn : n < 16) : invShiftIndex (shiftIndex n) = n := by
  unfold shiftIndex invShiftIndex; omega

theorem invShiftRows_shiftRows (s : Lane) : invShiftRows (shiftRows s) = s := by
  obtain ⟨b, rfl⟩ := s.exists_ofBytes
  rw [shiftRows_ofBytes, invShiftRows_ofBytes]
  exact Lane.ofBytes_congr fun n hn => congrArg b (shiftIndex_invShiftIndex hn)

theorem shiftRows_invShiftRows (s : Lane) : shiftRows (invShiftRows s) = s := by
  obtain ⟨b, rfl⟩ := s.exists_ofBytes
  rw [invShiftRows_ofBytes, shiftRows_ofBytes]
  exact Lane.ofBytes_congr fun n hn => congrArg b (invShiftIndex_shiftIndex hn)

theorem invMixColumns_mixColumns (s : Lane) : invMixColumns (mixColumns s) = s := by
  obtain ⟨b, rfl⟩ := s.exists_ofBytes
  rw [mixColumns_ofBytes, invMixColumns_ofBytes, circulantInverse_invMixRow.circulant_circulant]

theorem mixColumns_invMixColumns (s : Lane) : mixColumns (invMixColumns s) = s := by
  obtain ⟨b, rfl⟩ := s.exists_ofBytes
  rw [invMixColumns_ofBytes, mixColumns_ofBytes, circulantInverse_mixRow.circulant_circulant]

theorem addRoundKey_addRoundKey (ks : Schedule) (k : Fin 15) (s : Lane) :
    addRoundKey ks k (addRoundKey ks k s) = s := by
  obtain ⟨b, rfl⟩ := s.exists_ofBytes
  simp only [addRoundKey_ofBytes, BitVec.xor_assoc, BitVec.xor_self, BitVec.xor_zero]

/-- Settles O52: the tables are inverse, the index maps are inverse, the matrices are inverse, and a substitution of
each byte commutes with any choice of bytes. -/
theorem roundTransformsInvert : Obligations.RoundTransformsInvert := by
  intro s ks k
  refine ⟨invSubBytes_subBytes s, subBytes_invSubBytes s, invShiftRows_shiftRows s, shiftRows_invShiftRows s,
    invMixColumns_mixColumns s, mixColumns_invMixColumns s, addRoundKey_addRoundKey ks k s, ?_⟩
  obtain ⟨b, rfl⟩ := s.exists_ofBytes
  simp only [subBytes_ofBytes, invSubBytes_ofBytes, shiftRows_ofBytes, invShiftRows_ofBytes, and_self]

end Sys2Proof.Machine
end

section
/-! The AES commands that write a data register (44_aes R270 to R278): their completions, the bytes and lanes of what
they write, the rounds as chains of states, and the single-step program as one lane transform. -/

namespace Sys2Proof.Machine

/-! ### Completions -/

section
variable {s : State} {a : DReg}

theorem needDataKey_ready (ha : Ready s a) (hk : s.ksv = true) : needDataKey s a = .ok (s.r[a], s.ks) :=
  (bind_ok_left (needData_ready ha)).trans (bind_ok_left (needKey_ready hk))

theorem needDataKey_nokey (ha : Ready s a) (hk : s.ksv = false) : needDataKey s a = .error .nokey :=
  (bind_ok_left (needData_ready ha)).trans (bind_error_left (needKey_not (Bool.not_eq_true _ ▸ hk)))

theorem laneCommand_ready (f : Lane → Lane) (d : DReg) (ha : Ready s a) :
    laneCommand f d a s = .next (s.endedData d (onLanes f s.r[a])) :=
  retire_writeData (bind_ok_left (needData_ready ha))

theorem keyedLaneCommand_ready (f : Schedule → Lane → Lane) (d : DReg) (ha : Ready s a) (hk : s.ksv = true) :
    keyedLaneCommand f d a s = .next (s.endedData d (onLanes (f s.ks) s.r[a])) :=
  retire_writeData (bind_ok_left (needDataKey_ready ha hk))

theorem keyedLaneCommand_nokey (f : Schedule → Lane → Lane) (d : DReg) (ha : Ready s a) (hk : s.ksv = false) :
    keyedLaneCommand f d a s = .next (s.endedError .nokey) :=
  retire_error (bind_error_left (needDataKey_nokey ha hk))

end

/-- AARK with a round key of the schedule. -/
theorem execAark_castSucc (d a : DReg) (k : Fin 15) :
    execAark d a k.castSucc = keyedLaneCommand (fun ks => addRoundKey ks k) d a :=
  funext fun _ => dif_pos k.isLt

/-! ### The bytes written -/

/-- A transform of byte strings that f performs on lanes. -/
def PerformsOnBytes (f : Lane → Lane) (F : (Nat → Byte) → Nat → Byte) : Prop :=
  ∀ b, f (.ofBytes b) = .ofBytes (F b)

theorem byteOf_eq_lane0 (v : Data) {n : Nat} (hn : n < 16) : byteOf v n = (lane0 v)[n] :=
  (Lane.ofBytes_get _ hn).symm

theorem byteOf_eq_lane1 (v : Data) {n : Nat} (hn : n < 16) : byteOf v (16 + n) = (lane1 v)[n] :=
  (Lane.ofBytes_get (fun n => byteOf v (16 + n)) hn).symm

theorem byteOf_onLanes {f : Lane → Lane} {F : (Nat → Byte) → Nat → Byte} (hf : PerformsOnBytes f F) (v : Data)
    {lane n : Nat} (hlane : lane < 2) (hn : n < 16) :
    byteOf (onLanes f v) (16 * lane + n) = F (fun m => byteOf v (16 * lane + m)) n := by
  interval_cases lane
  · simp only [Nat.mul_zero, Nat.zero_add]
    rw [byteOf_eq_lane0 _ hn, onLanes, lane0_joinLanes, lane0_eq_ofBytes, hf, Lane.ofBytes_get _ hn]
  · simp only [Nat.mul_one]
    rw [byteOf_eq_lane1 _ hn, onLanes, lane1_joinLanes, lane1_eq_ofBytes, hf, Lane.ofBytes_get _ hn]

theorem laneCommand_of_bytes {op : Nat} {i : DReg → DReg → Instr} {f : Lane → Lane} {F : (Nat → Byte) → Nat → Byte}
    (hdecode : ∀ d a : DReg, decode (commandWord op d a 0 0) = .ok (i d a))
    (hexec : ∀ d a s, exec (i d a) s = laneCommand f d a s) (hf : PerformsOnBytes f F) : LaneCommand op i F := by
  intro d a s
  rw [hexec]
  exact ⟨hdecode d a, fun ha => ⟨_, laneCommand_ready f d ha, fun _ hlane _ hn => byteOf_onLanes hf _ hlane hn⟩,
    laneCommand_not f d⟩

/-- Settles O49: each command is a lane command, whose transform acts on the bytes as its rule says. -/
theorem roundStepsTransformLanes : Obligations.RoundStepsTransformLanes :=
  ⟨laneCommand_of_bytes (fun d a => decode_encode (i := .asub d a) rfl) (fun _ _ _ => rfl) subBytes_ofBytes,
    laneCommand_of_bytes (fun d a => decode_encode (i := .aisub d a) rfl) (fun _ _ _ => rfl) invSubBytes_ofBytes,
    laneCommand_of_bytes (fun d a => decode_encode (i := .ashr d a) rfl) (fun _ _ _ => rfl) shiftRows_ofBytes,
    laneCommand_of_bytes (fun d a => decode_encode (i := .aishr d a) rfl) (fun _ _ _ => rfl) invShiftRows_ofBytes,
    laneCommand_of_bytes (fun d a => decode_encode (i := .amix d a) rfl) (fun _ _ _ => rfl) mixColumns_ofBytes,
    laneCommand_of_bytes (fun d a => decode_encode (i := .aimix d a) rfl) (fun _ _ _ => rfl) invMixColumns_ofBytes⟩

/-- 30_encoding R107: there is no round key 15. -/
theorem decode_aark_fifteen (d a : DReg) : decode (encode (.aark d a 15)) = .error .roundNumber := by
  obtain ⟨row, hrow, hmask⟩ := Laws.EncodingRow.aark d a 15
  have hround : fieldOp (encode (.aark d a 15)) = 0x49 ∧ fieldK (encode (.aark d a 15)) = 15 :=
    ⟨fieldOp_commandWord .., fieldK_commandWord ..⟩
  rw [decode_eq, hrow]
  simp only [hmask, ne_eq, not_true_eq_false, if_false, if_pos hround]

/-- Settles O50: k at most 14 is a round of the schedule, and for k = 15 decoding fails at its last check. -/
theorem aarkAddsTheRoundKey : Obligations.AarkAddsTheRoundKey := by
  intro d a k s
  rcases Nat.lt_or_ge k.val 15 with hlt | hge
  · obtain ⟨k, rfl⟩ : ∃ k' : Fin 15, k = k'.castSucc := ⟨⟨k, hlt⟩, rfl⟩
    have hexec : exec (.aark d a k.castSucc) = keyedLaneCommand (fun ks => addRoundKey ks k) d a :=
      execAark_castSucc d a k
    rw [hexec]
    refine ⟨fun hk => decode_encode (i := .aark d a k.castSucc) (decide_eq_true hk), fun h => absurd h hlt.ne,
      fun _ ha hksv => ⟨_, keyedLaneCommand_ready _ d ha hksv, fun lane hlane n hn => ?_⟩,
      fun _ ha => keyedLaneCommand_not _ d ha, fun _ ha hksv => keyedLaneCommand_nokey _ d ha hksv⟩
    exact byteOf_onLanes (addRoundKey_ofBytes s.ks k) _ hlane hn
  · have hk : ¬k.val ≤ 14 := by omega
    obtain rfl : k = 15 := Fin.ext (by omega)
    exact ⟨fun h => absurd h hk, fun _ => decode_aark_fifteen d a, fun h => absurd h hk, fun h => absurd h hk,
      fun h => absurd h hk⟩

/-! ### The rounds -/

/-- The state after round n of EncryptBlock (44_aes R257), for n up to 13. -/
def encryptState (ks : Schedule) (block : Lane) : Nat → Lane
  | 0 => addRoundKey ks 0 block
  | n + 1 => encryptRound ks (encryptState ks block n) (Fin.ofNat 15 (n + 1))

/-- The state of DecryptBlock (44_aes R258) after n of its rounds 13 down to 1. -/
def decryptState (ks : Schedule) (block : Lane) : Nat → Lane
  | 0 => invSubBytes (invShiftRows (addRoundKey ks 14 block))
  | n + 1 => decryptRound ks (decryptState ks block n) (Fin.ofNat 15 (13 - n))

theorem isEncryption_encryptBlock (ks : Schedule) (block : Lane) : IsEncryption ks block (encryptBlock ks block) := by
  refine ⟨encryptState ks block, rfl, fun ⟨k, hk⟩ h1 _ => ?_, rfl⟩
  obtain ⟨n, rfl⟩ : ∃ n, k = n + 1 := ⟨k - 1, by simp only at h1; omega⟩
  have hround : Fin.ofNat 15 (n + 1) = ⟨n + 1, hk⟩ := Fin.ext (Nat.mod_eq_of_lt hk)
  exact congrArg (encryptRound ks (encryptState ks block n)) hround

theorem isDecryption_decryptBlock (ks : Schedule) (block : Lane) : IsDecryption ks block (decryptBlock ks block) := by
  refine ⟨fun k => decryptState ks block (13 - k), rfl, fun ⟨k, hk⟩ h1 h13 => ?_, rfl⟩
  simp only at h1 h13 ⊢
  have hcount : 13 - (k - 1) = 13 - k + 1 := by omega
  have hround : Fin.ofNat 15 (13 - (13 - k)) = ⟨k, hk⟩ := Fin.ext (by simp only [Fin.ofNat]; omega)
  rw [hcount, decryptState, hround]
  rfl

theorem blockCommand_of_keyedLaneCommand {op : Nat} {i : DReg → DReg → Instr} {f : Schedule → Lane → Lane}
    {rel : Schedule → Lane → Lane → Prop} (hdecode : ∀ d a : DReg, decode (commandWord op d a 0 0) = .ok (i d a))
    (hexec : ∀ d a s, exec (i d a) s = keyedLaneCommand f d a s) (hrel : ∀ ks block, rel ks block (f ks block)) :
    BlockCommand op i rel := by
  intro d a s
  rw [hexec]
  refine ⟨hdecode d a, fun ha hk => ⟨_, keyedLaneCommand_ready f d ha hk, ?_⟩, keyedLaneCommand_not f d,
    keyedLaneCommand_nokey f d⟩
  rw [onLanes, lane0_joinLanes, lane1_joinLanes]
  exact ⟨hrel _ _, hrel _ _⟩

/-- Settles O51: each command writes the block function of both lanes, whose rounds pass through the chain of states. -/
theorem aeseAesdRunTheRounds : Obligations.AeseAesdRunTheRounds :=
  ⟨blockCommand_of_keyedLaneCommand (fun d a => decode_encode (i := .aese d a) rfl) (fun _ _ _ => rfl)
      isEncryption_encryptBlock,
    blockCommand_of_keyedLaneCommand (fun d a => decode_encode (i := .aesd d a) rfl) (fun _ _ _ => rfl)
      isDecryption_decryptBlock⟩

/-! ### Decryption after encryption -/

/-- The rounds between the first AddRoundKey and the last round, in the order of encryption. -/
def middleRounds : List (Fin 15) := [1, 2, 3, 4, 5, 6, 7, 8, 9, 10, 11, 12, 13]

theorem encryptBlock_eq (ks : Schedule) : encryptBlock ks =
    fun s => addRoundKey ks 14 (shiftRows (subBytes (middleRounds.foldl (encryptRound ks) (addRoundKey ks 0 s)))) := rfl

theorem decryptBlock_eq (ks : Schedule) : decryptBlock ks = fun s => addRoundKey ks 0
    (middleRounds.reverse.foldl (decryptRound ks) (invSubBytes (invShiftRows (addRoundKey ks 14 s)))) := rfl

/-- Steps undone one by one, the last first. -/
theorem foldl_reverse_foldl_cancel {α β : Type} {f g : β → α → β} (h : ∀ x k, g (f x k) k = x) (l : List α)
    (x : β) : l.reverse.foldl g (l.foldl f x) = x := by
  induction l generalizing x with
  | nil => rfl
  | cons k l ih => rw [List.foldl_cons, List.reverse_cons, List.foldl_append, ih, List.foldl_cons, List.foldl_nil, h]

theorem invSubBytes_invShiftRows_cancel (s : Lane) : invSubBytes (invShiftRows (shiftRows (subBytes s))) = s := by
  rw [invShiftRows_shiftRows, invSubBytes_subBytes]

theorem decryptRound_encryptRound (ks : Schedule) (s : Lane) (k : Fin 15) :
    decryptRound ks (encryptRound ks s k) k = s := by
  rw [decryptRound, encryptRound, addRoundKey_addRoundKey, invMixColumns_mixColumns, invSubBytes_invShiftRows_cancel]

/-- 44_aes R258: whatever the schedule holds. -/
theorem decryptBlock_encryptBlock (ks : Schedule) (s : Lane) : decryptBlock ks (encryptBlock ks s) = s := by
  simp only [encryptBlock_eq, decryptBlock_eq, addRoundKey_addRoundKey, invSubBytes_invShiftRows_cancel,
    foldl_reverse_foldl_cancel (decryptRound_encryptRound ks)]

/-- Settles O53: the value written is the two block functions in turn on each lane, so the identity. -/
theorem decryptionInvertsEncryption : Obligations.DecryptionInvertsEncryption := by
  intro d e a s ha hk
  refine ⟨_, _, keyedLaneCommand_ready _ d ha hk, keyedLaneCommand_ready _ e (ready_endedData _ _ _) hk, ?_,
    ready_endedData _ _ _⟩
  rw [endedData_r_same, endedData_r_same]
  exact (onLanes_onLanes _ _ _).trans (onLanes_id _ (decryptBlock_encryptBlock s.ks) _)

/-! ### The single-step program -/

theorem execAll_cons {i : Instr} {s t : State} (h : exec i s = .next t) (is : List Instr) :
    execAll (i :: is) s = execAll is t := by
  rw [execAll, h]

theorem execAll_append {is : List Instr} {s t : State} (h : execAll is s = .next t) (js : List Instr) :
    execAll (is ++ js) s = execAll js t := by
  induction is generalizing s with
  | nil => cases h; rfl
  | cons i is ih =>
    rw [execAll] at h
    rw [List.cons_append, execAll]
    cases hi : exec i s with
    | next u => rw [hi] at h; exact ih h
    | fault f => rw [hi] at h; cases h
    | refused f => rw [hi] at h; cases h

/-- Under the schedule ks the commands replace the lanes of R[a] by f of them, and complete. -/
def TransformsLanes (ks : Schedule) (a : DReg) (is : List Instr) (f : Lane → Lane) : Prop :=
  ∀ s : State, Ready s a → s.ksv = true → s.ks = ks → execAll is s = .next (s.endedData a (onLanes f s.r[a]))

namespace TransformsLanes
variable {ks : Schedule} {a : DReg} {is js : List Instr} {f g : Lane → Lane}

theorem of_laneCommand {i : Instr} (h : exec i = laneCommand f a a) : TransformsLanes ks a [i] f := fun s ha _ _ => by
  rw [execAll_cons (h ▸ laneCommand_ready f a ha)]
  rfl

theorem of_keyedLaneCommand {i : Instr} {f : Schedule → Lane → Lane} (h : exec i = keyedLaneCommand f a a) :
    TransformsLanes ks a [i] (f ks) := fun s ha hk hks => by
  rw [execAll_cons (h ▸ keyedLaneCommand_ready f a ha hk), hks]
  rfl

theorem endedData_endedData (s : State) (d : DReg) (x y : Data) :
    (s.endedData d x).endedData d y = s.endedData d y := by
  simp only [State.endedData, Vector.set_set]

theorem append (hi : TransformsLanes ks a is f) (hj : TransformsLanes ks a js g) :
    TransformsLanes ks a (is ++ js) (fun s => g (f s)) := fun s ha hk hks => by
  rw [execAll_append (hi s ha hk hks), hj _ (ready_endedData _ _ _) hk hks, endedData_endedData, endedData_r_same,
    onLanes_onLanes]

/-- A first block of commands, and then one block for each k of a list. -/
theorem flatMap {κ : Type} {block : κ → List Instr} {round : Lane → κ → Lane}
    (hround : ∀ k, TransformsLanes ks a (block k) (round · k)) (l : List κ) (hi : TransformsLanes ks a is f) :
    TransformsLanes ks a (is ++ l.flatMap block) (fun s => l.foldl round (f s)) := by
  induction l generalizing is f with
  | nil => simpa using hi
  | cons k l ih =>
    rw [List.flatMap_cons, ← List.append_assoc]
    exact ih (hi.append (hround k))

theorem asub : TransformsLanes ks a [.asub a a] subBytes := of_laneCommand rfl

theorem ashr : TransformsLanes ks a [.ashr a a] shiftRows := of_laneCommand rfl

theorem amix : TransformsLanes ks a [.amix a a] mixColumns := of_laneCommand rfl

theorem aark (k : Fin 15) : TransformsLanes ks a [.aark a a k.castSucc] (addRoundKey ks k) :=
  of_keyedLaneCommand (f := fun ks => addRoundKey ks k) (execAark_castSucc a a k)

theorem round (k : Fin 15) :
    TransformsLanes ks a [.asub a a, .ashr a a, .amix a a, .aark a a k.castSucc] (encryptRound ks · k) :=
  ((asub.append ashr).append amix).append (aark k)

/-- The program by its rounds (44_aes R279). -/
theorem singleSteps_eq (a : DReg) :
    singleSteps a = [.aark a a (0 : Fin 15).castSucc] ++
      middleRounds.flatMap (fun k => [.asub a a, .ashr a a, .amix a a, .aark a a k.castSucc]) ++
      ([.asub a a] ++ [.ashr a a] ++ [.aark a a (14 : Fin 15).castSucc]) := rfl

theorem singleSteps_encryptBlock : TransformsLanes ks a (singleSteps a) (encryptBlock ks) := by
  rw [singleSteps_eq, encryptBlock_eq]
  have hrounds := (aark 0).flatMap (ks := ks) (a := a) round middleRounds
  have hlast := (asub.append ashr).append (aark (ks := ks) (a := a) 14)
  exact (hrounds.append hlast :)

end TransformsLanes

/-- Settles O54: each single step transforms the lanes of R[a] in place, and the transforms compose to EncryptBlock. -/
theorem singleStepsComposeToAese : Obligations.SingleStepsComposeToAese := fun a s ha hk =>
  ⟨_, keyedLaneCommand_ready encryptBlock a ha hk, TransformsLanes.singleSteps_encryptBlock s ha hk rfl⟩

end Sys2Proof.Machine
end

section
/-! KEXP (44_aes R249, R250): the groups that key expansion appends, and the bytes of the schedule they make. -/

namespace Sys2Proof.Machine

/-! ### Groups -/

/-- The group of zero bytes, which stands for a read outside the groups. -/
def zeroQuad : Quad := ⟨0, 0, 0, 0⟩

/-- Group j follows from the group before it and the one 32 bytes earlier (44_aes R249). -/
def FollowsAt (gs : List Quad) (j : Nat) : Prop :=
  gs.getD j zeroQuad = (gs.getD (j - 8) zeroQuad).xor (scheduleCore (4 * j) (gs.getD (j - 1) zeroQuad))

/-- Expansion leaves the groups that were there, the k-th newest at k places before their end. -/
theorem expandGroups_reverse_getD (n i : Nat) {gs : List Quad} {k : Nat} (hk : k < gs.length) :
    (expandGroups n i gs).reverse.getD (gs.length - 1 - k) zeroQuad = gs.getD k zeroQuad := by
  obtain ⟨more, -, happend⟩ := expandGroups_reverse n i gs
  have hlast : gs.length - 1 - (gs.length - 1 - k) = k := by omega
  rw [happend, List.getD_append _ _ _ _ (by rw [List.length_reverse]; omega), List.getD_reverse _ (by omega), hlast]

theorem followsAt_expandGroups_of_length (n : Nat) {gs : List Quad} (h : 8 ≤ gs.length) :
    FollowsAt (expandGroups (n + 1) (4 * gs.length) gs).reverse gs.length := by
  rw [expandGroups]
  generalize hfresh : (gs.getD 7 ⟨0, 0, 0, 0⟩).xor (scheduleCore (4 * gs.length) (gs.headD ⟨0, 0, 0, 0⟩)) = fresh
  have hread {k : Nat} (hk : k < gs.length + 1) :=
    expandGroups_reverse_getD n (4 * gs.length + 4) (gs := fresh :: gs) (k := k) hk
  have h0 := hread (k := 0) (by omega)
  have h1 := hread (k := 1) (by omega)
  have h8 := hread (k := 8) (by omega)
  simp only [List.length_cons, Nat.add_sub_cancel, Nat.sub_zero] at h0 h1 h8
  rw [FollowsAt, h0, h1, h8, List.getD_cons_zero, List.getD_cons_succ, List.getD_cons_succ, ← hfresh]
  cases gs <;> rfl

theorem followsAt_expandGroups {n : Nat} {gs : List Quad} (h : 8 ≤ gs.length) {j : Nat} (hle : gs.length ≤ j)
    (hlt : j < gs.length + n) : FollowsAt (expandGroups n (4 * gs.length) gs).reverse j := by
  induction n generalizing gs with
  | zero => omega
  | succ n ih =>
    rcases hle.eq_or_lt with rfl | hgt
    · exact followsAt_expandGroups_of_length n h
    · rw [expandGroups]
      exact ih (gs := _ :: gs) (Nat.le_succ_of_le h) hgt (by rw [List.length_cons]; omega)

/-- Group j of the expansion of a key, bytes 4j to 4j + 3 of the schedule. -/
def expandedGroup (key : Data) (j : Nat) : Quad := (expandGroups 52 32 (keyGroups key)).reverse.getD j zeroQuad

theorem expandedGroup_eq_keyGroup (key : Data) {j : Nat} (hj : j < 8) : expandedGroup key j = keyGroup key j := by
  have hread := expandGroups_reverse_getD 52 32 (gs := keyGroups key) (k := 7 - j) (by change _ < 8; omega)
  have hlast : (keyGroups key).length - 1 - (7 - j) = j := by change 7 - (7 - j) = j; omega
  rw [hlast] at hread
  rw [expandedGroup, hread]
  interval_cases j <;> rfl

theorem expandedGroup_eq_xor (key : Data) {j : Nat} (hle : 8 ≤ j) (hlt : j < 60) :
    expandedGroup key j = (expandedGroup key (j - 8)).xor (scheduleCore (4 * j) (expandedGroup key (j - 1))) :=
  followsAt_expandGroups (n := 52) (gs := keyGroups key) (Nat.le_refl 8) hle hlt

/-! ### Bytes -/

/-- Byte k of a group. -/
def Quad.byte (t : Quad) (k : Nat) : Byte := t.toList.getD k 0

theorem flatMap_toList_getD (gs : List Quad) (j : Nat) {k : Nat} (hk : k < 4) :
    (gs.flatMap Quad.toList).getD (4 * j + k) 0 = (gs.getD j zeroQuad).byte k := by
  induction gs generalizing j with
  | nil => interval_cases k <;> rfl
  | cons g gs ih =>
    rw [List.flatMap_cons]
    cases j with
    | zero => rw [Nat.mul_zero, Nat.zero_add, List.getD_append _ _ _ _ hk, List.getD_cons_zero]; rfl
    | succ j =>
      have hlen : g.toList.length = 4 := rfl
      rw [List.getD_append_right _ _ _ _ (by omega), hlen, List.getD_cons_succ, ← ih]
      congr 1; omega

theorem scheduleByte_expandKey (key : Data) (j : Nat) {k : Nat} (hk : k < 4) :
    scheduleByte (expandKey key) (4 * j + k) = (expandedGroup key j).byte k :=
  flatMap_toList_getD _ j hk

theorem Quad.byte_xor (s t : Quad) {k : Nat} (hk : k < 4) : (s.xor t).byte k = s.byte k ^^^ t.byte k := by
  interval_cases k <;> rfl

theorem Quad.byte_sub (t : Quad) {k : Nat} (hk : k < 4) : t.sub.byte k = sbox (t.byte k) := by
  interval_cases k <;> rfl

/-- The transform at a 32-byte boundary. -/
theorem Quad.byte_rotate_sub_xor (t : Quad) (c : Byte) {k : Nat} (hk : k < 4) :
    (t.rotate.sub.xor ⟨c, 0, 0, 0⟩).byte k =
      if k = 0 then sbox (t.byte 1) ^^^ c else sbox (t.byte ((k + 1) % 4)) := by
  rw [Quad.byte_xor _ _ hk]
  interval_cases k
  · rfl
  all_goals exact BitVec.xor_zero

theorem keyGroup_byte (key : Data) (j : Nat) {k : Nat} (hk : k < 4) :
    (keyGroup key j).byte k = byteOf key (4 * j + k) := by
  interval_cases k <;> rfl

/-- A byte of a group after the key's. -/
theorem scheduleByte_expandKey_group (key : Data) {j k : Nat} (hle : 8 ≤ j) (hlt : j < 60) (hk : k < 4) :
    scheduleByte (expandKey key) (4 * j + k) = scheduleByte (expandKey key) (4 * j - 32 + k) ^^^
      (scheduleCore (4 * j) (expandedGroup key (j - 1))).byte k := by
  have hearlier : 4 * j - 32 = 4 * (j - 8) := by omega
  rw [hearlier, scheduleByte_expandKey key _ hk, scheduleByte_expandKey key _ hk, expandedGroup_eq_xor key hle hlt,
    Quad.byte_xor _ _ hk]

theorem scheduleByte_expandKey_last (key : Data) {j k : Nat} (hle : 8 ≤ j) (hk : k < 4) :
    (expandedGroup key (j - 1)).byte k = scheduleByte (expandKey key) (4 * j - 4 + k) := by
  have hlast : 4 * j - 4 = 4 * (j - 1) := by omega
  rw [hlast, scheduleByte_expandKey key _ hk]

/-- The bytes of a group at a 32-byte boundary. -/
theorem scheduleByte_expandKey_boundary (key : Data) {j k : Nat} (hle : 8 ≤ j) (hlt : j < 60) (hj : 4 * j % 32 = 0)
    (hk : k < 4) : scheduleByte (expandKey key) (4 * j + k) = scheduleByte (expandKey key) (4 * j - 32 + k) ^^^
      if k = 0 then sbox (scheduleByte (expandKey key) (4 * j - 4 + 1)) ^^^ rcon (4 * j / 32)
      else sbox (scheduleByte (expandKey key) (4 * j - 4 + (k + 1) % 4)) := by
  rw [scheduleByte_expandKey_group key hle hlt hk, scheduleCore, if_pos hj, Quad.byte_rotate_sub_xor _ _ hk,
    scheduleByte_expandKey_last key hle (by decide), scheduleByte_expandKey_last key hle (Nat.mod_lt _ (by decide))]

theorem isExpansion_expandKey (key : Data) : IsExpansion (byteOf key) (scheduleByte (expandKey key)) := by
  refine ⟨fun n hn => ?_, fun i hle hlt hi => ?_, fun i hle hlt hi k hk => ?_, fun i hle hlt hi h0 h16 k hk => ?_⟩
  · have hk : n % 4 < 4 := Nat.mod_lt n (by decide)
    rw [← Nat.div_add_mod n 4, scheduleByte_expandKey key _ hk, expandedGroup_eq_keyGroup key (by omega),
      keyGroup_byte _ _ hk]
  all_goals
    obtain ⟨j, rfl⟩ : ∃ j, i = 4 * j := ⟨i / 4, by omega⟩
    have hle8 : 8 ≤ j := by omega
    have hlt60 : j < 60 := by omega
  · have hbyte {k : Nat} (hk : k < 4) := scheduleByte_expandKey_boundary key hle8 hlt60 hi hk
    have hearlier {m : Nat} (hm : m ≤ 32) : 4 * j - m = 4 * j - 32 + (32 - m) := by omega
    have hlast {m : Nat} (hm : m ≤ 4) : 4 * j - m = 4 * j - 4 + (4 - m) := by omega
    rw [hearlier (m := 31) (by decide), hearlier (m := 30) (by decide), hearlier (m := 29) (by decide),
      hlast (m := 3) (by decide), hlast (m := 2) (by decide), hlast (m := 1) (by decide)]
    exact ⟨hbyte (k := 0) (by decide), hbyte (k := 1) (by decide), hbyte (k := 2) (by decide),
      hbyte (k := 3) (by decide)⟩
  · rw [scheduleByte_expandKey_group key hle8 hlt60 hk, scheduleCore, if_neg (by omega), if_pos hi,
      Quad.byte_sub _ hk, scheduleByte_expandKey_last key hle8 hk]
  · rw [scheduleByte_expandKey_group key hle8 hlt60 hk, scheduleCore, if_neg h0, if_neg h16,
      scheduleByte_expandKey_last key hle8 hk]

/-- Settles O48: each group appended follows from the one before it and the eighth before it, byte by byte. -/
theorem kexpExpandsTheKey : Obligations.KexpExpandsTheKey := by
  refine fun a s => ⟨decode_encode (i := .kexp a) rfl, fun ha => ⟨expandKey s.r[a], ?_, isExpansion_expandKey _⟩,
    fun ha => retire_error (bind_error_left (needData_not ha))⟩
  exact congrArg (retire s) (bind_ok_left (needData_ready ha))

end Sys2Proof.Machine
end

section
/-! The data moves (45_data_system): NOP, the one word of its OP, and its issue from acceptance to completion; MOV; and
XOR bit by bit. -/

namespace Sys2Proof.Machine

/-! ### NOP -/

/-- The row of OP 0x00 fixes all 32 bits (30_encoding R104). -/
theorem eq_zero_of_decode_of_op_zero {w : Word} {i : Instr} (hop : fieldOp w = 0) (h : decode w = .ok i) : w = 0 := by
  obtain ⟨row, hrow, hmask, -⟩ := decode_ok_iff.1 h
  rw [hop] at hrow
  obtain rfl : OpRow.mk 0x00000000 0xFFFFFFFF (fun _ => .nop) = row := Option.some.inj hrow
  exact BitVec.and_allOnes.symm.trans hmask

theorem exists_decode_error_of_op_zero {w : Word} (hop : fieldOp w = 0) (hw : w ≠ 0) : ∃ e, decode w = .error e := by
  refine exists_decode_error fun hlegal => hw ?_
  obtain ⟨i, hi⟩ := (isLegalWord_iff_decodes w).1 hlegal
  exact eq_zero_of_decode_of_op_zero hop hi

/-- 60_exceptions R331: with a word in flight that decodes, the engine's turn is the meaning of its command. -/
theorem stepOn_engine_of_decode {s : State} {w : Word} {i : Instr} (hs : s.inflight = some w) (h : decode w = .ok i) :
    stepOn .engine s = exec i s := by
  change engineTurn s = exec i s
  simp only [engineTurn, hs, h]

theorem exec_nop (s : State) : exec .nop s = .next s.ended := rfl

/-- Accepted with nothing in flight and then completed bare, a command changes its bookkeeping alone (60_exceptions R330,
R331). -/
theorem ended_accept {s : State} (w : Word) (hb : s.inflight = none) :
    (s.accept w).ended = { s with cmdLast := w, cmdCnt := s.cmdCnt + 1, done := true } := by
  rw [hb]; rfl

/-- Settles O27: the row of NOP fixes every bit, and its completion ends what the acceptance put in flight. -/
theorem nopOnlyCompletes : Obligations.NopOnlyCompletes := by
  have hnop : decode 0 = .ok .nop := decode_encode (i := .nop) rfl
  refine ⟨fun w hop => ⟨fun hw => hw ▸ hnop, ?_⟩, exec_nop, fun s hb he =>
    ⟨s.accept 0, (s.accept 0).ended, stepOn_cmd_accepts 0 hb he, ?_, ended_accept 0 hb, ?_⟩⟩
  · exact exists_decode_error_of_op_zero ((fieldOp_eq_iff w 0).2 hop)
  · exact (stepOn_engine_of_decode (State.accept_inflight s 0) hnop).trans (exec_nop _)
  · exact Bool.and_true s.irqen

/-! ### MOV and XOR -/

/-- Settles O28: MOV's one operand read answers the value it writes. -/
theorem movCopies : Obligations.MovCopies := by
  refine fun d a s => ⟨decode_encode (i := .mov d a) rfl, fun ha => ?_, fun ha => ?_⟩
  · exact retire_writeData (bind_ok_left (needData_ready ha))
  · exact retire_error (bind_error_left (needData_not ha))

/-- Settles O29: XOR writes the exclusive-or of the two values it reads, which is bit by bit. -/
theorem xorCombinesBits : Obligations.XorCombinesBits := by
  refine fun d a b s => ⟨decode_encode (i := .xor d a b) rfl, fun ha hb => ?_, fun h => ?_⟩
  · exact ⟨s.r[a] ^^^ s.r[b], retire_writeData (bind_ok_left (needData2_ready ha hb)),
      fun _ _ => BitVec.getLsbD_xor⟩
  · exact retire_error (bind_error_left (needData2_not h))

end Sys2Proof.Machine
end

section
/-! Acceptance, completion and errors (60_exceptions): what each move of the system can do, which errors a command
raises, the invariants that every move keeps, and what follows for OVR, ERR and the interrupt output. -/

namespace Sys2Proof.Machine

/-! ### The moves -/

/-- Everything the move e can do to the state s. -/
inductive Moved (s : State) : Event → State → Prop
  | idle (hb : s.inflight = none) : Moved s .engine s
  | completed {t : State} (hb : s.inflight ≠ none) (h : Completes s (.next t)) : Moved s .engine t
  | read (off : Nat) (w : Word) (n : Nat) :
      Moved s (.host (.read off 4)) { s with replies := w :: s.replies, freeCount := n }
  | wrote {t : State} (off : Nat) (w : Word) (h : HostWrote s off w t) : Moved s (.host (.write off 4 w)) t
  | reset : Moved s .resetInput s.resetUnit

theorem stepOn_moved {s t : State} {e : Event} (h : stepOn e s = .next t) : Moved s e t := by
  cases e with
  | engine =>
    change engineTurn s = .next t at h
    obtain ⟨hb, he⟩ | ⟨w, hb, hc⟩ := engineTurn_cases s
    · cases he.symm.trans h
      exact .idle hb
    · exact .completed (by simp [hb]) (h ▸ hc)
  | host a =>
    obtain ⟨off, rfl, -, -, rfl⟩ | ⟨off, w, rfl, -, -, rfl⟩ := performAccess_cases h
    · obtain ⟨w, n, hread⟩ := hostRead_eq s (locate off)
      rw [hread]
      exact .read off w n
    · exact .wrote off w (hostWrite_cases s off w)
  | resetInput =>
    cases h
    exact .reset

theorem step_eq_stepOn {s : State} {e : Event} {rest : List Event} (h : s.input = e :: rest) :
    step s = stepOn e { s with input := rest } := by
  rw [stepOn, ← h]

theorem step_eq_engineTurn {s : State} (h : s.input = []) : step s = engineTurn s := by
  rw [step, nextMove, h]

/-- A step is one move, from the state with that move taken off the list. -/
theorem step_moved {s t : State} (h : step s = .next t) : ∃ e rest, Moved { s with input := rest } e t := by
  cases hin : s.input with
  | nil =>
    rw [step_eq_engineTurn hin] at h
    exact ⟨.engine, s.input, stepOn_moved h⟩
  | cons e rest =>
    rw [step_eq_stepOn hin] at h
    exact ⟨e, rest, stepOn_moved h⟩

/-! ### Completion and the invariants of the bookkeeping -/

/-- What a completion leaves, whether or not the command failed (60_exceptions R331). -/
theorem Completes.bookkeeping {s t : State} (h : Completes s (.next t)) :
    t.inflight = none ∧ t.done = true ∧ t.cmdLast = s.cmdLast ∧ t.cmdCnt = s.cmdCnt ∧ t.irqen = s.irqen ∧
      t.ovr = s.ovr ∧ t.input = s.input ∧ t.replies = s.replies ∧ t.freeCount = s.freeCount := by
  cases h with
  | ok u hu => cases hu <;> exact ⟨rfl, rfl, rfl, rfl, rfl, rfl, rfl, rfl, rfl⟩
  | fail c hc => exact ⟨rfl, rfl, rfl, rfl, rfl, rfl, rfl, rfl, rfl⟩

/-- A command fails with an error code, or it leaves the error record. -/
theorem Completes.failed_or_keeps_error {s t : State} (h : Completes s (.next t)) :
    (∃ c, c ≠ .none ∧ t = s.failCommand c) ∨ (t.err = s.err ∧ t.ecode = s.ecode) := by
  cases h with
  | ok u hu => cases hu <;> exact .inr ⟨rfl, rfl⟩
  | fail c hc => exact .inl ⟨c, hc, rfl⟩

theorem Completes.errorRecordOk {s t : State} (h : Completes s (.next t)) (hs : ErrorRecordOk s) :
    ErrorRecordOk t := by
  obtain ⟨c, hc, rfl⟩ | ⟨herr, hcode⟩ := h.failed_or_keeps_error
  · exact ⟨fun _ => hc, fun _ => rfl⟩
  · rw [ErrorRecordOk, herr, hcode]
    exact hs

theorem Completes.scheduleOk {s t : State} (h : Completes s (.next t)) (hs : ScheduleOk s) : ScheduleOk t := by
  cases h with
  | ok u hu =>
    cases hu with
    | schedule key => exact fun _ => ⟨key, rfl⟩
    | _ => exact hs
  | fail c hc => exact hs

theorem HostWrote.handshakeOk {s t : State} {off : Nat} {w : Word} (h : HostWrote s off w t) (hs : HandshakeOk s) :
    HandshakeOk t := by
  cases h with
  | reset => exact nofun
  | status ho =>
    intro u hu
    obtain ⟨hlast, hdone, herr⟩ := hs u hu
    exact ⟨hlast, by simp [hdone], by simp [herr]⟩
  | accepted ho hb he =>
    intro u hu
    exact ⟨Option.some.inj hu, rfl, he⟩
  | _ => exact hs

theorem HostWrote.errorRecordOk {s t : State} {off : Nat} {w : Word} (h : HostWrote s off w t)
    (hs : ErrorRecordOk s) : ErrorRecordOk t := by
  cases h with
  | reset => exact ⟨nofun, fun h => absurd rfl h⟩
  | status ho =>
    cases hw : w.getLsbD 2 with
    | true => simp [ErrorRecordOk]
    | false => simpa [ErrorRecordOk, hw] using hs
  | _ => exact hs

theorem HostWrote.scheduleOk {s t : State} {off : Nat} {w : Word} (h : HostWrote s off w t) (hs : ScheduleOk s) :
    ScheduleOk t := by
  obtain ⟨-, hks, hksv, -⟩ | ⟨rfl, -⟩ := h.frame
  · rw [ScheduleOk, hks, hksv]
    exact hs
  · exact nofun

theorem Moved.handshakeOk {s t : State} {e : Event} (h : Moved s e t) (hs : HandshakeOk s) : HandshakeOk t := by
  cases h with
  | completed hb hc =>
    intro w hw
    cases hw.symm.trans hc.inflight
  | wrote off w h => exact h.handshakeOk hs
  | reset => exact nofun
  | idle | read => exact hs

theorem Moved.errorRecordOk {s t : State} {e : Event} (h : Moved s e t) (hs : ErrorRecordOk s) : ErrorRecordOk t := by
  cases h with
  | completed hb hc => exact hc.errorRecordOk hs
  | wrote off w h => exact h.errorRecordOk hs
  | reset => exact ⟨nofun, fun h => absurd rfl h⟩
  | idle | read => exact hs

theorem Moved.scheduleOk {s t : State} {e : Event} (h : Moved s e t) (hs : ScheduleOk s) : ScheduleOk t := by
  cases h with
  | completed hb hc => exact hc.scheduleOk hs
  | wrote off w h => exact h.scheduleOk hs
  | reset => exact nofun
  | idle | read => exact hs

/-- Settles O58: a step is one move, and each of the three invariants is kept by every move. -/
theorem everyStepKeepsTheBookkeeping : Obligations.EveryStepKeepsTheBookkeeping := by
  intro s t hhand herr hsched h
  obtain ⟨e, rest, hm⟩ := step_moved h
  exact ⟨hm.handshakeOk hhand, hm.errorRecordOk herr, hm.scheduleOk hsched⟩

/-! ### Dropped and ignored writes -/

theorem stepOn_cmd_dropped {s : State} (w : Word) (h : s.inflight ≠ none ∨ s.err = true) :
    stepOn (.host (.write 0x00C 4 w)) s = .next s.dropWrite := by
  have hbusy : (s.busy || s.err) = true := by simpa [Option.isSome_iff_ne_none] using h
  exact (stepOn_write s w (by decide) (by decide)).trans (congrArg _ (if_pos hbusy))

/-- 20_memory R74, R75: writes to ID, CMDCNT, KSWIN and the reserved offsets are ignored. -/
theorem hostWrite_readOnly (s : State) (w : Word) {off : Nat}
    (h : off = 0 ∨ (0x010 ≤ off ∧ off < 0x100) ∨ 0x300 ≤ off) : s.hostWrite (locate off) w = s := by
  obtain ⟨-, hl⟩ | ⟨ho, -⟩ | ⟨ho, -⟩ | ⟨ho, -⟩ | ⟨-, hl⟩ | ⟨ho, ho', -⟩ | ⟨-, -, j, hl⟩ | hl := locate_cases off
  · rw [hl]; rfl
  · omega
  · omega
  · omega
  · rw [hl]; rfl
  · omega
  · rw [hl]; rfl
  · rw [hl]; rfl

/-- The move resets the unit, or is a host write of 1 to the given bit of STATUS. -/
def ResetsOrClears (bit : Nat) (e : Event) : Prop :=
  e = .resetInput ∨ (∃ w : Word, e = .host (.write 0x008 4 w) ∧ w.getLsbD bit = true) ∨
    (∃ w : Word, e = .host (.write 0x004 4 w) ∧ w.getLsbD 0 = true)

theorem ResetsOrClears.resetInput (bit : Nat) : ResetsOrClears bit .resetInput := .inl rfl

theorem ResetsOrClears.status {bit off : Nat} {w : Word} (ho : off = 0x008) (hw : w.getLsbD bit = true) :
    ResetsOrClears bit (.host (.write off 4 w)) := .inr (.inl ⟨w, ho ▸ rfl, hw⟩)

theorem ResetsOrClears.ctrl {bit off : Nat} {w : Word} (ho : off = 0x004) (hw : w.getLsbD 0 = true) :
    ResetsOrClears bit (.host (.write off 4 w)) := .inr (.inr ⟨w, ho ▸ rfl, hw⟩)

theorem HostWrote.ovr_stays {s t : State} {off : Nat} {w : Word} (h : HostWrote s off w t) (hs : s.ovr = true) :
    t.ovr = true ∨ ResetsOrClears 3 (.host (.write off 4 w)) := by
  cases h with
  | reset ho hw => exact .inr (.ctrl ho hw)
  | status ho =>
    cases hw : w.getLsbD 3 with
    | true => exact .inr (.status ho hw)
    | false => simp [hs]
  | dropped => exact .inl rfl
  | _ => exact .inl hs

theorem Moved.ovr_stays {s t : State} {e : Event} (h : Moved s e t) (hs : s.ovr = true) :
    t.ovr = true ∨ ResetsOrClears 3 e := by
  cases h with
  | completed hb hc =>
    obtain ⟨-, -, -, -, -, hovr, -⟩ := hc.bookkeeping
    exact .inl (hovr.trans hs)
  | wrote off w h => exact h.ovr_stays hs
  | reset => exact .inr (.resetInput _)
  | idle | read => exact .inl hs

/-- Settles O7: the drops and the ignored writes by their offsets, and the stickiness of OVR by cases on the move. -/
theorem droppedWritesSetOvr : Obligations.DroppedWritesSetOvr := by
  refine ⟨fun s w v h => ?_, fun s w v i j hb => ?_, fun s w off h h' hoff => ?_, fun s t e hs h => ?_⟩
  · exact stepOn_cmd_dropped w (h.imp_left fun hb => by simp [hb])
  · rw [stepOn_write_rwin, writeWindowWord_busy i j w hb]
    rfl
  · rw [stepOn_write s w h h', hostWrite_readOnly s w hoff]
  · exact (stepOn_moved h).ovr_stays hs

/-! ### ERR -/

theorem HostWrote.err_stays {s t : State} {off : Nat} {w : Word} (h : HostWrote s off w t) (hs : s.err = true)
    (hb : s.inflight = none) :
    (t.err = true ∧ t.inflight = none ∧ t.cmdCnt = s.cmdCnt) ∨ ResetsOrClears 2 (.host (.write off 4 w)) := by
  cases h with
  | reset ho hw => exact .inr (.ctrl ho hw)
  | status ho =>
    cases hw : w.getLsbD 2 with
    | true => exact .inr (.status ho hw)
    | false => exact .inl ⟨by simp [hs], hb, rfl⟩
  | accepted ho hb he => cases hs.symm.trans he
  | _ => exact .inl ⟨hs, hb, rfl⟩

theorem Moved.err_stays {s t : State} {e : Event} (h : Moved s e t) (hs : s.err = true) (hb : s.inflight = none) :
    (t.err = true ∧ t.inflight = none ∧ t.cmdCnt = s.cmdCnt) ∨ ResetsOrClears 2 e := by
  cases h with
  | completed hb' hc => exact absurd hb hb'
  | wrote off w h => exact h.err_stays hs hb
  | reset => exact .inr (.resetInput _)
  | idle | read => exact .inl ⟨hs, hb, rfl⟩

/-- Settles O8: with ERR = 1 nothing is accepted, and by cases on the move only a reset or the host clears ERR. -/
theorem errIsSticky : Obligations.ErrIsSticky :=
  ⟨fun _ w hs => stepOn_cmd_dropped w (.inr hs), fun _ _ _ hs hb h => (stepOn_moved h).err_stays hs hb⟩

theorem stepOn_clearError (s : State) : stepOn (.host (.write 0x008 4 0x4)) s = .next s.clearError :=
  stepOn_write s 0x4 (by decide) (by decide)

/-- Settles O17: the write clears ERR alone, and with ERR = 0 and nothing in flight a CMD write is accepted. -/
theorem clearingErrResumesAcceptance : Obligations.ClearingErrResumesAcceptance := fun s w hb =>
  ⟨s.clearError, s.clearError.accept w, stepOn_clearError s, rfl, stepOn_cmd_accepts w hb rfl, rfl, rfl⟩

/-! ### Acceptance and completion -/

theorem Completes.exists_next {s : State} {o : Out} (h : Completes s o) : ∃ t, o = .next t := by
  cases h <;> exact ⟨_, rfl⟩

theorem stepOn_engine_completes {s : State} (hs : s.inflight ≠ none) : Completes s (stepOn .engine s) := by
  obtain ⟨hb, -⟩ | ⟨w, -, hc⟩ := engineTurn_cases s
  · exact absurd hb hs
  · exact hc

/-- Settles O9: the engine completes the command in flight, and a completion leaves the rest of the bookkeeping. -/
theorem engineTurnCompletesTheCommand : Obligations.EngineTurnCompletesTheCommand := by
  intro s w hs
  have hc : Completes s (stepOn .engine s) := stepOn_engine_completes (by simp [hs])
  obtain ⟨t, ht⟩ := hc.exists_next
  exact ⟨t, ht, (ht ▸ hc).bookkeeping⟩

/-- Settles O5: the move first on the list, or the engine's turn after the last one, is the meaning of the command. -/
theorem stepRunsTheDecodedCommand : Obligations.StepRunsTheDecodedCommand := by
  refine fun s w i hs hd => ⟨fun hin => ?_, fun rest hin => ?_⟩
  · rw [step_eq_engineTurn hin]
    exact stepOn_engine_of_decode hs hd
  · rw [step_eq_stepOn hin]
    exact stepOn_engine_of_decode hs hd

/-- Settles O6: the move is an accepted CMD write. -/
theorem acceptanceRecordsTheCommand : Obligations.AcceptanceRecordsTheCommand := by
  intro s w rest hin hb he
  refine ⟨State.accept { s with input := rest } w, ?_, rfl, BitVec.toNat_add s.cmdCnt 1, rfl, rfl, rfl⟩
  rw [step_eq_stepOn hin]
  exact stepOn_cmd_accepts w hb he

/-- Accepted with nothing in flight and then failed, a command changes its bookkeeping alone (60_exceptions R333). -/
theorem failCommand_accept {s : State} (w : Word) (c : ErrCode) (hb : s.inflight = none) :
    (s.accept w).failCommand c =
      { s with done := true, err := true, ecode := c, cmdLast := w, cmdCnt := s.cmdCnt + 1 } := by
  rw [hb]; rfl

/-- Settles O10: ERR was 0 at acceptance, so the completion that sets it is a failure, which writes its record alone. -/
theorem errorsArePrecise : Obligations.ErrorsArePrecise := by
  intro s t u w hb he ht hu herr
  cases (stepOn_cmd_accepts w hb he).symm.trans ht
  have hc : Completes (s.accept w) (.next u) := hu ▸ stepOn_engine_completes (by simp)
  obtain ⟨c, hne, rfl⟩ | ⟨hkeep, -⟩ := hc.failed_or_keeps_error
  · exact ⟨c, hne, failCommand_accept w c hb⟩
  · cases herr.symm.trans (hkeep.trans he)

/-! ### The interrupt output -/

/-- Settles O18: IRQ is the conjunction of IRQEN and DONE, and each move sets one of them or leaves both. -/
theorem irqFollowsCompletion : Obligations.IrqFollowsCompletion := by
  refine ⟨fun s t w hs h => ?_, fun s t w hb he h => ?_, fun s t w hw h => ?_, fun s t w hw h => ?_, fun s t h => ?_,
    fun s t w he h => ?_⟩
  · have hc : Completes s (.next t) := h ▸ stepOn_engine_completes (by simp [hs])
    obtain ⟨-, hdone, -, -, hirqen, -⟩ := hc.bookkeeping
    rw [State.irq, hirqen, hdone, Bool.and_true]
  · cases (stepOn_cmd_accepts w hb he).symm.trans h
    exact Bool.and_false s.irqen
  · cases (stepOn_write s w (by decide) (by decide)).symm.trans h
    change (s.writeStatus w).irq = false
    rw [writeStatus_eq, State.irq, hw, Bool.not_true, Bool.and_false, Bool.and_false]
  · cases hreset : w.getLsbD 0 with
    | true =>
      cases (stepOn_ctrl_reset s hreset).symm.trans h
      rfl
    | false =>
      cases (stepOn_ctrl_irqen s hreset).symm.trans h
      rw [State.irq, hw, Bool.false_and]
  · cases h
    rfl
  · cases (stepOn_cmd_dropped w (.inr he)).symm.trans h
    rfl

/-! ### The errors of a command -/

/-- A check that raises no error but those of the list. -/
def ErrorsIn {α : Type} (cs : List ErrCode) (x : Except ErrCode α) : Prop := ∀ c, x = .error c → c ∈ cs

/-- The command ends in a state that records one of the errors of the list, or that leaves ERR and ECODE. -/
def RaisesOnly (cs : List ErrCode) (s : State) (o : Out) : Prop :=
  ∃ t, o = .next t ∧ ((∃ c ∈ cs, t = s.endedError c) ∨ (t.err = s.err ∧ t.ecode = s.ecode))

theorem ErrorsIn.ok {α : Type} {cs : List ErrCode} (a : α) : ErrorsIn cs (.ok a : Except ErrCode α) := nofun

theorem ErrorsIn.error {α : Type} {cs : List ErrCode} {c : ErrCode} (h : c ∈ cs) :
    ErrorsIn cs (.error c : Except ErrCode α) := by
  rintro _ ⟨⟩
  exact h

theorem ErrorsIn.bind {α β : Type} {cs : List ErrCode} {x : Except ErrCode α} {f : α → Except ErrCode β}
    (hx : ErrorsIn cs x) (hf : ∀ a, ErrorsIn cs (f a)) : ErrorsIn cs (x >>= f) := by
  cases x with
  | error c => exact .error (hx c rfl)
  | ok a => exact hf a

/-! The lists of the operand reads, in the order of the checks (60_exceptions R321, R322). -/

section
variable {s : State} {cs : List ErrCode}

theorem needData_errorsIn (a : DReg) : ErrorsIn (.uninit :: cs) (needData s a) := by
  unfold needData
  split
  · exact .ok _
  · exact .error (.head _)

theorem needPoint_errorsIn (a : PReg) : ErrorsIn (.uninit :: cs) (needPoint s a) := by
  unfold needPoint
  split
  · exact .ok _
  · exact .error (.head _)

theorem needCanon_errorsIn (v : Data) : ErrorsIn (.uninit :: .range :: cs) (needCanon v) := by
  unfold needCanon
  split
  · exact .ok _
  · exact .error (.tail _ (.head _))

theorem needKey_errorsIn : ErrorsIn (.uninit :: .nokey :: cs) (needKey s) := by
  unfold needKey
  split
  · exact .ok _
  · exact .error (.tail _ (.head _))

theorem needAffine_errorsIn (q : Point) : ErrorsIn (.uninit :: .inf :: cs) (needAffine q) := by
  cases q with
  | inf => exact .error (.tail _ (.head _))
  | affine x y => exact .ok _

theorem needData2_errorsIn (a b : DReg) : ErrorsIn (.uninit :: cs) (needData2 s a b) :=
  (needData_errorsIn a).bind fun _ => (needData_errorsIn b).bind fun _ => .ok _

theorem needPoint2_errorsIn (a b : PReg) : ErrorsIn (.uninit :: cs) (needPoint2 s a b) :=
  (needPoint_errorsIn a).bind fun _ => (needPoint_errorsIn b).bind fun _ => .ok _

theorem needElem_errorsIn (a : DReg) : ErrorsIn (.uninit :: .range :: cs) (needElem s a) :=
  (needData_errorsIn a).bind needCanon_errorsIn

theorem needElem2_errorsIn (a b : DReg) : ErrorsIn (.uninit :: .range :: cs) (needElem2 s a b) :=
  (needData2_errorsIn a b).bind fun _ => (needCanon_errorsIn _).bind fun _ => (needCanon_errorsIn _).bind fun _ => .ok _

theorem needDataKey_errorsIn (a : DReg) : ErrorsIn (.uninit :: .nokey :: cs) (needDataKey s a) :=
  (needData_errorsIn a).bind fun _ => needKey_errorsIn.bind fun _ => .ok _

end

namespace RaisesOnly
variable {s : State} {cs : List ErrCode}

theorem effect (e : Effect) : RaisesOnly cs s (retire s (.ok (e.apply s))) :=
  ⟨_, rfl, .inr (by cases e <;> exact ⟨rfl, rfl⟩)⟩

theorem data (d : DReg) (x : Data) : RaisesOnly cs s (retire s (.ok (s.writeData d x))) := effect (.data d x)

theorem point (d : PReg) (q : Point) : RaisesOnly cs s (retire s (.ok (s.writePoint d q))) := effect (.point d q)

theorem error {c : ErrCode} (h : c ∈ cs) : RaisesOnly cs s (retire s (.error c)) := ⟨_, rfl, .inl ⟨c, h, rfl⟩⟩

theorem bind {α : Type} {x : Except ErrCode α} {f : α → Except ErrCode State} (hx : ErrorsIn cs x)
    (hf : ∀ a, RaisesOnly cs s (retire s (f a))) : RaisesOnly cs s (retire s (x >>= f)) := by
  cases x with
  | error c => exact error (hx c rfl)
  | ok a => exact hf a

theorem ofLane (f : Lane → Lane) (d a : DReg) : RaisesOnly (.uninit :: cs) s (laneCommand f d a s) :=
  bind (needData_errorsIn a) fun _ => data d _

theorem ofKeyedLane (f : Schedule → Lane → Lane) (d a : DReg) :
    RaisesOnly (.uninit :: .nokey :: cs) s (keyedLaneCommand f d a s) :=
  bind (needDataKey_errorsIn a) fun _ => data d _

end RaisesOnly

open RaisesOnly in
theorem exec_raisesOnly {i : Instr} (hwf : i.wellFormed = true) (s : State) :
    RaisesOnly (errorsOf i) s (exec i s) := by
  cases i with
  | nop => exact effect .nothing
  | pinf d | pgen d => exact point d _
  | fadd d a b | fsub d a b | fmul d a b => exact bind (needElem2_errorsIn a b) fun _ => data d _
  | fpow d a b =>
    exact bind (needData2_errorsIn a b) fun _ => bind (needCanon_errorsIn _) fun _ => data d _
  | finv d a =>
    refine bind (needElem_errorsIn a) fun x => ?_
    dsimp only
    split
    · exact error (by simp [errorsOf])
    · exact data d _
  | fdiv d a b =>
    refine bind (needElem2_errorsIn a b) fun x => ?_
    dsimp only
    split
    · exact error (by simp [errorsOf])
    · exact data d _
  | fsqrt d a => exact bind (needElem_errorsIn a) fun _ => data d _
  | pset d a b =>
    refine bind (needElem2_errorsIn a b) fun x => ?_
    dsimp only
    split
    · exact point d _
    · exact error (by simp [errorsOf])
  | pdec d a =>
    refine bind (needElem_errorsIn a) fun x => ?_
    cases decompress x with
    | none => exact error (by simp [errorsOf])
    | some q => exact point d q
  | pmov d a | pneg d a => exact bind (needPoint_errorsIn a) fun _ => point d _
  | px d a | py d a => exact bind (needPoint_errorsIn a) fun _ => bind (needAffine_errorsIn _) fun _ => data d _
  | padd d a b => exact bind (needPoint2_errorsIn a b) fun _ => point d _
  | peq a b => exact bind (needPoint2_errorsIn a b) fun _ => effect (.eq _)
  | pisinf a => exact bind (needPoint_errorsIn a) fun _ => effect (.eq _)
  | pmul d a b => exact bind (needData_errorsIn a) fun _ => bind (needPoint_errorsIn b) fun _ => point d _
  | kexp a => exact bind (needData_errorsIn a) fun _ => effect (.schedule _)
  | aese d a | aesd d a => exact ofKeyedLane _ d a
  | asub d a | aisub d a | ashr d a | aishr d a | amix d a | aimix d a => exact ofLane _ d a
  | aark d a k =>
    change RaisesOnly _ s (execAark d a k s)
    rw [execAark, dif_pos (Nat.lt_succ_of_le (of_decide_eq_true hwf))]
    exact ofKeyedLane _ d a
  | mov d a => exact bind (needData_errorsIn a) fun _ => data d _
  | xor d a b => exact bind (needData2_errorsIn a b) fun _ => data d _

/-- Settles O11, by cases on the command: its checks raise the errors of its row, and its results leave ERR and
ECODE. -/
theorem commandsRaiseOnlyTheirErrors : Obligations.CommandsRaiseOnlyTheirErrors :=
  fun _ s hwf => exec_raisesOnly hwf s

end Sys2Proof.Machine
end

section
/-! A reset, hard or soft, from any state (70_reset R360, R362). -/

namespace Sys2Proof.Machine

/-- The fields a reset keeps are the model's own, and no reset value speaks of them. -/
theorem resetUnit_hasResetValues (s : State) : HasResetValues s.resetUnit :=
  resetStateHasTheResetValues

/-- Settles O26: both moves answer `resetUnit`, where no command is in flight and ERR = 0, so the next CMD write is
accepted. -/
theorem resetsAbandonAndInitialise : Obligations.ResetsAbandonAndInitialise := by
  intro s w u hw
  have hnext : stepOn (.host (.write 0x00C 4 u)) s.resetUnit = .next (s.resetUnit.accept u) :=
    stepOn_cmd_accepts u (State.resetUnit_inflight s) (State.resetUnit_err s)
  exact ⟨s.resetUnit, stepOn_resets (.inl rfl), stepOn_ctrl_reset s hw, resetUnit_hasResetValues s, _, hnext, rfl⟩

end Sys2Proof.Machine
end
